-- ==== Sys2Proof/Word.lean ====
section
/-! DEFINITION. The word types of SHAPES-VE (spec 00_scope.md R7, R8) and the value type of its datapath (R9). -/

namespace Sys2Proof

/-- A 32-bit register word (R22, R63). Bit 0 is the least significant bit (R7). -/
abbrev Word := BitVec 32

/-- One byte of a serialised output stream (R63). -/
abbrev Byte := BitVec 8

/-- A u64 counter (R8): TIMER, an envelope START, an LFO counter. -/
abbrev Count := BitVec 64

/-- The value of an IEEE 754 binary32 word (R9), with its bits taken apart. A finite value is
`(-1)^neg * mag * 2^-149`: every finite binary32 value, subnormal or not, is a whole multiple of 2^-149, so sums
and products can be computed exactly before the one rounding R9 asks for. A NaN carries no payload here: no rule
of the spec reads one (notes/assumptions/3). -/
inductive Flt where
  | nan
  | inf (neg : Bool)
  | fin (neg : Bool) (mag : Nat)
  deriving DecidableEq, Repr, Inhabited

end Sys2Proof
end

