-- ==== Sys2Proof/Config.lean ====
section
/-! DEFINITION. The parameters of R6, the constants the spec fixes, and the values it leaves open. -/

namespace Sys2Proof

/-- The parameters of R6 that are numbers. Every state carries its own (`State.params`), and no step changes
them, so a statement about every state is a statement about every legal parameter choice. BUS_PROTOCOL does not
enter a transaction-level model (R6, R87), and SC_TOL is the tolerance a claim takes as an argument
(`Machine.SincosWithin`). -/
structure Params where
  /-- MAX_VOICES, 1 .. 32 (R6, D8). -/
  maxVoices : Nat
  /-- EVQ_DEPTH, 1 .. 65535 (R6, D9). -/
  evqDepth : Nat
  deriving DecidableEq, Repr, Inhabited

/-- The legal values of R6. -/
abbrev Params.Legal (p : Params) : Prop :=
  1 ≤ p.maxVoices ∧ p.maxVoices ≤ 32 ∧ 1 ≤ p.evqDepth ∧ p.evqDepth ≤ 65535

namespace Config

/-- The reference values of R6: MAX_VOICES = 16, EVQ_DEPTH = 64 (notes/assumptions/1). -/
def reference : Params := { maxVoices := 16, evqDepth := 64 }

/-- SENTINEL = 2^64 − 1 (R6, R102). -/
def sentinel : Count := 0xFFFFFFFFFFFFFFFF#64

/-- FREE VALUE (notes/assumptions/2). The SINCOS unit of R6 before the properties of R13 are laid on it: any
function of the argument's word. `Machine.sincos` makes SC1, SC2, SC3 and SC5 hold whatever it is. -/
opaque sincosRaw : Word → Word × Word

/-- FREE VALUE (notes/assumptions/3). The sign and payload of a NaN that a rule would turn into a word. -/
opaque nanPayload : Word

end Config

end Sys2Proof
end

