-- ==== Sys2Proof/Machine/FreqTable.lean ====
section
/-! DEFINITION. The reset contents of the frequency table FREQ[0..127] (R51): for each note n the binary32 value
nearest to 440 × 2^((n − 69)/12), as R51 lists it. -/

namespace Sys2Proof.Machine

/-- FREQ[0..15] after reset (R51). -/
def freqReset0 : List Word :=
  [0x4102D013#32, 0x410A9760#32, 0x4112D517#32, 0x411B9041#32, 0x4124D054#32, 0x412E9D37#32, 0x4138FF49#32, 0x4143FF6A#32,
   0x414FA700#32, 0x415C0000#32, 0x416914F6#32, 0x4176F110#32, 0x4182D013#32, 0x418A9760#32, 0x4192D517#32, 0x419B9041#32]

/-- FREQ[16..31] after reset (R51). -/
def freqReset16 : List Word :=
  [0x41A4D054#32, 0x41AE9D37#32, 0x41B8FF49#32, 0x41C3FF6A#32, 0x41CFA700#32, 0x41DC0000#32, 0x41E914F6#32, 0x41F6F110#32,
   0x4202D013#32, 0x420A9760#32, 0x4212D517#32, 0x421B9041#32, 0x4224D054#32, 0x422E9D37#32, 0x4238FF49#32, 0x4243FF6A#32]

/-- FREQ[32..47] after reset (R51). -/
def freqReset32 : List Word :=
  [0x424FA700#32, 0x425C0000#32, 0x426914F6#32, 0x4276F110#32, 0x4282D013#32, 0x428A9760#32, 0x4292D517#32, 0x429B9041#32,
   0x42A4D054#32, 0x42AE9D37#32, 0x42B8FF49#32, 0x42C3FF6A#32, 0x42CFA700#32, 0x42DC0000#32, 0x42E914F6#32, 0x42F6F110#32]

/-- FREQ[48..63] after reset (R51). -/
def freqReset48 : List Word :=
  [0x4302D013#32, 0x430A9760#32, 0x4312D517#32, 0x431B9041#32, 0x4324D054#32, 0x432E9D37#32, 0x4338FF49#32, 0x4343FF6A#32,
   0x434FA700#32, 0x435C0000#32, 0x436914F6#32, 0x4376F110#32, 0x4382D013#32, 0x438A9760#32, 0x4392D517#32, 0x439B9041#32]

/-- FREQ[64..79] after reset (R51). -/
def freqReset64 : List Word :=
  [0x43A4D054#32, 0x43AE9D37#32, 0x43B8FF49#32, 0x43C3FF6A#32, 0x43CFA700#32, 0x43DC0000#32, 0x43E914F6#32, 0x43F6F110#32,
   0x4402D013#32, 0x440A9760#32, 0x4412D517#32, 0x441B9041#32, 0x4424D054#32, 0x442E9D37#32, 0x4438FF49#32, 0x4443FF6A#32]

/-- FREQ[80..95] after reset (R51). -/
def freqReset80 : List Word :=
  [0x444FA700#32, 0x445C0000#32, 0x446914F6#32, 0x4476F110#32, 0x4482D013#32, 0x448A9760#32, 0x4492D517#32, 0x449B9041#32,
   0x44A4D054#32, 0x44AE9D37#32, 0x44B8FF49#32, 0x44C3FF6A#32, 0x44CFA700#32, 0x44DC0000#32, 0x44E914F6#32, 0x44F6F110#32]

/-- FREQ[96..111] after reset (R51). -/
def freqReset96 : List Word :=
  [0x4502D013#32, 0x450A9760#32, 0x4512D517#32, 0x451B9041#32, 0x4524D054#32, 0x452E9D37#32, 0x4538FF49#32, 0x4543FF6A#32,
   0x454FA700#32, 0x455C0000#32, 0x456914F6#32, 0x4576F110#32, 0x4582D013#32, 0x458A9760#32, 0x4592D517#32, 0x459B9041#32]

/-- FREQ[112..127] after reset (R51). -/
def freqReset112 : List Word :=
  [0x45A4D054#32, 0x45AE9D37#32, 0x45B8FF49#32, 0x45C3FF6A#32, 0x45CFA700#32, 0x45DC0000#32, 0x45E914F6#32, 0x45F6F110#32,
   0x4602D013#32, 0x460A9760#32, 0x4612D517#32, 0x461B9041#32, 0x4624D054#32, 0x462E9D37#32, 0x4638FF49#32, 0x4643FF6A#32]

/-- FREQ[0..127] after reset (R51). -/
def freqResetTable : List Word :=
  freqReset0 ++ freqReset16 ++ freqReset32 ++ freqReset48 ++ freqReset64 ++ freqReset80 ++ freqReset96 ++ freqReset112

end Sys2Proof.Machine
end

