-- ==== Sys2Proof/Syntax.lean ====
section
/-! DEFINITION. The operations of the block, one constructor of `Instr` per row of spec/opcode_table.json, and the
words that encode them (30_encoding.md). -/

namespace Sys2Proof

/-- The width of a bus access: SIZE = 0, 1, 2, 3 (R87). -/
inductive BusSize where
  | b1
  | b2
  | b4
  | b8
  deriving DecidableEq, Repr, Inhabited

/-- The width in bytes, as BUS_INFO.SIZE records it (R28, R87). -/
def BusSize.bytes : BusSize → Nat
  | .b1 => 1
  | .b2 => 2
  | .b4 => 4
  | .b8 => 8

/-- The operations of SHAPES-VE. The first four are the events a drain applies, the next two the Host's bus
transactions, the last the Sink's request. -/
inductive Instr where
  /-- NOTE_ON (R141): start or re-trigger a note at a velocity (a binary32 word). -/
  | noteOn (note : BitVec 7) (vel : Word)
  /-- NOTE_OFF (R142): release a note. -/
  | noteOff (note : BitVec 7)
  /-- DBG_BYPASS_ON (R143): pin a voice's level to 1.0. -/
  | dbgBypassOn (voice : BitVec 8)
  /-- DBG_BYPASS_OFF (R144): leave the debug state. -/
  | dbgBypassOff (voice : BitVec 8)
  /-- BUS_READ (R170): `MemRead(off, size)`, the erroring widths and offsets of R172 included. -/
  | busRead (size : BusSize) (off : BitVec 12)
  /-- BUS_WRITE (R171): `MemWrite(off, size, val)`, the erroring widths and offsets of R172 included. -/
  | busWrite (size : BusSize) (off : BitVec 12) (wdata : BitVec 64)
  /-- RENDER (R152): the Sink asks for a buffer of frames. -/
  | render (frames : Word)
  deriving DecidableEq, Repr, Inhabited

/-- The words of one input (R80): the length and the meaning of the bits follow from the kind. -/
inductive Words where
  /-- EVENT: the CMD word and the DATA word (R81, R82). -/
  | event (cmd data : Word)
  /-- BUS: the 16-bit descriptor and the write data, as many low bits of it as SIZE gives (R87). -/
  | bus (desc : BitVec 16) (wdata : BitVec 64)
  /-- RENDER: the frame count (R88). -/
  | render (frames : Word)
  deriving DecidableEq, Repr, Inhabited

/-- Why an event is malformed (R85), in the order of the codes of BAD_REASON (R28). -/
inductive Malformed where
  | rsvBits
  | reservedOp
  | noteRange
  | velRange
  | dataNonzero
  | voiceRange
  deriving DecidableEq, Repr, Inhabited

/-- Why the decoder takes no operation from the words. -/
inductive DecodeError where
  /-- A malformed event (R85); the drain records it (R145). -/
  | malformed (why : Malformed)
  /-- A bus descriptor with SIZE 4–7, which is never presented (R87). -/
  | busSizeNeverPresented
  deriving DecidableEq, Repr, Inhabited

end Sys2Proof
end

