-- ==== Sys2Proof/Machine/State.lean ====
section
/-! DEFINITION. The architectural state (10_state.md R20, R47, R52, R53), its reset value (R56), and the reasons a
step can stop. -/

namespace Sys2Proof.Machine

/-- The run states of R54, which STATUS.RUN and STATUS.HALTED encode. -/
inductive RunState where
  | config
  | running
  | halted
  deriving DecidableEq, Repr, Inhabited

/-- ENV_STATE (R47, R110). -/
inductive EnvState where
  | off
  | held
  | released
  | bypass
  deriving DecidableEq, Repr, Inhabited

/-- WAVE_SEL.WAVE (R44). -/
inductive Wave where
  | polygon
  | circle
  deriving DecidableEq, Repr, Inhabited

/-- OUT_FMT.FMT (R45). -/
inductive OutFmt where
  | f32
  | s16
  | u16
  deriving DecidableEq, Repr, Inhabited

/-- One voice of the voice file (R47). -/
structure Voice where
  env : EnvState
  level0 : Word
  start : Count
  note : BitVec 7
  noteValid : Bool
  vel : Word
  lfo : Count
  deriving DecidableEq, Repr, Inhabited

/-- The configuration registers (R34–R45). -/
structure CfgRegs where
  sampleRate : Word
  voices : Word
  masterGain : Word
  attack : Word
  decay : Word
  sustain : Word
  release : Word
  corners : Word
  lfoRate : Word
  lfoDepth : Word
  waveSel : Wave
  outFmt : OutFmt
  deriving DecidableEq, Repr, Inhabited

/-- The error registers: ERR (R26), the counters (R27) and the information registers (R28). -/
structure ErrRegs where
  err : BitVec 5
  dropCount : Word
  badCount : Word
  badCmd : Word
  badReason : BitVec 3
  busInfo : Word
  deriving DecidableEq, Repr, Inhabited

/-- One entry of the event FIFO (R52). -/
structure Event where
  cmd : Word
  data : Word
  deriving DecidableEq, Repr, Inhabited

/-- One output word: 32 bits in F32, 16 bits in S16 and U16 (R62, R89). -/
inductive Sample where
  | w32 (w : Word)
  | w16 (w : BitVec 16)
  deriving DecidableEq, Repr, Inhabited

/-- One output frame, left word then right word (R62). -/
structure Frame where
  left : Sample
  right : Sample
  deriving DecidableEq, Repr, Inhabited

/-- One entry of the order in which the agents act (R4, R70): what the outside presents, or the Engine's turn. -/
inductive Input where
  /-- The Host's next bus transaction (R87). -/
  | bus (desc : BitVec 16) (wdata : BitVec 64)
  /-- The Sink's next request (R88). -/
  | render (frames : Word)
  /-- The Engine's turn: the next frame step of the RENDER in progress (R152). -/
  | engine
  /-- The reset input is asserted and released (R210). -/
  | reset
  deriving DecidableEq, Repr, Inhabited

/-- The whole state. The first group is the block's (R20); the second is the model's own: what the agents around
the block hold (R4, R17), which no step of the block reads but for the order of the steps. -/
structure State where
  /-- MAX_VOICES and EVQ_DEPTH (R6): the machine's parameters, which no step changes. -/
  params : Params
  /-- STATUS.RUN and STATUS.HALTED (R25, R54). -/
  runState : RunState
  /-- The model's fault mark (R20, R196). -/
  faultMark : Bool
  /-- ERR, DROP_COUNT, BAD_COUNT, BAD_CMD, BAD_REASON, BUS_INFO (R26–R28). -/
  errs : ErrRegs
  /-- TIMER (R53). -/
  timer : Count
  /-- CURSOR[4:0] (R30). -/
  cursor : BitVec 5
  /-- POOL[5:0] (R31). -/
  pool : BitVec 6
  /-- EV_DATA (R32). -/
  evData : Word
  /-- SAMPLE_RATE … OUT_FMT (R34–R45). -/
  cfg : CfgRegs
  /-- FREQ[0..127] (R51). -/
  freq : List Word
  /-- voice[0..MAX_VOICES−1] (R47). -/
  voices : List Voice
  /-- The event FIFO, head first (R52). -/
  fifo : List Event
  /-- What the agents do next, in order (R4, R70; notes/assumptions/6). -/
  inputs : List Input
  /-- Frame steps still owed to the RENDER in progress (R152); 0 when none is in progress. -/
  framesLeft : Nat
  /-- The Sink's stream so far, oldest first (R17, R62). -/
  sinkFrames : List Frame
  /-- The data the Host's reads returned so far, oldest first (R17). -/
  hostReads : List Word
  deriving DecidableEq, Repr, Inhabited

/-- Why a step faults: for no reason. R16 names one fault, the frame that raises TIMER_EXH; R104, R158 and R196 say
what the block does after it, so the model records it as a NEXT state that carries the fault mark
(notes/assumptions/7), and no step of the block is undefined. -/
inductive Fault where
  deriving DecidableEq, Repr

/-- Why a step is refused. -/
inductive Refusal where
  /-- Raised by an arm of `exec` that has no meaning yet. Safe. No arm of this model raises it. -/
  | notModelled (mnemonic : String)
  /-- Raised by `step` for a bus descriptor with SIZE 4–7, which R87 says is never presented. Safe. -/
  | busSizeNeverPresented
  deriving DecidableEq, Repr

/-- A voice after reset (R56). -/
def Voice.reset : Voice :=
  { env := .off, level0 := 0#32, start := Config.sentinel, note := 0#7, noteValid := false, vel := 0#32,
    lfo := 0#64 }

/-- The configuration registers after reset (R56, D22). -/
def CfgRegs.reset : CfgRegs :=
  { sampleRate := 48000#32, voices := 0#32, masterGain := 0x3F800000#32, attack := 0#32, decay := 0#32,
    sustain := 0x3F800000#32, release := 0#32, corners := 0x40800000#32, lfoRate := 0#32, lfoDepth := 0#32,
    waveSel := .polygon, outFmt := .f32 }

/-- The error registers after reset (R56). -/
def ErrRegs.reset : ErrRegs :=
  { err := 0#5, dropCount := 0#32, badCount := 0#32, badCmd := 0#32, badReason := 0#3, busInfo := 0#32 }

/-- The state right after reset (R56, R211) of a block with the given parameters, before any agent has acted. -/
def State.initial (p : Params) : State :=
  { params := p, runState := .config, faultMark := false, errs := ErrRegs.reset, timer := 0#64, cursor := 0#5,
    pool := 0#6, evData := 0#32, cfg := CfgRegs.reset, freq := freqResetTable,
    voices := List.replicate p.maxVoices Voice.reset, fifo := [],
    inputs := [], framesLeft := 0, sinkFrames := [], hostReads := [] }

/-- The machine right after reset, with the reference parameters (notes/assumptions/1). -/
def State.reset : State := State.initial Config.reference

end Sys2Proof.Machine
end

