-- ==== Sys2Proof/Machine/RegMap.lean ====
section
/-! DEFINITION. The register map (R22, R60, R68): which register stands at a word-aligned offset. -/

namespace Sys2Proof.Machine

/-- The configuration registers of 0x040–0x06C (R34–R45). -/
inductive CfgReg where
  | sampleRate
  | voices
  | masterGain
  | attack
  | decay
  | sustain
  | release
  | corners
  | lfoRate
  | lfoDepth
  | waveSel
  | outFmt
  deriving DecidableEq, Repr

/-- The words of a voice window (R48, R49). -/
inductive WinWord where
  | vstate
  | vlevel0
  | vstartLo
  | vstartHi
  | vvel
  | vlfoLo
  | vlfoHi
  | vlevel
  deriving DecidableEq, Repr

/-- What stands at an offset of the register space (R22). -/
inductive Reg where
  | id
  | ctrl
  | status
  | err
  | dropCount
  | badCount
  | timerLo
  | timerHi
  | cursor
  | pool
  | evData
  | evCmd
  | badCmd
  | badReason
  | busInfo
  | cfg (r : CfgReg)
  | window (v : Nat) (w : WinWord)
  | freq (n : Nat)
  | reserved
  deriving DecidableEq, Repr

/-- Word `(off >> 2) & 7` of a voice window (R179). -/
def winWordAt (k : Nat) : WinWord :=
  match k with
  | 0 => .vstate
  | 1 => .vlevel0
  | 2 => .vstartLo
  | 3 => .vstartHi
  | 4 => .vvel
  | 5 => .vlfoLo
  | 6 => .vlfoHi
  | _ => .vlevel

/-- The registers of words 0 .. 27, offsets 0x000–0x06C (R22). -/
def lowRegAt (word : Nat) : Reg :=
  match word with
  | 0 => .id
  | 1 => .ctrl
  | 2 => .status
  | 3 => .err
  | 4 => .dropCount
  | 5 => .badCount
  | 6 => .timerLo
  | 7 => .timerHi
  | 8 => .cursor
  | 9 => .pool
  | 10 => .evData
  | 11 => .evCmd
  | 12 => .badCmd
  | 13 => .badReason
  | 14 => .busInfo
  | 16 => .cfg .sampleRate
  | 17 => .cfg .voices
  | 18 => .cfg .masterGain
  | 19 => .cfg .attack
  | 20 => .cfg .decay
  | 21 => .cfg .sustain
  | 22 => .cfg .release
  | 23 => .cfg .corners
  | 24 => .cfg .lfoRate
  | 25 => .cfg .lfoDepth
  | 26 => .cfg .waveSel
  | 27 => .cfg .outFmt
  | _ => .reserved

/-- The register at an offset (R22, R68, R170, R179). Bits [1:0] are 0 in every legal access. -/
def regAt (off : BitVec 12) : Reg :=
  let o := off.toNat
  if o < 0x400 then lowRegAt (o / 4)
  else if o < 0x800 then .window ((o - 0x400) / 32) (winWordAt (o / 4 % 8))
  else if o < 0xA00 then .freq ((o - 0x800) / 4)
  else .reserved

/-- The value of a configuration register as it reads (R34–R45). -/
def CfgRegs.read (c : CfgRegs) : CfgReg → Word
  | .sampleRate => c.sampleRate
  | .voices => c.voices
  | .masterGain => c.masterGain
  | .attack => c.attack
  | .decay => c.decay
  | .sustain => c.sustain
  | .release => c.release
  | .corners => c.corners
  | .lfoRate => c.lfoRate
  | .lfoDepth => c.lfoDepth
  | .waveSel => match c.waveSel with
    | .polygon => 0#32
    | .circle => 1#32
  | .outFmt => match c.outFmt with
    | .f32 => 0#32
    | .s16 => 1#32
    | .u16 => 2#32

/-- What an unlocked write stores in a configuration register (R176): all 32 bits, but bit 0 in WAVE_SEL (R44) and
bits [1:0] in OUT_FMT, where 3 stores nothing (R45). -/
def CfgRegs.write (c : CfgRegs) (r : CfgReg) (val : Word) : CfgRegs :=
  match r with
  | .sampleRate => { c with sampleRate := val }
  | .voices => { c with voices := val }
  | .masterGain => { c with masterGain := val }
  | .attack => { c with attack := val }
  | .decay => { c with decay := val }
  | .sustain => { c with sustain := val }
  | .release => { c with release := val }
  | .corners => { c with corners := val }
  | .lfoRate => { c with lfoRate := val }
  | .lfoDepth => { c with lfoDepth := val }
  | .waveSel => { c with waveSel := if val.getLsbD 0 then .circle else .polygon }
  | .outFmt =>
    match (val.extractLsb' 0 2).toNat with
    | 0 => { c with outFmt := .f32 }
    | 1 => { c with outFmt := .s16 }
    | 2 => { c with outFmt := .u16 }
    | _ => c

end Sys2Proof.Machine
end

