-- ==== Sys2Proof/Machine/Float.lean ====
section
/-! DEFINITION. IEEE 754 binary32 arithmetic as R9 fixes it (one operation, one rounding to nearest with ties to
even, subnormals kept), with the functions of R10 (clamp), R11 (lerp) and R12 (conversions). -/

namespace Sys2Proof

/-- How many units of 2^-149 make 1.0. -/
def fltUnit : Nat := 2 ^ 149

/-- The integer nearest to `num / den` (den > 0), ties to the even integer: the rounding of R9 and R12. -/
def roundHalfEven (num den : Nat) : Nat :=
  let q := num / den
  let r := num % den
  if 2 * r < den then q
  else if 2 * r = den ∧ q % 2 = 0 then q
  else q + 1

/-- The exponent, in units of 2^-149, of the last place of a 24-bit significand for a magnitude whose whole part
is `q`: 0 for every subnormal and for the first normal binade. -/
def ulpExp (q : Nat) : Nat := q.log2 - 23

/-- The magnitude of the binary32 value nearest to `num / den` units, before overflow is looked at (R9). -/
def roundMag (num den : Nat) : Nat :=
  let k := ulpExp (num / den)
  roundHalfEven num (den * 2 ^ k) * 2 ^ k

/-- The first magnitude past the largest finite binary32 value: 2^128 in units of 2^-149. -/
def fltOverflow : Nat := 2 ^ 128 * fltUnit

/-- A rounded magnitude as a value: past the largest finite value, round to nearest gives infinity (R9). -/
def ofMag (neg : Bool) (mag : Nat) : Flt :=
  if mag < fltOverflow then .fin neg mag else .inf neg

/-- The binary32 value nearest to `(-1)^neg * num / den` units of 2^-149 (R9). -/
def roundFlt (neg : Bool) (num den : Nat) : Flt := ofMag neg (roundMag num den)

/-- `f32(w)`: the binary32 value of a word (R7). -/
def f32 (w : Word) : Flt :=
  let e := (w.extractLsb' 23 8).toNat
  let m := (w.extractLsb' 0 23).toNat
  if e = 255 then (if m = 0 then .inf w.msb else .nan)
  else if e = 0 then .fin w.msb m
  else .fin w.msb ((2 ^ 23 + m) * 2 ^ (e - 1))

/-- Bits 30..0 of the word of a finite magnitude: the exponent field and the fraction together. -/
def magBits (mag : Nat) : Nat := ulpExp mag * 2 ^ 23 + mag / 2 ^ ulpExp mag

/-- The weight of bit 31, the sign. -/
def signNat (neg : Bool) : Nat := if neg then 2 ^ 31 else 0

/-- `bits(x)`: the word of a binary32 value (R7). The sign and payload of a NaN are free (R9 fixes none;
notes/assumptions/3): its exponent field and its quiet bit are ones. -/
def bits : Flt → Word
  | .nan => 0x7FC00000#32 ||| Config.nanPayload
  | .inf neg => BitVec.ofNat 32 (signNat neg + 255 * 2 ^ 23)
  | .fin neg mag => BitVec.ofNat 32 (signNat neg + magBits mag)

/-- `+0.0` (R9). -/
def fltZero : Flt := .fin false 0

/-- The exact binary32 value of a small natural number: the literals `1.0`, `2.0`, `32767.0`, … of the rules
(R9; exact for n below 2^24). -/
def fltLit (n : Nat) : Flt := .fin false (n * fltUnit)

/-- The exact value `n / 4`: the quarter turns of R13. -/
def fltQuarters (n : Nat) : Flt := .fin false (n * 2 ^ 147)

/-- DUR_EPS = 2^-20 (R6). -/
def durEps : Flt := .fin false (2 ^ 129)

/-- N_MIN = 2.0 (R6). -/
def nMin : Flt := fltLit 2

/-- N_MAX = 65536.0 (R6). -/
def nMax : Flt := fltLit 65536

/-- A finite magnitude with its sign, as an integer number of units. -/
def signedMag (neg : Bool) (mag : Nat) : Int := if neg then -(mag : Int) else (mag : Int)

def Flt.isNan : Flt → Bool
  | .nan => true
  | _ => false

def Flt.isFinite : Flt → Bool
  | .fin _ _ => true
  | _ => false

def Flt.neg : Flt → Flt
  | .nan => .nan
  | .inf n => .inf (!n)
  | .fin n m => .fin (!n) m

/-- IEEE addition (R9): an exact zero sum is `-0.0` only when both operands are negative. -/
def Flt.add : Flt → Flt → Flt
  | .nan, _ => .nan
  | .inf _, .nan => .nan
  | .inf a, .inf b => if a = b then .inf a else .nan
  | .inf a, .fin _ _ => .inf a
  | .fin _ _, .nan => .nan
  | .fin _ _, .inf b => .inf b
  | .fin a m, .fin b n =>
    let z := signedMag a m + signedMag b n
    if z = 0 then .fin (a && b) 0 else roundFlt (decide (z < 0)) z.natAbs 1

/-- IEEE subtraction (R9). -/
def Flt.sub (x y : Flt) : Flt := x.add y.neg

/-- IEEE multiplication (R9). -/
def Flt.mul : Flt → Flt → Flt
  | .nan, _ => .nan
  | .inf _, .nan => .nan
  | .inf a, .inf b => .inf (a ^^ b)
  | .inf a, .fin b n => if n = 0 then .nan else .inf (a ^^ b)
  | .fin _ _, .nan => .nan
  | .fin a m, .inf b => if m = 0 then .nan else .inf (a ^^ b)
  | .fin a m, .fin b n => roundFlt (a ^^ b) (m * n) fltUnit

/-- IEEE division (R9): a finite non-zero value over zero is an infinity, zero over zero a NaN. -/
def Flt.div : Flt → Flt → Flt
  | .nan, _ => .nan
  | .inf _, .nan => .nan
  | .inf _, .inf _ => .nan
  | .inf a, .fin b _ => .inf (a ^^ b)
  | .fin _ _, .nan => .nan
  | .fin a _, .inf b => .fin (a ^^ b) 0
  | .fin a m, .fin b n =>
    if n = 0 then (if m = 0 then .nan else .inf (a ^^ b))
    else roundFlt (a ^^ b) (m * fltUnit) n

/-- The place of a value that is no NaN on the number line, in units of 2^-149: the infinities stand past every
finite value, and the two zeros stand together. -/
def Flt.place : Flt → Int
  | .nan => 0
  | .inf neg => signedMag neg (2 * fltOverflow)
  | .fin neg mag => signedMag neg mag

/-- IEEE `x < y` (R9): false when either is a NaN. -/
def Flt.lt (x y : Flt) : Bool := !x.isNan && !y.isNan && decide (x.place < y.place)

/-- IEEE `x ≤ y` (R9). -/
def Flt.le (x y : Flt) : Bool := !x.isNan && !y.isNan && decide (x.place ≤ y.place)

/-- IEEE `x == y` (R9): `+0.0 == -0.0`, and a NaN equals nothing. -/
def Flt.eqv (x y : Flt) : Bool := !x.isNan && !y.isNan && decide (x.place = y.place)

/-- `clamp(x, lo, hi)` (R10): NaN gives lo, and a result equal to a bound is that bound's own literal
(notes/assumptions/4). -/
def clamp (x lo hi : Flt) : Flt :=
  if x.isNan then lo
  else if x.le lo then lo
  else if hi.le x then hi
  else x

/-- `lerp(a, b, t) = (a × (1.0 − t)) + (b × t)`, four roundings (R11). -/
def lerp (a b t : Flt) : Flt := (a.mul ((fltLit 1).sub t)).add (b.mul t)

/-- lerp on pairs acts on each component (R11). -/
def lerpPair (a b : Flt × Flt) (t : Flt) : Flt × Flt := (lerp a.1 b.1 t, lerp a.2 b.2 t)

/-- `f32_of_u64(n)` and `f32_of_u32(n)` (R12). -/
def fltOfNat (n : Nat) : Flt := roundFlt false (n * fltUnit) 1

/-- `floor_f32(x)`: the largest integral value ≤ x, exact (R12). R12 gives none for a NaN or an infinity; there the model
answers the argument itself, and no rule applies it there (DESIGN CHOICE, notes/assumptions/10). -/
def fltFloor : Flt → Flt
  | .nan => .nan
  | .inf neg => .inf neg
  | .fin false mag => .fin false (mag / fltUnit * fltUnit)
  | .fin true mag => .fin true ((mag + (fltUnit - 1)) / fltUnit * fltUnit)

/-- `floor_u64_sat(x)` for x ≥ 0 (R12). No rule applies it to a negative value or a NaN; there it is 0. -/
def floorU64Sat : Flt → Nat
  | .nan => 0
  | .inf neg => if neg then 0 else 2 ^ 64 - 1
  | .fin neg mag => if neg then 0 else min (mag / fltUnit) (2 ^ 64 - 1)

/-- `roundTiesToEven_int(x)` for a finite x (R12). R156 applies it to nothing else; there it is 0. -/
def roundToInt : Flt → Int
  | .nan => 0
  | .inf _ => 0
  | .fin neg mag => signedMag neg (roundHalfEven mag fltUnit)

end Sys2Proof
end

