-- ==== Sys2Proof/Machine/Operands.lean ====
section
/-! DEFINITION. How operands are assembled from the words of an input (R81–R83, R87), and the effective values at
which a configuration register is used (R34–R43): both read a word and say what it means. -/

namespace Sys2Proof

/-- OP = CMD[31:24] (R81). -/
def cmdOp (cmd : Word) : BitVec 8 := cmd.extractLsb' 24 8

/-- RSV = CMD[23:8] (R81). -/
def cmdRsv (cmd : Word) : BitVec 16 := cmd.extractLsb' 8 16

/-- ARG = CMD[7:0], the voice index of a bypass event (R81, R83). -/
def cmdArg (cmd : Word) : BitVec 8 := cmd.extractLsb' 0 8

/-- CMD[6:0], the note number (R83). -/
def cmdNote (cmd : Word) : BitVec 7 := cmd.extractLsb' 0 7

/-- `0.0 ≤ f32(VEL) ≤ 1.0` (R82): NaN fails, `-0.0` passes (D36). -/
def velocityLegal (vel : Word) : Bool := fltZero.le (f32 vel) && (f32 vel).le (fltLit 1)

/-- DIR = descriptor[15]: a write (R87). -/
def descIsWrite (desc : BitVec 16) : Bool := desc.getLsbD 15

/-- SIZE = descriptor[14:12] (R87); 4–7 are never presented. -/
def descSize (desc : BitVec 16) : Option BusSize :=
  match (desc.extractLsb' 12 3).toNat with
  | 0 => some .b1
  | 1 => some .b2
  | 2 => some .b4
  | 3 => some .b8
  | _ => none

/-- OFFSET = descriptor[11:0] (R87). -/
def descOffset (desc : BitVec 16) : BitVec 12 := desc.extractLsb' 0 12

/-- WDATA has as many bits as SIZE gives (R87). -/
def busData (size : BusSize) (wdata : BitVec 64) : BitVec 64 :=
  (wdata.setWidth (8 * size.bytes)).setWidth 64

/-- A transaction is legal when it is 4 bytes wide at a multiple of 4 (R64, R87). -/
def busLegal (size : BusSize) (off : BitVec 12) : Bool :=
  decide (size = .b4) && decide (off.extractLsb' 0 2 = 0#2)

namespace Machine

/-- `sr_eff = max(SAMPLE_RATE, 1)` (R34). -/
def srEff (sampleRate : Word) : Nat := max sampleRate.toNat 1

/-- `dur_eff(x)` (R37): a duration that is NaN or below DUR_EPS acts as DUR_EPS. Used for A, D and R (R37–R39). -/
def durEff (w : Word) : Flt :=
  if (f32 w).isNan || (f32 w).lt durEps then durEps else f32 w

/-- `S_eff = clamp(SUSTAIN, 0.0, 1.0)` (R40). -/
def sustainEff (w : Word) : Flt := clamp (f32 w) fltZero (fltLit 1)

/-- `gain_eff` (R36): NaN and the infinities act as +0.0. -/
def gainEff (w : Word) : Flt := if (f32 w).isFinite then f32 w else fltZero

/-- The pool size START latches (R35, R173): 0 and everything above MAX_VOICES mean MAX_VOICES. -/
def poolFor (voices : Word) (maxVoices : Nat) : Nat :=
  if voices.toNat = 0 ∨ maxVoices < voices.toNat then maxVoices else voices.toNat

end Machine

end Sys2Proof
end

