-- ==== Sys2Proof/Machine/Flags.lean ====
section
/-! DEFINITION. The flag words and the counters: the ERR bits (R26, R191), STATUS (R25), VSTATE (R48), the saturating
counters (R8, R27) and BUS_INFO (R28). -/

namespace Sys2Proof.Machine

/-- The errors of R191, each with what it records. -/
inductive ErrCause where
  /-- A push while the FIFO is full (R192). -/
  | evDrop
  /-- A drain pops a malformed entry: its CMD word and its reason code (R193). -/
  | evBad (cmd : Word) (code : BitVec 3)
  /-- A configuration or FREQ write while RUN = 1 (R194). -/
  | cfgLocked
  /-- A bus access of illegal width or offset (R195). -/
  | bus (off : BitVec 12) (write : Bool) (size : BusSize)
  /-- The sample counter is exhausted (R196). -/
  | timerExh
  deriving DecidableEq, Repr

/-- The ERR bit of an error, as a mask (R26, R191). -/
def ErrCause.mask : ErrCause → BitVec 5
  | .evDrop => 0b00001#5
  | .evBad _ _ => 0b00010#5
  | .cfgLocked => 0b00100#5
  | .bus _ _ _ => 0b01000#5
  | .timerExh => 0b10000#5

/-- `sat_inc32(x)` (R8). -/
def satInc32 (x : Word) : Word := if x = 0xFFFFFFFF#32 then x else x + 1#32

/-- A flag as bit `i` of a word. -/
def flagBit (b : Bool) (i : Nat) : Word := (BitVec.ofBool b).setWidth 32 <<< i

/-- BUS_INFO (R28, R195): `off[11:0] | write << 12 | size << 16`. -/
def busInfoWord (off : BitVec 12) (write : Bool) (size : BusSize) : Word :=
  off.setWidth 32 ||| flagBit write 12 ||| BitVec.ofNat 32 size.bytes <<< 16

/-- STATUS (R25): RUN, HALTED, EVQ_EMPTY, EVQ_FULL and EVQ_COUNT, the last three computed from the FIFO. -/
def statusWord (run : RunState) (count depth : Nat) : Word :=
  flagBit (decide (run = .running)) 0 ||| flagBit (decide (run = .halted)) 1 |||
    flagBit (decide (count = 0)) 2 ||| flagBit (decide (count = depth)) 3 |||
    (BitVec.ofNat 16 count).setWidth 32 <<< 16

/-- The two bits of ENV_STATE (R47). -/
def EnvState.code : EnvState → BitVec 2
  | .off => 0#2
  | .held => 1#2
  | .released => 2#2
  | .bypass => 3#2

/-- VSTATE (R48, R179). -/
def vstateWord (x : Voice) (free inPool : Bool) : Word :=
  x.env.code.setWidth 32 ||| flagBit x.noteValid 2 ||| flagBit free 3 |||
    x.note.setWidth 32 <<< 8 ||| flagBit inPool 16

end Sys2Proof.Machine
end

