-- ==== Sys2Proof/Machine/Ops.lean ====
section
/-! DEFINITION. The named operations over the state: recording an error (R191) and acknowledging one (R175), the
voice file (R47), the agents' streams (R15, R17), and reset (R211). -/

namespace Sys2Proof.Machine

/-! ### Errors: what stands in for an exception (R190, R199, R200) -/

/-- What an error records in the error registers (R191): its ERR bit, and the counter and the information
registers named for it. -/
def ErrRegs.record (e : ErrRegs) (c : ErrCause) : ErrRegs :=
  match c with
  | .evDrop => { e with err := e.err ||| c.mask, dropCount := satInc32 e.dropCount }
  | .evBad cmd code =>
    { e with err := e.err ||| c.mask, badCount := satInc32 e.badCount, badCmd := cmd, badReason := code }
  | .cfgLocked => { e with err := e.err ||| c.mask }
  | .bus off write size => { e with err := e.err ||| c.mask, busInfo := busInfoWord off write size }
  | .timerExh => { e with err := e.err ||| c.mask }

/-- `raise E(info)` (R15, R191): record the error and go on. TIMER_EXH alone also halts the block and sets the
model's fault mark (R196). -/
def State.raise (c : ErrCause) (s : State) : State :=
  match c with
  | .timerExh => { s with errs := s.errs.record c, runState := .halted, faultMark := true }
  | _ => { s with errs := s.errs.record c }

/-- The Host's acknowledgement, `ERR <- ERR & ~val[4:0]` (R175, R200). -/
def State.clearErr (val : Word) (s : State) : State :=
  { s with errs := { s.errs with err := s.errs.err &&& ~~~(val.setWidth 5) } }

/-! ### The voice file -/

/-- `voice[v]` (R14, R47). -/
def State.voiceAt (s : State) (v : Nat) : Voice := s.voices.getD v Voice.reset

/-- `voice[v] <- x` (R14, R47). -/
def State.setVoice (v : Nat) (x : Voice) (s : State) : State := { s with voices := s.voices.set v x }

/-- The pool: voices 0 .. POOL−1 (R140). -/
def State.poolVoices (s : State) : List Voice := s.voices.take s.pool.toNat

/-- Change every voice of the pool, in ascending order, and no other (R50). -/
def State.mapPool (f : Voice → Voice) (s : State) : State :=
  { s with voices := (s.voices.take s.pool.toNat).map f ++ s.voices.drop s.pool.toNat }

/-! ### The agents' streams -/

/-- `emit(wL, wR)` (R15): one more frame in the Sink's stream. -/
def State.emit (f : Frame) (s : State) : State := { s with sinkFrames := s.sinkFrames ++ [f] }

/-- A Host read returns a word (R17, R170). -/
def State.returnRead (w : Word) (s : State) : State := { s with hostReads := s.hostReads ++ [w] }

/-- One sample word as the bytes of a serialised stream, the least significant byte first (R63). -/
def Sample.bytes : Sample → List Byte
  | .w32 w => [w.extractLsb' 0 8, w.extractLsb' 8 8, w.extractLsb' 16 8, w.extractLsb' 24 8]
  | .w16 w => [w.extractLsb' 0 8, w.extractLsb' 8 8]

/-- A frame as bytes: the left word before the right word (R62, R63). -/
def Frame.bytes (f : Frame) : List Byte := f.left.bytes ++ f.right.bytes

/-! ### Reset and the run state -/

/-- Reset (R211): every piece of the block's state takes its value from R56. The parameters are the machine's own,
and what the agents hold is not the block's (the RENDER in progress still delivers its frames, R212). -/
def State.softReset (s : State) : State :=
  { State.initial s.params with
    inputs := s.inputs, framesLeft := s.framesLeft, sinkFrames := s.sinkFrames, hostReads := s.hostReads }

/-- START in CONFIG (R173): POOL is latched from VOICES and RUN is set. `poolOf` is the size to latch. -/
def State.start (poolOf : Nat) (s : State) : State :=
  { s with pool := BitVec.ofNat 6 poolOf, runState := .running }

end Sys2Proof.Machine
end

