-- ==== Sys2Proof/Machine/Sincos.lean ====
section
/-! DEFINITION. The SINCOS unit of R6 and R13. It is a parameter: any function with SC1–SC5. Here it is a free
function of the argument (`Config.sincosRaw`) on which SC1, SC2, SC3 and SC5 are laid; every function that has these
properties on [0, 2) is this one for some `sincosRaw`, namely itself. The accuracy SC4 depends on the parameter SC_TOL,
which a claim takes as an argument: `SincosWithin` in Sys2Proof/Safety.lean (notes/assumptions/2). -/

namespace Sys2Proof.Machine

/-- SC1: a component is finite and no larger than 1.0 in magnitude. -/
def unitComponent (w : Word) : Flt := clamp (f32 w) (fltLit 1).neg (fltLit 1)

/-- SC3: an argument in [1, 2) stands for the one a turn below it; the subtraction is exact. -/
def wrapTurn (t : Flt) : Flt :=
  if (fltLit 1).le t && t.lt (fltLit 2) then t.sub (fltLit 1) else t

/-- SC2: the exact values at the quarter turns. -/
def quarterTurn (t : Flt) : Option (Flt × Flt) :=
  if t.eqv fltZero then some (fltZero, fltLit 1)
  else if t.eqv (fltQuarters 1) then some (fltLit 1, fltZero)
  else if t.eqv (fltQuarters 2) then some (fltZero, (fltLit 1).neg)
  else if t.eqv (fltQuarters 3) then some ((fltLit 1).neg, fltZero)
  else none

/-- `SINCOS(t)` (R13), t in turns: the pair (s, c) that approximates (sin 2πt, cos 2πt). -/
def sincos (t : Flt) : Flt × Flt :=
  match quarterTurn (wrapTurn t) with
  | some p => p
  | none =>
    let w := Config.sincosRaw (bits (wrapTurn t))
    (unitComponent w.1, unitComponent w.2)

end Sys2Proof.Machine
end

