-- ==== Sys2Proof/Machine/Oscillator.lean ====
section
/-! DEFINITION. The oscillator (42_oscillator.md): phase (R130), the two waveforms (R131, R132), the corner count with
its LFO (R133, R134) and the stereo pair of a voice (R135, R136). -/

namespace Sys2Proof.Machine

/-- The period in samples, at least one (R130). -/
def periodSamples (sampleRate : Word) (f : Flt) : Nat :=
  max 1 (floorU64Sat ((fltOfNat (srEff sampleRate)).div f))

/-- `phase(f, c)` (R130). -/
def phase (sampleRate : Word) (f : Flt) (c : Count) : Flt :=
  if !(fltZero.lt f && f.lt (.inf false)) then fltZero
  else
    let m := c.toNat % periodSamples sampleRate f
    let p := ((fltOfNat m).mul f).div (fltOfNat (srEff sampleRate))
    if (fltLit 1).le p then fltZero else p

/-- `circle(p) = SINCOS(p)` (R131). -/
def circle (p : Flt) : Flt × Flt := sincos p

/-- `polygon(n, p)` (R132). -/
def polygon (n p : Flt) : Flt × Flt :=
  let step := (fltLit 1).div n
  let q := p.div step
  let k := fltFloor q
  let pr := q.sub k
  let a := k.mul step
  let b := (k.add (fltLit 1)).mul step
  lerpPair (sincos a) (sincos b) pr

/-- `lfo_value(v)` (R134). -/
def lfoValue (c : CfgRegs) (x : Voice) : Flt :=
  (sincos (phase c.sampleRate (f32 c.lfoRate) x.lfo)).1.mul (f32 c.lfoDepth)

/-- `n(v)`, the corner count (R133). -/
def cornerCount (c : CfgRegs) (x : Voice) : Flt :=
  clamp ((f32 c.corners).add (lfoValue c x)) nMin nMax

/-- FREQ[n] as it is used, a binary32 value (R51). -/
def freqOf (freq : List Word) (note : BitVec 7) : Flt := f32 (freq.getD note.toNat 0#32)

/-- `osc_out(v, t)` (R135): the sine component is the left channel's and the cosine the right channel's (R136). -/
def oscOut (c : CfgRegs) (freq : List Word) (x : Voice) (t : Count) : Flt × Flt :=
  let p := phase c.sampleRate (freqOf freq x.note) t
  match c.waveSel with
  | .circle => circle p
  | .polygon => polygon (cornerCount c x) p

end Sys2Proof.Machine
end

