-- ==== Sys2Proof/WellFormed.lean ====
section
/-! DEFINITION. Which terms of `Instr` stand for an operation that can be presented to the block. -/

namespace Sys2Proof

/-- Well-formed operations: a NOTE_ON's velocity is a binary32 value in [0.0, 1.0] (R82, D36), and the data of a
write has no more bits than its width gives (R87). Every other field holds any value. -/
def Instr.WellFormed : Instr → Bool
  | .noteOn _ vel => velocityLegal vel
  | .noteOff _ => true
  | .dbgBypassOn _ => true
  | .dbgBypassOff _ => true
  | .busRead _ _ => true
  | .busWrite size _ wdata => decide (wdata.toNat < 2 ^ (8 * size.bytes))
  | .render _ => true

end Sys2Proof
end

