-- ==== Sys2Proof/Decode.lean ====
section
/-! DEFINITION. The decoder, total on the words of every input, and after it the encoder
(30_encoding.md R80–R90, R93). -/

namespace Sys2Proof

/-- The reason code recorded in BAD_REASON (R28, R85). -/
def Malformed.code : Malformed → BitVec 3
  | .rsvBits => 1#3
  | .reservedOp => 2#3
  | .noteRange => 3#3
  | .velRange => 4#3
  | .dataNonzero => 5#3
  | .voiceRange => 6#3

/-- `decode_event(cmd, data, pool)` (R85): the checks in the order the spec writes them; the first that fails
gives the reason. -/
def decodeEvent (cmd data : Word) (pool : Nat) : Except Malformed Instr :=
  if cmdRsv cmd ≠ 0#16 then .error .rsvBits
  else if cmdOp cmd = 0x01#8 then
    if (cmdArg cmd).getLsbD 7 = true then .error .noteRange
    else if velocityLegal data = false then .error .velRange
    else .ok (.noteOn (cmdNote cmd) data)
  else if cmdOp cmd = 0x02#8 then
    if (cmdArg cmd).getLsbD 7 = true then .error .noteRange
    else if data ≠ 0#32 then .error .dataNonzero
    else .ok (.noteOff (cmdNote cmd))
  else if cmdOp cmd = 0x10#8 ∨ cmdOp cmd = 0x11#8 then
    if data ≠ 0#32 then .error .dataNonzero
    else if pool ≤ (cmdArg cmd).toNat then .error .voiceRange
    else if cmdOp cmd = 0x10#8 then .ok (.dbgBypassOn (cmdArg cmd))
    else .ok (.dbgBypassOff (cmdArg cmd))
  else .error .reservedOp

/-- A bus transaction from its descriptor and data (R87). A width that is presented decodes to a BUS_READ or a
BUS_WRITE whether or not the access is legal: R170 and R171 say what an illegal one does. -/
def decodeBus (desc : BitVec 16) (wdata : BitVec 64) : Except DecodeError Instr :=
  match descSize desc with
  | none => .error .busSizeNeverPresented
  | some size =>
    if descIsWrite desc then .ok (.busWrite size (descOffset desc) (busData size wdata))
    else .ok (.busRead size (descOffset desc))

/-- More than any voice index an event can carry (R81): decoding with it leaves out the pool check only. -/
def anyVoice : Nat := 256

/-- The decoder on the words of any input, without regard to the state: of an event everything is checked but
VOICE_RANGE, which needs POOL (R85) and which the drain checks (R145). -/
def decode : Words → Except DecodeError Instr
  | .event cmd data =>
    match decodeEvent cmd data anyVoice with
    | .ok i => .ok i
    | .error why => .error (.malformed why)
  | .bus desc wdata => decodeBus desc wdata
  | .render frames => .ok (.render frames)

/-- The words that stand for a number of `nbits` bits of the opcode table: a 16-bit number is a bus descriptor
(any write data stands above it), a longer one than 32 bits is an EVENT with its DATA word above the CMD word, and
a 32-bit number is the CMD word of an EVENT that is well formed with the DATA given, else the FRAME_COUNT of a
RENDER: the two are told apart by the channel they come on, which a number does not say (notes/assumptions/5). -/
def tableWords (nbits w : Nat) : Words :=
  if nbits = 16 ∨ nbits = 48 ∨ nbits = 80 then .bus (BitVec.ofNat 16 w) (BitVec.ofNat 64 (w >>> 16))
  else if 32 < nbits then .event (BitVec.ofNat 32 w) (BitVec.ofNat 32 (w >>> 32))
  else match decodeEvent (BitVec.ofNat 32 w) 0#32 anyVoice with
    | .ok _ => .event (BitVec.ofNat 32 w) 0#32
    | .error _ => .render (BitVec.ofNat 32 w)

/-- The instruction the decoder reads from an opcode-table number. -/
def decodeTableWord (nbits w : Nat) : Option Instr :=
  match decode (tableWords nbits w) with
  | .ok i => some i
  | .error _ => none

/-! ### The encoder -/

/-- The CMD word from OP and ARG, with RSV = 0 (R81). -/
def cmdWord (op arg : BitVec 8) : Word := op ++ 0#16 ++ arg

/-- SIZE code of a width (R87). -/
def BusSize.code : BusSize → BitVec 3
  | .b1 => 0#3
  | .b2 => 1#3
  | .b4 => 2#3
  | .b8 => 3#3

/-- The 16-bit descriptor from DIR, SIZE and OFFSET (R87). -/
def busDesc (write : Bool) (size : BusSize) (off : BitVec 12) : BitVec 16 :=
  BitVec.ofBool write ++ size.code ++ off

/-- The words of an operation (R84, R87, R88). -/
def encode : Instr → Words
  | .noteOn note vel => .event (cmdWord 0x01#8 (note.setWidth 8)) vel
  | .noteOff note => .event (cmdWord 0x02#8 (note.setWidth 8)) 0#32
  | .dbgBypassOn voice => .event (cmdWord 0x10#8 voice) 0#32
  | .dbgBypassOff voice => .event (cmdWord 0x11#8 voice) 0#32
  | .busRead size off => .bus (busDesc false size off) 0#64
  | .busWrite size off wdata => .bus (busDesc true size off) wdata
  | .render frames => .render frames

end Sys2Proof
end

