-- ==== Sys2Proof/Machine/Timer.lean ====
section
/-! DEFINITION. The sample counter (40_sample_timer.md): elapsed time (R103), and the advance at the end of a frame
with its exhaustion (R100, R104, R105, R157). -/

namespace Sys2Proof.Machine

/-- `elapsed(s, now)` in seconds (R103): `+∞` for the sentinel, `+0.0` if `now < s` (unreachable, R106), else the
two conversions and one division. -/
def elapsed (sampleRate : Word) (start now : Count) : Flt :=
  if start = Config.sentinel then .inf false
  else if now < start then fltZero
  else (fltOfNat (now - start).toNat).div (fltOfNat (srEff sampleRate))

/-- `advance()` (R157): TIMER and the LFO counter of every pool voice move on by one, unless TIMER would become the
sentinel (R104): then nothing counts, and TIMER_EXH halts the block. -/
def State.advance (s : State) : State :=
  if s.timer + 1#64 = Config.sentinel then s.raise .timerExh
  else ({ s with timer := s.timer + 1#64 } : State).mapPool fun x => { x with lfo := x.lfo + 1#64 }

end Sys2Proof.Machine
end

