-- ==== Sys2Proof/Machine/Envelope.lean ====
section
/-! DEFINITION. The ADSR envelope (41_envelope.md): the level function `get` (R112–R115), the transitions hold and
release (R116, R117), the two debug transitions (R118, R119) and the free predicate (R121). -/

namespace Sys2Proof.Machine

/-- `get` in HELD(level0, t0) (R113), from the elapsed time `e` and the effective parameters (R111). -/
def heldLevel (level0 e a d sus : Flt) : Flt :=
  let af := clamp (e.div a) fltZero (fltLit 1)
  let df := clamp ((e.sub a).div d) fltZero (fltLit 1)
  let aa := lerp level0 (fltLit 1) af
  let da := lerp fltZero ((fltLit 1).sub sus) df
  aa.sub da

/-- `get` in RELEASED(level1, t1) (R114), from the elapsed time `e` and the effective release duration. -/
def releasedLevel (level1 e r : Flt) : Flt :=
  lerp level1 fltZero (clamp (e.div r) fltZero (fltLit 1))

/-- `get(v, now)` (R112–R115), with the shared parameters of R111. -/
def envLevel (c : CfgRegs) (x : Voice) (now : Count) : Flt :=
  match x.env with
  | .off => fltZero
  | .held =>
    heldLevel (f32 x.level0) (elapsed c.sampleRate x.start now) (durEff c.attack) (durEff c.decay)
      (sustainEff c.sustain)
  | .released => releasedLevel (f32 x.level0) (elapsed c.sampleRate x.start now) (durEff c.release)
  | .bypass => fltLit 1

/-- `hold(v, now)` (R116): nothing in BYPASS, else HELD from the level that sounds now. -/
def Voice.hold (c : CfgRegs) (now : Count) (x : Voice) : Voice :=
  match x.env with
  | .bypass => x
  | _ => { x with env := .held, level0 := bits (envLevel c x now), start := now }

/-- `release(v, now)` (R117): in HELD only, RELEASED from the level that sounds now. -/
def Voice.releaseKey (c : CfgRegs) (now : Count) (x : Voice) : Voice :=
  match x.env with
  | .held => { x with env := .released, level0 := bits (envLevel c x now), start := now }
  | _ => x

/-- `bypass_on(v)` (R118). -/
def Voice.bypassOn (x : Voice) : Voice := { x with env := .bypass }

/-- `bypass_off(v)` (R119). -/
def Voice.bypassOff (x : Voice) : Voice :=
  match x.env with
  | .bypass => { x with env := .off }
  | _ => x

/-- `free(v, now)` (R121): not in BYPASS, and a level equal to 0.0. -/
def voiceFree (c : CfgRegs) (x : Voice) (now : Count) : Bool :=
  decide (x.env ≠ .bypass) && (envLevel c x now).eqv fltZero

end Sys2Proof.Machine
end

