-- ==== Sys2Proof/Machine/Pool.lean ====
section
/-! DEFINITION. The voice pool and the four event operations (43_voice_pool.md). Each runs inside the drain step, at
`now = TIMER`. -/

namespace Sys2Proof.Machine

/-- The voice holds note `n` (R141, R142): NOTE_VALID = 1 and NOTE = n. -/
def Voice.holds (n : BitVec 7) (x : Voice) : Bool := x.noteValid && decide (x.note = n)

/-- `hit` of R141: the lowest pool voice that holds the note. -/
def State.hit (n : BitVec 7) (s : State) : Option Nat := s.poolVoices.findIdx? (Voice.holds n)

/-- The voice a NOTE_ON takes (R141, steps 1 and 2). -/
def State.chosen (n : BitVec 7) (s : State) : Nat := (s.hit n).getD s.cursor.toNat

/-- `(CURSOR + 1) mod POOL` (R141). -/
def State.nextCursor (s : State) : BitVec 5 := BitVec.ofNat 5 ((s.cursor.toNat + 1) % s.pool.toNat)

/-- What NOTE_ON does to the voice it takes (R141, step 3): note, velocity, hold, LFO phase 0. -/
def Voice.strike (c : CfgRegs) (now : Count) (n : BitVec 7) (vel : Word) (x : Voice) : Voice :=
  { Voice.hold c now { x with note := n, noteValid := true, vel := vel } with lfo := 0#64 }

/-- `note_on(n, vel, now)` (R141). -/
def State.noteOn (n : BitVec 7) (vel : Word) (s : State) : State :=
  { s with
    voices := s.voices.set (s.chosen n) ((s.voiceAt (s.chosen n)).strike s.cfg s.timer n vel)
    cursor := if (s.hit n).isSome then s.cursor else s.nextCursor }

/-- `note_off(n, now)` (R142). -/
def State.noteOff (n : BitVec 7) (s : State) : State :=
  s.mapPool fun x => if x.holds n then x.releaseKey s.cfg s.timer else x

/-- `bypass_on(v)` on the voice file (R118, R143). -/
def State.bypassOn (v : BitVec 8) (s : State) : State := s.setVoice v.toNat (s.voiceAt v.toNat).bypassOn

/-- `bypass_off(v)` on the voice file (R119, R144). -/
def State.bypassOff (v : BitVec 8) (s : State) : State := s.setVoice v.toNat (s.voiceAt v.toNat).bypassOff

/-- A bypass event that names no pool voice is malformed with VOICE_RANGE (R85, R143–R145); `op` is its opcode. -/
def State.voiceRange (op v : BitVec 8) (s : State) : State :=
  s.raise (.evBad (cmdWord op v) Malformed.voiceRange.code)

/-- NOTE_ON (R141). -/
def execNoteOn (n : BitVec 7) (vel : Word) (s : State) : Host.Outcome State Fault Refusal := .next (s.noteOn n vel)

/-- NOTE_OFF (R142). -/
def execNoteOff (n : BitVec 7) (s : State) : Host.Outcome State Fault Refusal := .next (s.noteOff n)

/-- DBG_BYPASS_ON (R143): the index must be below POOL. -/
def execDbgBypassOn (v : BitVec 8) (s : State) : Host.Outcome State Fault Refusal :=
  .next (if v.toNat < s.pool.toNat then s.bypassOn v else s.voiceRange 0x10#8 v)

/-- DBG_BYPASS_OFF (R144): the index must be below POOL. -/
def execDbgBypassOff (v : BitVec 8) (s : State) : Host.Outcome State Fault Refusal :=
  .next (if v.toNat < s.pool.toNat then s.bypassOff v else s.voiceRange 0x11#8 v)

end Sys2Proof.Machine
end

