-- ==== Sys2Proof/Machine/Render.lean ====
section
/-! DEFINITION. The event channel and the render loop (44_event_channel_render.md): push (R150), the drain (R145,
R153), the frame (R154–R158) and the render request (R152). -/

namespace Sys2Proof.Machine

/-! ### The event channel -/

/-- `push(w)` (R150): the entry (w, EV_DATA) enters the FIFO whole, or is dropped and recorded (R151, R192). -/
def State.push (w : Word) (s : State) : State :=
  if s.fifo.length < s.params.evqDepth then { s with fifo := s.fifo ++ [{ cmd := w, data := s.evData }] }
  else s.raise .evDrop

/-- What an accepted event does (R145). `decodeEvent` gives none of the last three; they are operations of the Host
and the Sink, and change nothing here. -/
def State.applyInstr (i : Instr) (s : State) : State :=
  match i with
  | .noteOn n vel => s.noteOn n vel
  | .noteOff n => s.noteOff n
  | .dbgBypassOn v => s.bypassOn v
  | .dbgBypassOff v => s.bypassOff v
  | .busRead _ _ => s
  | .busWrite _ _ _ => s
  | .render _ => s

/-- `apply_event(cmd, data)` (R145): decode with the POOL of this moment, then run the event or record it. -/
def State.applyEvent (s : State) (e : Event) : State :=
  match decodeEvent e.cmd e.data s.pool.toNat with
  | .ok i => s.applyInstr i
  | .error why => s.raise (.evBad e.cmd why.code)

/-- `drain()` (R153): nothing while RUN = 0 (R158), else every entry queued now, in order. -/
def State.drain (s : State) : State :=
  match s.runState with
  | .running => s.fifo.foldl State.applyEvent { s with fifo := [] }
  | _ => s

/-! ### The frame -/

/-- One voice added to the accumulators (R154): `g = L × VEL`, then `acc + (g × o)` in each channel. -/
def mixVoice (c : CfgRegs) (freq : List Word) (t : Count) (acc : Flt × Flt) (x : Voice) : Flt × Flt :=
  let g := (envLevel c x t).mul (f32 x.vel)
  let o := oscOut c freq x t
  (acc.1.add (g.mul o.1), acc.2.add (g.mul o.2))

/-- The two accumulators after the voices of the pool, in ascending order (R154, R155). -/
def State.mix (s : State) : Flt × Flt :=
  s.poolVoices.foldl (mixVoice s.cfg s.freq s.timer) (fltZero, fltZero)

/-- The integer code of a sample, −32767 .. 32767 (R156): a NaN gives 0, tested before the clamp. -/
def sampleCode (y : Flt) : Int :=
  if y.isNan then 0
  else roundToInt ((clamp y (fltLit 1).neg (fltLit 1)).mul (fltLit 32767))

/-- `conv(y)` (R156, R89). -/
def conv (fmt : OutFmt) (y : Flt) : Sample :=
  match fmt with
  | .f32 => .w32 (bits y)
  | .s16 => .w16 (BitVec.ofInt 16 (sampleCode y))
  | .u16 => .w16 (BitVec.ofInt 16 (sampleCode y + 32768))

/-- The frame of a running block: each accumulator times `gain_eff`, converted (R154). -/
def State.renderedFrame (s : State) : Frame :=
  { left := conv s.cfg.outFmt (s.mix.1.mul (gainEff s.cfg.masterGain))
    right := conv s.cfg.outFmt (s.mix.2.mul (gainEff s.cfg.masterGain)) }

/-- The frame of a block that is not running: `conv(+0.0)` in both channels (R158). -/
def State.silentFrame (s : State) : Frame :=
  { left := conv s.cfg.outFmt fltZero, right := conv s.cfg.outFmt fltZero }

/-- `frame()` (R154): emit one frame, then advance; while RUN = 0, silence and no other change (R158). -/
def State.frame (s : State) : State :=
  match s.runState with
  | .running => (s.emit s.renderedFrame).advance
  | _ => s.emit s.silentFrame

/-- RENDER(fc) (R152): the request's first step is its DRAIN; it then owes the Sink `fc` FRAME steps, which the Engine
takes one at a time (`State.engineTurn`), so that Host steps may fall between any two of them (D50). -/
def execRender (frames : Word) (s : State) : Host.Outcome State Fault Refusal :=
  .next ({ s with framesLeft := frames.toNat } : State).drain

end Sys2Proof.Machine
end

