-- ==== Sys2Proof/Machine/Bus.lean ====
section
/-! DEFINITION. Host bus transactions (45_host_bus.md). -/

namespace Sys2Proof.Machine

/-- A word of voice window v (R48, R49, R179), computed from the state at the time of the read; 0 for
v ≥ MAX_VOICES (R46). -/
def State.windowWord (s : State) (v : Nat) (w : WinWord) : Word :=
  if s.params.maxVoices ≤ v then 0#32
  else
    let x := s.voiceAt v
    match w with
    | .vstate => vstateWord x (voiceFree s.cfg x s.timer) (decide (v < s.pool.toNat))
    | .vlevel0 => x.level0
    | .vstartLo => x.start.extractLsb' 0 32
    | .vstartHi => x.start.extractLsb' 32 32
    | .vvel => x.vel
    | .vlfoLo => x.lfo.extractLsb' 0 32
    | .vlfoHi => x.lfo.extractLsb' 32 32
    | .vlevel => bits (envLevel s.cfg x s.timer)

/-- What a register reads (R23–R51, R170). -/
def State.readReg (s : State) : Reg → Word
  | .id => 0x53480007#32
  | .ctrl => 0#32
  | .status => statusWord s.runState s.fifo.length s.params.evqDepth
  | .err => s.errs.err.setWidth 32
  | .dropCount => s.errs.dropCount
  | .badCount => s.errs.badCount
  | .timerLo => s.timer.extractLsb' 0 32
  | .timerHi => s.timer.extractLsb' 32 32
  | .cursor => s.cursor.setWidth 32
  | .pool => s.pool.setWidth 32
  | .evData => s.evData
  | .evCmd => 0#32
  | .badCmd => s.errs.badCmd
  | .badReason => s.errs.badReason.setWidth 32
  | .busInfo => s.errs.busInfo
  | .cfg r => s.cfg.read r
  | .window v w => s.windowWord v w
  | .freq n => s.freq.getD n 0#32
  | .reserved => 0#32

/-- `read_word(off)` (R170). -/
def State.readWord (s : State) (off : BitVec 12) : Word := s.readReg (regAt off)

/-- `ctrl_write(val)` (R24, R173, R174): SRST wins; START acts in CONFIG only. -/
def State.ctrlWrite (val : Word) (s : State) : State :=
  if val.getLsbD 1 then s.softReset
  else if val.getLsbD 0 && decide (s.runState = .config) then
    s.start (poolFor s.cfg.voices s.params.maxVoices)
  else s

/-- `cfg_write(off, val)` (R176). -/
def State.cfgWrite (r : CfgReg) (val : Word) (s : State) : State :=
  if s.runState = .running then s.raise .cfgLocked else { s with cfg := s.cfg.write r val }

/-- `freq_write(n, val)` (R177). -/
def State.freqWrite (n : Nat) (val : Word) (s : State) : State :=
  if s.runState = .running then s.raise .cfgLocked else { s with freq := s.freq.set n val }

/-- The effect of a legal write on the register it names (R171); read-only registers, voice windows and reserved
offsets ignore it (R180). -/
def State.writeReg (r : Reg) (val : Word) (s : State) : State :=
  match r with
  | .ctrl => s.ctrlWrite val
  | .err => s.clearErr val
  | .evData => { s with evData := val }
  | .evCmd => s.push val
  | .cfg c => s.cfgWrite c val
  | .freq n => s.freqWrite n val
  | .id => s
  | .status => s
  | .dropCount => s
  | .badCount => s
  | .timerLo => s
  | .timerHi => s
  | .cursor => s
  | .pool => s
  | .badCmd => s
  | .badReason => s
  | .busInfo => s
  | .window _ _ => s
  | .reserved => s

/-- `write_word(off, val)`: the legal case of R171. -/
def State.writeWord (off : BitVec 12) (val : Word) (s : State) : State := s.writeReg (regAt off) val

/-- BUS_READ (R170): an illegal access records BUS and returns 0 (R172), a legal one returns the word. -/
def execBusRead (size : BusSize) (off : BitVec 12) (s : State) : Host.Outcome State Fault Refusal :=
  .next (if busLegal size off then s.returnRead (s.readWord off)
    else (s.raise (.bus off false size)).returnRead 0#32)

/-- BUS_WRITE (R171): an illegal access records BUS and changes nothing else (R172). -/
def execBusWrite (size : BusSize) (off : BitVec 12) (wdata : BitVec 64) (s : State) :
    Host.Outcome State Fault Refusal :=
  .next (if busLegal size off then s.writeWord off (wdata.setWidth 32) else s.raise (.bus off true size))

end Sys2Proof.Machine
end

