-- ==== Sys2Proof/Machine/Dispatch.lean ====
section
/-! DEFINITION. One arm per operation of the opcode table. -/

namespace Sys2Proof.Machine

def exec (i : Instr) (s : State) : Host.Outcome State Fault Refusal :=
  match i with
  | .noteOn n vel => Sys2Proof.Machine.execNoteOn n vel s
  | .noteOff n => Sys2Proof.Machine.execNoteOff n s
  | .dbgBypassOn v => Sys2Proof.Machine.execDbgBypassOn v s
  | .dbgBypassOff v => Sys2Proof.Machine.execDbgBypassOff v s
  | .busRead size off => Sys2Proof.Machine.execBusRead size off s
  | .busWrite size off wdata => Sys2Proof.Machine.execBusWrite size off wdata s
  | .render frames => Sys2Proof.Machine.execRender frames s

end Sys2Proof.Machine
end

