-- ==== Sys2Proof/Machine/Sequencer.lean ====
section
/-! DEFINITION. The order in which the agents act (R4, R5, R70, R152; notes/assumptions/6), and how a number of the
opcode table is presented to the block as its next operation (notes/assumptions/5). -/

namespace Sys2Proof.Machine

/-- The Engine's turn: one frame step of the RENDER in progress, and nothing when none is (R4, R152). -/
def State.engineTurn (s : State) : State :=
  if s.framesLeft = 0 then s else ({ s with framesLeft := s.framesLeft - 1 } : State).frame

/-- A transaction or a request from the words presented: decoded, then executed. -/
def State.present (w : Words) (s : State) : Host.Outcome State Fault Refusal :=
  match decode w with
  | .ok i => exec i s
  | .error _ => .refused .busSizeNeverPresented

/-- One step of the total order (R70). A new RENDER waits for the last frame step of the one in progress (R4). With
no input left the Engine goes on. -/
def State.sequence (s : State) : Host.Outcome State Fault Refusal :=
  match s.inputs with
  | [] => .next s.engineTurn
  | .engine :: rest => .next ({ s with inputs := rest } : State).engineTurn
  | .reset :: rest => .next ({ s with inputs := rest } : State).softReset
  | .bus desc wdata :: rest => ({ s with inputs := rest } : State).present (.bus desc wdata)
  | .render frames :: rest =>
    if s.framesLeft = 0 then ({ s with inputs := rest } : State).present (.render frames)
    else .next s.engineTurn

/-- The block started, if it is not running (R173): an event executes only in a running block (43_voice_pool.md). -/
def State.started (s : State) : State :=
  match s.runState with
  | .running => s
  | _ => s.start (poolFor s.cfg.voices s.params.maxVoices)

/-- The words as the very next operation: a transaction or a request stands first among the inputs; an event is
queued alone in a running block, with a RENDER(0), which only drains it, first among the inputs. -/
def State.presentNext (w : Words) (s : State) : State :=
  match w with
  | .event cmd data =>
    { s.started with
      fifo := [{ cmd := cmd, data := data }], framesLeft := 0, inputs := .render 0#32 :: s.inputs }
  | .bus desc wdata => { s with inputs := .bus desc wdata :: s.inputs }
  | .render frames => { s with framesLeft := 0, inputs := .render frames :: s.inputs }

end Sys2Proof.Machine
end

