-- ==== Sys2Proof/Machine/Step.lean ====
section
/-! DEFINITION. One step of the machine: next state, fault or refusal. -/

namespace Sys2Proof.Machine

/-- One atomic step (R4, R5): the next entry of the agents' order, or a frame step. -/
def step (s : State) : Host.Outcome State Fault Refusal := s.sequence

/-- The state in which `step` runs the operation of an opcode-table number next (notes/assumptions/5). -/
def State.withFetchWord (s : State) (nbits w : Nat) : State := s.presentNext (tableWords nbits w)

end Sys2Proof.Machine
end

