-- ==== Sys2Proof/Safety.lean ====
section
/-! DEFINITION. What counts as a sound state and as a safe run: the invariants the spec states of every reachable state
(R30, R31, R50, R52–R54, R106, R123, R146), the faulted states of R16, and the accuracy of the SINCOS unit (SC4) as
a premise a claim may take. -/

namespace Sys2Proof

/-- A value in [0.0, 1.0] (R123 (c)). -/
abbrev Flt.InUnit (x : Flt) : Prop := fltZero.le x = true ∧ x.le (fltLit 1) = true

/-- A value in [−1.0, 1.0] (R13 SC1, R137 (c)). -/
abbrev Flt.InBipolarUnit (x : Flt) : Prop := (fltLit 1).neg.le x = true ∧ x.le (fltLit 1) = true

/-- The number a finite value stands for (R9); 0 for the others. -/
def Flt.toRat : Flt → ℚ
  | .nan => 0
  | .inf _ => 0
  | .fin neg mag => (signedMag neg mag : ℚ) / 2 ^ 149

/-- The exact binary32 fraction `2^-149 · mag` with the positive sign: a level or a phase (R113, R130). -/
def Flt.IsFraction (x : Flt) : Prop := ∃ mag, x = .fin false mag ∧ mag < fltUnit

end Sys2Proof

namespace Sys2Proof.Machine

/-- The sizes and the ranges of the state: R6, R47 (MAX_VOICES voices), R51 (128 frequencies), R52 (at most EVQ_DEPTH
events), R31 (POOL is 0 before START and 1 .. MAX_VOICES after it) and R30 (CURSOR below max(POOL, 1)). -/
abbrev State.Shape (s : State) : Prop :=
  s.params.Legal ∧
  s.voices.length = s.params.maxVoices ∧
  s.freq.length = 128 ∧
  s.fifo.length ≤ s.params.evqDepth ∧
  s.pool.toNat ≤ s.params.maxVoices ∧
  (s.runState = .config ↔ s.pool = 0#6) ∧
  s.cursor.toNat < max s.pool.toNat 1

/-- The counters: TIMER never holds the sentinel (R53, R104), every START is the sentinel or not after TIMER, and not
the sentinel in HELD and RELEASED, and no LFO counter is ahead of TIMER (R106). -/
abbrev State.CountersInOrder (s : State) : Prop :=
  s.timer ≠ Config.sentinel ∧
  ∀ x ∈ s.voices,
    (x.start = Config.sentinel ∨ x.start ≤ s.timer) ∧
    (x.env = .held ∨ x.env = .released → x.start ≠ Config.sentinel) ∧
    x.lfo ≤ s.timer

/-- Voices outside the pool keep their reset values (R50). -/
abbrev State.DormantOutsidePool (s : State) : Prop :=
  ∀ x ∈ s.voices.drop s.pool.toNat, x = Voice.reset

/-- No two pool voices hold the same note (R146 (a)). -/
abbrev State.NotesDistinct (s : State) : Prop :=
  s.poolVoices.Pairwise fun x y => ¬(x.noteValid = true ∧ y.noteValid = true ∧ x.note = y.note)

/-- Every stored level and every velocity is a binary32 value in [0.0, 1.0] (R47, R123 (c)). -/
abbrev State.LevelsInUnit (s : State) : Prop :=
  ∀ x ∈ s.voices, velocityLegal x.level0 = true ∧ velocityLegal x.vel = true

/-- The fault mark stands exactly in the run state HALTED (R55, R196). -/
abbrev State.MarkIffHalted (s : State) : Prop := s.faultMark = true ↔ s.runState = .halted

/-- A faulted state (R16): no claim's postcondition holds in it. -/
abbrev State.Faulted (s : State) : Prop := s.faultMark = true

/-- The next step is a reset (R210): the reset input, or a legal write to CTRL with bit 1 set (descriptor 0xA004:
DIR = 1, SIZE = 2, OFFSET = 0x004). -/
def State.resetsNext (s : State) : Bool :=
  match s.inputs with
  | .reset :: _ => true
  | .bus desc wdata :: _ => decide (desc = 0xA004#16) && wdata.getLsbD 1
  | _ => false

/-- The next step is a frame step of the RENDER in progress (R152): it is the Engine's turn, or nothing else is waiting, or
a new request has to wait (R4). -/
def State.framesNext (s : State) : Bool :=
  decide (0 < s.framesLeft) &&
    match s.inputs with
    | [] => true
    | .engine :: _ => true
    | .render _ :: _ => true
    | .bus _ _ :: _ => false
    | .reset :: _ => false

/-- SC4 of R13 for one value of the parameter SC_TOL: on [0, 2) each component of SINCOS is within `tol` of the sine or
the cosine of 2πt in real arithmetic. A claim that depends on the accuracy of SINCOS takes this as a premise. -/
def SincosWithin (tol : ℝ) : Prop :=
  ∀ w : Word, fltZero.le (f32 w) = true → (f32 w).lt (fltLit 2) = true →
    |((Flt.toRat (sincos (f32 w)).1 : ℚ) : ℝ) - Real.sin (2 * Real.pi * ((Flt.toRat (f32 w) : ℚ) : ℝ))| ≤ tol ∧
    |((Flt.toRat (sincos (f32 w)).2 : ℚ) : ℝ) - Real.cos (2 * Real.pi * ((Flt.toRat (f32 w) : ℚ) : ℝ))| ≤ tol

end Sys2Proof.Machine
end

