-- ==== Sys2Proof/Certificates/Slice0/Obligations.lean ====
section
/-! DEFINITION. The statements about the model. Each docstring names the rule it formalises, or says what it rests on. -/

open Sys2Proof Sys2Proof.Machine

/-! ### Encoding -/

/-- R80–R88. Decoding the words of a well-formed operation gives the operation back, with every operand. -/
def Obligations.DecodeOfEncodeIsIdentity : Prop :=
  ∀ i : Instr, i.WellFormed = true → decode (encode i) = .ok i

/-- R86, and R143, R144 for the voice index. An accepted event has one pair of words, its reserved fields zero, and is a
well-formed operation whose voice index, if it has one, is below POOL. -/
def Obligations.AcceptedEventHasOneEncoding : Prop :=
  ∀ (cmd data : Word) (pool : Nat) (i : Instr), decodeEvent cmd data pool = .ok i →
    encode i = .event cmd data ∧ i.WellFormed = true ∧
    (∀ v, i = .dbgBypassOn v ∨ i = .dbgBypassOff v → v.toNat < pool)

/-- R85, R84. The legality check on the CMD word put together from its fields: the checks in their order, and the first
that fails gives the reason. -/
def Obligations.LegalityCheckInOrder : Prop :=
  ∀ (op : BitVec 8) (rsv : BitVec 16) (arg : BitVec 8) (data : Word) (pool : Nat),
    decodeEvent (op ++ rsv ++ arg) data pool =
      if rsv ≠ 0#16 then .error .rsvBits
      else if op = 0x01#8 then
        if 128 ≤ arg.toNat then .error .noteRange
        else if ¬(Flt.InUnit (f32 data)) then .error .velRange
        else .ok (.noteOn (BitVec.ofNat 7 arg.toNat) data)
      else if op = 0x02#8 then
        if 128 ≤ arg.toNat then .error .noteRange
        else if data ≠ 0#32 then .error .dataNonzero
        else .ok (.noteOff (BitVec.ofNat 7 arg.toNat))
      else if op = 0x10#8 ∨ op = 0x11#8 then
        if data ≠ 0#32 then .error .dataNonzero
        else if pool ≤ arg.toNat then .error .voiceRange
        else if op = 0x10#8 then .ok (.dbgBypassOn arg) else .ok (.dbgBypassOff arg)
      else .error .reservedOp

/-- R84, R87, R88. Words written out from the spec's encodings decode to the operations they stand for. -/
def Obligations.WrittenWordsDecode : Prop :=
  decodeEvent 0x0100003C#32 0x3F800000#32 16 = .ok (.noteOn 60#7 0x3F800000#32) ∧
  decodeEvent 0x0200003C#32 0#32 16 = .ok (.noteOff 60#7) ∧
  decodeEvent 0x1000000F#32 0#32 16 = .ok (.dbgBypassOn 15#8) ∧
  decodeEvent 0x11000003#32 0#32 16 = .ok (.dbgBypassOff 3#8) ∧
  decode (.bus 0x2018#16 0#64) = .ok (.busRead .b4 0x018#12) ∧
  decode (.bus 0xA8F0#16 0x3F800000#64) = .ok (.busWrite .b4 0x8F0#12 0x3F800000#64) ∧
  decode (.bus 0x0009#16 0#64) = .ok (.busRead .b1 0x009#12) ∧
  decode (.render 12#32) = .ok (.render 12#32)

/-! ### The step -/

/-- R4, R5, R145. A step runs the operation decoded: a bus transaction and a render request are taken from the agents'
order, an event from the FIFO by the drain of a RENDER; a request that comes while a RENDER is in progress waits at its
place in the order, and the Engine takes its turn. That the agents' order is a list of inputs is the model's choice
(log entry 6). -/
def Obligations.StepRunsDecodedOperation : Prop :=
  (∀ (s : State) (desc : BitVec 16) (wdata : BitVec 64) (rest : List Input) (i : Instr),
    s.inputs = .bus desc wdata :: rest → decode (.bus desc wdata) = .ok i →
    step s = exec i { s with inputs := rest }) ∧
  (∀ (s : State) (frames : Word) (rest : List Input) (i : Instr),
    s.inputs = .render frames :: rest → s.framesLeft = 0 → decode (.render frames) = .ok i →
    step s = exec i { s with inputs := rest }) ∧
  (∀ (s : State) (frames : Word) (rest : List Input),
    s.inputs = .render frames :: rest → s.framesLeft ≠ 0 →
    step s = .next s.engineTurn ∧ s.engineTurn.inputs = .render frames :: rest) ∧
  (∀ (s : State) (e : Event) (rest : List Input) (i : Instr),
    s.inputs = .render 0#32 :: rest → s.framesLeft = 0 → s.runState = .running → s.fifo = [e] →
    decodeEvent e.cmd e.data s.pool.toNat = .ok i →
    step s = exec i { s with inputs := rest, fifo := [] })

/-- R152. A RENDER(fc) is one drain and then fc frames; whatever steps of other agents fall between, every frame step
delivers one frame and every request adds exactly its frames to those owed. -/
def Obligations.RenderIsDrainThenItsFrames : Prop :=
  (∀ (s : State) (frames : Word), s.inputs = [.render frames] → s.framesLeft = 0 →
    Host.Core.run core (1 + frames.toNat) s =
      .next (State.frame^[frames.toNat] ({ s with inputs := [] } : State).drain)) ∧
  (∀ s s' : State, step s = .next s' →
    s'.framesLeft + s'.sinkFrames.length = s.framesLeft + s.sinkFrames.length +
      (match s.inputs with
        | .render frames :: _ => if s.framesLeft = 0 then frames.toNat else 0
        | _ => 0) ∧
    (s.framesNext = true → s'.sinkFrames.length = s.sinkFrames.length + 1))

/-- R153. The drain of a running block: with an empty FIFO it does nothing; an entry that is accepted runs as the operation
it decodes to, one that is malformed is recorded, then the rest follows; a push cannot land inside. -/
def Obligations.DrainAppliesEventsInOrder : Prop :=
  (∀ s : State, s.runState = .running → s.fifo = [] → s.drain = s) ∧
  (∀ (s : State) (e : Event) (es : List Event), s.runState = .running → s.fifo = e :: es →
    (∀ i, decodeEvent e.cmd e.data s.pool.toNat = .ok i →
      ∃ u, exec i { s with fifo := [] } = .next u ∧ s.drain = ({ u with fifo := es } : State).drain) ∧
    (∀ why, decodeEvent e.cmd e.data s.pool.toNat = .error why →
      s.drain = (({ s with fifo := es } : State).raise (.evBad e.cmd why.code)).drain))

/-- R153, R158. A RENDER request taken alone completes in every state: in a running block the whole FIFO is drained at one
TIMER value, and only the voices, CURSOR and the EV_BAD record change; else nothing is popped. That the frames it asks for
stand in `framesLeft`, and replace there what was still owed, is the model's choice (log entry 6): R4 starts no RENDER
before the last frame of the one before, and a step takes a request only when no frame is owed. -/
def Obligations.RenderRequestDrainsTheFifo : Prop :=
  ∀ (s : State) (frames : Word),
    (s.runState = .running → ∃ t, exec (.render frames) s = .next t ∧ t.fifo = [] ∧
      t = { s with
        fifo := [], framesLeft := frames.toNat, voices := t.voices, cursor := t.cursor, errs := t.errs } ∧
      t.errs.dropCount = s.errs.dropCount ∧ t.errs.busInfo = s.errs.busInfo ∧
      (t.errs.err = s.errs.err ∨ t.errs.err = s.errs.err ||| 2#5)) ∧
    (s.runState ≠ .running → exec (.render frames) s = .next { s with framesLeft := frames.toNat })

/-! ### The events -/

/-- R141 with R116. NOTE_ON takes the lowest pool voice that holds the note, else the voice at CURSOR, and advances CURSOR
only then; the voice gets the note, the velocity, an LFO at 0 and, but in BYPASS, the state HELD from the level that
sounds now. Nothing else changes. -/
def Obligations.NoteOnRetriggersOrSteals : Prop :=
  ∀ (s : State) (n : BitVec 7) (vel : Word), s.Shape → s.runState = .running →
    encode (.noteOn n vel) = .event (0x01000000#32 ||| n.setWidth 32) vel ∧
    ∃ (t : State) (v : Nat), exec (.noteOn n vel) s = .next t ∧ v < s.pool.toNat ∧
      (((s.voiceAt v).noteValid = true ∧ (s.voiceAt v).note = n ∧
          (∀ u < v, ¬((s.voiceAt u).noteValid = true ∧ (s.voiceAt u).note = n)) ∧ t.cursor = s.cursor) ∨
        ((∀ u < s.pool.toNat, ¬((s.voiceAt u).noteValid = true ∧ (s.voiceAt u).note = n)) ∧
          v = s.cursor.toNat ∧ t.cursor.toNat = (s.cursor.toNat + 1) % s.pool.toNat)) ∧
      (t.voiceAt v).note = n ∧ (t.voiceAt v).noteValid = true ∧ (t.voiceAt v).vel = vel ∧ (t.voiceAt v).lfo = 0#64 ∧
      ((s.voiceAt v).env = .bypass → (t.voiceAt v).env = .bypass ∧
        (t.voiceAt v).level0 = (s.voiceAt v).level0 ∧ (t.voiceAt v).start = (s.voiceAt v).start) ∧
      ((s.voiceAt v).env ≠ .bypass → (t.voiceAt v).env = .held ∧
        (t.voiceAt v).level0 = bits (envLevel s.cfg (s.voiceAt v) s.timer) ∧ (t.voiceAt v).start = s.timer) ∧
      (∀ u, u ≠ v → t.voiceAt u = s.voiceAt u) ∧
      t = { s with voices := t.voices, cursor := t.cursor }

/-- R142 with R117. NOTE_OFF completes in every state: every HELD pool voice that holds the note becomes RELEASED from the
level that sounds now; every other voice, and everything else, is unchanged. -/
def Obligations.NoteOffReleasesHolders : Prop :=
  ∀ (s : State) (n : BitVec 7),
    encode (.noteOff n) = .event (0x02000000#32 ||| n.setWidth 32) 0#32 ∧
    ∃ t : State, exec (.noteOff n) s = .next t ∧
      (∀ v, v < s.pool.toNat → v < s.voices.length →
        (s.voiceAt v).noteValid = true → (s.voiceAt v).note = n → (s.voiceAt v).env = .held →
        t.voiceAt v = { s.voiceAt v with
          env := .released, level0 := bits (envLevel s.cfg (s.voiceAt v) s.timer), start := s.timer }) ∧
      (∀ v, ¬(v < s.pool.toNat ∧ v < s.voices.length ∧
          (s.voiceAt v).noteValid = true ∧ (s.voiceAt v).note = n ∧ (s.voiceAt v).env = .held) →
        t.voiceAt v = s.voiceAt v) ∧
      t = { s with voices := t.voices }

/-- R143 with R118. DBG_BYPASS_ON on a pool voice sets its state to BYPASS and changes nothing else; the level is then 1.0. -/
def Obligations.BypassOnPinsTheVoice : Prop :=
  ∀ (s : State) (v : BitVec 8), v.toNat < s.pool.toNat → v.toNat < s.voices.length →
    encode (.dbgBypassOn v) = .event (0x10000000#32 ||| v.setWidth 32) 0#32 ∧
    ∃ t : State, exec (.dbgBypassOn v) s = .next t ∧
      t.voiceAt v.toNat = { s.voiceAt v.toNat with env := .bypass } ∧
      (∀ now, envLevel s.cfg (t.voiceAt v.toNat) now = fltLit 1) ∧
      (∀ u, u ≠ v.toNat → t.voiceAt u = s.voiceAt u) ∧
      t = { s with voices := t.voices }

/-- R144 with R119. DBG_BYPASS_OFF takes a pool voice from BYPASS to OFF, and changes nothing in any other state. -/
def Obligations.BypassOffFreesTheVoice : Prop :=
  ∀ (s : State) (v : BitVec 8), v.toNat < s.pool.toNat → v.toNat < s.voices.length →
    encode (.dbgBypassOff v) = .event (0x11000000#32 ||| v.setWidth 32) 0#32 ∧
    ∃ t : State, exec (.dbgBypassOff v) s = .next t ∧
      ((s.voiceAt v.toNat).env = .bypass → t.voiceAt v.toNat = { s.voiceAt v.toNat with env := .off }) ∧
      ((s.voiceAt v.toNat).env ≠ .bypass → t.voiceAt v.toNat = s.voiceAt v.toNat) ∧
      (∀ u, u ≠ v.toNat → t.voiceAt u = s.voiceAt u) ∧
      t = { s with voices := t.voices }

/-- R143–R145, R193. A bypass operation that names no pool voice records EV_BAD with its CMD word and the code 6, counts it,
and changes nothing else. -/
def Obligations.BypassOutsidePoolIsRecorded : Prop :=
  ∀ (s : State) (v : BitVec 8), s.pool.toNat ≤ v.toNat →
    exec (.dbgBypassOn v) s = .next { s with errs := { s.errs with
      err := s.errs.err ||| 2#5,
      badCount := BitVec.ofNat 32 (min (s.errs.badCount.toNat + 1) (2 ^ 32 - 1)),
      badCmd := 0x10000000#32 ||| v.setWidth 32, badReason := 6#3 } } ∧
    exec (.dbgBypassOff v) s = .next { s with errs := { s.errs with
      err := s.errs.err ||| 2#5,
      badCount := BitVec.ofNat 32 (min (s.errs.badCount.toNat + 1) (2 ^ 32 - 1)),
      badCmd := 0x11000000#32 ||| v.setWidth 32, badReason := 6#3 } }

/-- R193, R145. A malformed event sets EV_BAD, counts (staying at 2^32 − 1), records its CMD word and its code, and changes
nothing else: no voice and no CURSOR. The DATA word is not recorded. -/
def Obligations.MalformedEventIsOnlyRecorded : Prop :=
  ∀ (s : State) (e : Event) (why : Malformed), decodeEvent e.cmd e.data s.pool.toNat = .error why →
    s.applyEvent e = { s with errs := { s.errs with
      err := s.errs.err ||| 2#5,
      badCount := BitVec.ofNat 32 (min (s.errs.badCount.toNat + 1) (2 ^ 32 - 1)),
      badCmd := e.cmd, badReason := why.code } } ∧
    [Malformed.rsvBits.code, Malformed.reservedOp.code, Malformed.noteRange.code, Malformed.velRange.code,
      Malformed.dataNonzero.code, Malformed.voiceRange.code] = [1#3, 2#3, 3#3, 4#3, 5#3, 6#3]

/-- R146 (b). In a pool of N voices, N + 1 NOTE_ONs for distinct notes that no pool voice holds take N distinct voices from
the cursor on, and the last takes the voice the first one took: the k-th note of the first N but the first is still
held by the voice k places after the cursor, and the last note by the voice at the cursor. -/
def Obligations.OneMoreNoteStealsTheFirstVoice : Prop :=
  ∀ (s : State) (notes : List (BitVec 7 × Word)), s.Shape → s.runState = .running →
    notes.length = s.pool.toNat + 1 → (notes.map Prod.fst).Nodup →
    (∀ p ∈ notes, ∀ v < s.pool.toNat, ¬((s.voiceAt v).noteValid = true ∧ (s.voiceAt v).note = p.1)) →
    let t := notes.foldl (fun u p => u.noteOn p.1 p.2) s
    t.pool = s.pool ∧ t.voices.length = s.voices.length ∧
    (∀ k, 0 < k → k < s.pool.toNat → ∀ p, notes[k]? = some p →
      (t.voiceAt ((s.cursor.toNat + k) % s.pool.toNat)).note = p.1 ∧
      (t.voiceAt ((s.cursor.toNat + k) % s.pool.toNat)).noteValid = true) ∧
    (∀ p, notes[s.pool.toNat]? = some p →
      (t.voiceAt s.cursor.toNat).note = p.1 ∧ (t.voiceAt s.cursor.toNat).noteValid = true)

/-! ### The envelope -/

/-- R112, R115. The level of an OFF voice, and so of a voice that was never triggered, is +0.0, and of a BYPASS voice 1.0,
whatever the counter. -/
def Obligations.OffIsSilentAndBypassIsFull : Prop :=
  ∀ (c : CfgRegs) (x : Voice) (now : Count),
    (x.env = .off → envLevel c x now = fltZero) ∧ envLevel c Voice.reset now = fltZero ∧
    (x.env = .bypass → envLevel c x now = fltLit 1)

/-- R103. Elapsed time: `+∞` for the sentinel, `+0.0` before the start, else the quotient of the two conversions, with
`sr_eff = max(SAMPLE_RATE, 1)`; and the rule's example. -/
def Obligations.ElapsedTimeRule : Prop :=
  (∀ (sr : Word) (s now : Count),
    (s = 0xFFFFFFFFFFFFFFFF#64 → elapsed sr s now = .inf false) ∧
    (s ≠ 0xFFFFFFFFFFFFFFFF#64 → now.toNat < s.toNat → elapsed sr s now = fltZero) ∧
    (s ≠ 0xFFFFFFFFFFFFFFFF#64 → s.toNat ≤ now.toNat →
      elapsed sr s now = (fltOfNat (now.toNat - s.toNat)).div (fltOfNat (max sr.toNat 1)))) ∧
  elapsed 4#32 8#64 13#64 = f32 0x3FA00000#32

/-- R113, R114. The level in HELD and in RELEASED, for every configuration, voice and count, from the elapsed time e and the
effective parameters. HELD: with af = clamp(e / A, 0, 1) and df = clamp((e − A) / D, 0, 1), the attack (level0 × (1 − af)) +
(1 × af) less the decay (0 × (1 − df)) + ((1 − S) × df). RELEASED: with fr = clamp(e / R, 0, 1), (level1 × (1 − fr)) +
(0 × fr). And the two rules' examples: 0.875 in the decay and 0.25 in the release. -/
def Obligations.EnvelopeWorkedExamples : Prop :=
  (∀ (c : CfgRegs) (x : Voice) (now : Count), x.env = .held →
    let e := elapsed c.sampleRate x.start now
    let af := clamp (e.div (durEff c.attack)) fltZero (fltLit 1)
    let df := clamp ((e.sub (durEff c.attack)).div (durEff c.decay)) fltZero (fltLit 1)
    let sus := clamp (f32 c.sustain) fltZero (fltLit 1)
    envLevel c x now =
      (((f32 x.level0).mul ((fltLit 1).sub af)).add ((fltLit 1).mul af)).sub
        ((fltZero.mul ((fltLit 1).sub df)).add (((fltLit 1).sub sus).mul df))) ∧
  (∀ (c : CfgRegs) (x : Voice) (now : Count), x.env = .released →
    let fr := clamp ((elapsed c.sampleRate x.start now).div (durEff c.release)) fltZero (fltLit 1)
    envLevel c x now = ((f32 x.level0).mul ((fltLit 1).sub fr)).add (fltZero.mul fr)) ∧
  (∀ (c : CfgRegs) (x : Voice), c.sampleRate = 4#32 → c.attack = 0x3F800000#32 → c.decay = 0x3F800000#32 →
    c.sustain = 0x3F000000#32 → x.env = .held → x.level0 = 0#32 → x.start = 0#64 →
    bits (envLevel c x 5#64) = 0x3F600000#32) ∧
  (∀ (c : CfgRegs) (x : Voice), c.sampleRate = 4#32 → c.release = 0x3F800000#32 →
    x.env = .released → x.level0 = 0x3F000000#32 → x.start = 12#64 →
    bits (envLevel c x 14#64) = 0x3E800000#32)

/-- R123 (b). Once the elapsed time divided by the release duration rounds to at least 1.0, the level is exactly +0.0. -/
def Obligations.ReleaseEndsAtExactlyZero : Prop :=
  ∀ (c : CfgRegs) (x : Voice) (now : Count), velocityLegal x.level0 = true → x.env = .released →
    (fltLit 1).le ((elapsed c.sampleRate x.start now).div (durEff c.release)) = true →
    envLevel c x now = fltZero

/-- R123 (a), (d). A hold or a release leaves the level at its own sample exactly as it was. -/
def Obligations.TransitionsKeepTheLevel : Prop :=
  ∀ (c : CfgRegs) (x : Voice) (now : Count), velocityLegal x.level0 = true → now ≠ 0xFFFFFFFFFFFFFFFF#64 →
    envLevel c (x.hold c now) now = envLevel c x now ∧
    envLevel c (x.releaseKey c now) now = envLevel c x now ∧
    envLevel c ((x.hold c now).hold c now) now = envLevel c (x.hold c now) now

/-- R123 (c), R47. Levels and velocities stay in [0, 1]: the invariant is kept by every step, and under it every level
that is read or mixed lies in [0, 1]. -/
def Obligations.LevelsStayInUnit : Prop :=
  (∀ s s' : State, s.LevelsInUnit → step s = .next s' → s'.LevelsInUnit) ∧
  (∀ (s : State) (x : Voice) (now : Count), s.LevelsInUnit → x ∈ s.voices → Flt.InUnit (envLevel s.cfg x now))

/-! ### The oscillator, the mix and the conversion -/

/-- R130 with R137 (a). A phase lies in [+0.0, 1.0) and is never NaN. It is +0.0 for a frequency that is not finite and
positive; else the count is taken modulo the period, the whole part of sample rate over frequency held between 1 and
2^64 − 1, then multiplied by the frequency and divided by the sample rate, and 1.0 or more counts as +0.0. Two examples:
R130's own, and a phase of 440 Hz at 48000 Hz. -/
def Obligations.PhaseIsAFraction : Prop :=
  (∀ (sr : Word) (f : Flt) (c : Count), Flt.IsFraction (phase sr f c)) ∧
  (∀ (sr : Word) (f : Flt) (c : Count), ¬(fltZero.lt f = true ∧ f.lt (.inf false) = true) → phase sr f c = fltZero) ∧
  (∀ (sr : Word) (f : Flt) (c : Count), fltZero.lt f = true → f.lt (.inf false) = true →
    let srf := fltOfNat (max sr.toNat 1)
    ∃ P : Nat,
      (srf.div f = .inf false ∧ P = 2 ^ 64 - 1 ∨
        ∃ mag, srf.div f = .fin false mag ∧ P = max 1 (min (mag / 2 ^ 149) (2 ^ 64 - 1))) ∧
      let p := ((fltOfNat (c.toNat % P)).mul f).div srf
      phase sr f c = if (fltLit 1).le p then fltZero else p) ∧
  phase 4#32 (f32 0x3F800000#32) 5#64 = f32 0x3E800000#32 ∧
  phase 48000#32 (f32 0x43DC0000#32) 108#64 = f32 0x3F7D70A4#32

/-- R132 with R137 (b). For every legal corner count n and every phase p: with step = 1/n, q = p/step and k the whole part of
q, the polygon is in each component (x × (1 − pr)) + (y × pr), where pr = q − k is the progress and x and y are SINCOS at
k × step and at (k + 1) × step. At phase +0.0 it is at circle(+0.0) = (+0.0, 1.0). R132's example, and the last edge of the
square. -/
def Obligations.PolygonStartsOnTheCircle : Prop :=
  (∀ n : Flt, nMin.le n = true → n.le nMax = true →
    polygon n fltZero = circle fltZero ∧ circle fltZero = (fltZero, fltLit 1)) ∧
  (∀ n p : Flt, nMin.le n = true → n.le nMax = true → Flt.IsFraction p →
    let step := (fltLit 1).div n
    ∃ m j : Nat, p.div step = .fin false m ∧ j * 2 ^ 149 ≤ m ∧ m < (j + 1) * 2 ^ 149 ∧
      let k := Flt.fin false (j * 2 ^ 149)
      let pr := (p.div step).sub k
      let x := sincos (k.mul step)
      let y := sincos ((k.add (fltLit 1)).mul step)
      polygon n p =
        ((x.1.mul ((fltLit 1).sub pr)).add (y.1.mul pr), (x.2.mul ((fltLit 1).sub pr)).add (y.2.mul pr))) ∧
  polygon (fltLit 4) (f32 0x3E000000#32) = (f32 0x3F000000#32, f32 0x3F000000#32) ∧
  polygon (fltLit 4) (f32 0x3F600000#32) = (f32 0xBF000000#32, f32 0x3F000000#32)

/-- R137 (c). Both components of the oscillator output are finite and lie in [−1, 1]. -/
def Obligations.OscillatorStaysInUnitSquare : Prop :=
  ∀ (c : CfgRegs) (freq : List Word) (x : Voice) (t : Count),
    (oscOut c freq x t).1.isFinite = true ∧ (oscOut c freq x t).2.isFinite = true ∧
    Flt.InBipolarUnit (oscOut c freq x t).1 ∧ Flt.InBipolarUnit (oscOut c freq x t).2

/-- R13, SC1, SC2 and SC3. The SINCOS unit is bounded, exact at the quarter turns and has period one turn. -/
def Obligations.SincosBoundedExactPeriodic : Prop :=
  (∀ t : Flt, (sincos t).1.isFinite = true ∧ (sincos t).2.isFinite = true ∧
    Flt.InBipolarUnit (sincos t).1 ∧ Flt.InBipolarUnit (sincos t).2) ∧
  (∀ t ∈ [0x00000000#32, 0x3F800000#32], sincos (f32 t) = (fltZero, fltLit 1)) ∧
  (∀ t ∈ [0x3E800000#32, 0x3FA00000#32], sincos (f32 t) = (fltLit 1, fltZero)) ∧
  (∀ t ∈ [0x3F000000#32, 0x3FC00000#32], sincos (f32 t) = (fltZero, f32 0xBF800000#32)) ∧
  (∀ t ∈ [0x3F400000#32, 0x3FE00000#32], sincos (f32 t) = (f32 0xBF800000#32, fltZero)) ∧
  (∀ w : Word, (fltLit 1).le (f32 w) = true → (f32 w).lt (fltLit 2) = true →
    sincos (f32 w) = sincos ((f32 w).sub (fltLit 1)))

/-- R131, R135, SC4 of R13. In the CIRCLE waveform the two channels are the sine and the cosine of the phase to within the
tolerance of the SINCOS unit, for whatever tolerance that unit meets. -/
def Obligations.CircleFollowsTheRealCircle : Prop :=
  ∀ (tol : ℝ) (c : CfgRegs) (freq : List Word) (x : Voice) (t : Count), SincosWithin tol → c.waveSel = .circle →
    let p : ℝ := ((phase c.sampleRate (freqOf freq x.note) t).toRat : ℚ)
    |(((oscOut c freq x t).1.toRat : ℚ) : ℝ) - Real.sin (2 * Real.pi * p)| ≤ tol ∧
    |(((oscOut c freq x t).2.toRat : ℚ) : ℝ) - Real.cos (2 * Real.pi * p)| ≤ tol

/-- R133, R134. The LFO value is the sine component of SINCOS, at the phase of LFO_RATE on the voice's own counter, times
LFO_DEPTH: at LFO count 0 it is +0.0 × LFO_DEPTH. The corner count is CORNERS plus the LFO value, taken into [2, 65536], and
2 for a NaN; it is finite. And the two rules' examples: the LFO value 1.0, and CORNERS = 3.0 with it gives 4.0. -/
def Obligations.CornerCountIsLegal : Prop :=
  (∀ (c : CfgRegs) (x : Voice),
    lfoValue c x = (sincos (phase c.sampleRate (f32 c.lfoRate) x.lfo)).1.mul (f32 c.lfoDepth) ∧
    (x.lfo = 0#64 → lfoValue c x = fltZero.mul (f32 c.lfoDepth)) ∧
    (((f32 c.corners).add (lfoValue c x)).isNan = true → cornerCount c x = fltLit 2) ∧
    (((f32 c.corners).add (lfoValue c x)).lt (fltLit 2) = true → cornerCount c x = fltLit 2) ∧
    ((fltLit 65536).lt ((f32 c.corners).add (lfoValue c x)) = true → cornerCount c x = fltLit 65536) ∧
    ((fltLit 2).le ((f32 c.corners).add (lfoValue c x)) = true →
      ((f32 c.corners).add (lfoValue c x)).le (fltLit 65536) = true →
      cornerCount c x = (f32 c.corners).add (lfoValue c x)) ∧
    (cornerCount c x).isFinite = true ∧ nMin.le (cornerCount c x) = true ∧ (cornerCount c x).le nMax = true) ∧
  (∀ (c : CfgRegs) (x : Voice), c.sampleRate = 4#32 → c.lfoRate = 0x3F800000#32 → c.lfoDepth = 0x3F800000#32 →
    x.lfo = 1#64 →
    lfoValue c x = f32 0x3F800000#32 ∧ (c.corners = 0x40400000#32 → cornerCount c x = f32 0x40800000#32))

/-- R155. With levels and velocities in [0, 1], each accumulator stays within ±POOL, and no sample is a NaN. -/
def Obligations.MixIsBoundedByThePool : Prop :=
  ∀ s : State, s.LevelsInUnit →
    (fltLit s.pool.toNat).neg.le s.mix.1 = true ∧ s.mix.1.le (fltLit s.pool.toNat) = true ∧
    (fltLit s.pool.toNat).neg.le s.mix.2 = true ∧ s.mix.2.le (fltLit s.pool.toNat) = true ∧
    (s.mix.1.mul (gainEff s.cfg.masterGain)).isNan = false ∧ (s.mix.2.mul (gainEff s.cfg.masterGain)).isNan = false

/-- R156. F32 emits the word of the sample, not clamped. The integer code of a NaN is 0; of any other sample it is the integer
nearest to clamp(y, −1.0, 1.0) × 32767.0, ties to even. S16 emits the code in two's complement, U16 the code plus 32768.
Every code lies in −32767 .. 32767, so the S16 word 0x8000 and the U16 word 0 are never produced; a NaN and both zeros
give silence. And rows of R156's table. -/
def Obligations.SampleCodeRange : Prop :=
  (∀ y : Flt, conv .f32 y = .w32 (bits y)) ∧
  (∀ y : Flt, y.isNan = true → sampleCode y = 0) ∧
  (∀ y : Flt, y.isNan = false → ∃ (neg : Bool) (mag : Nat),
    (clamp y (fltLit 1).neg (fltLit 1)).mul (fltLit 32767) = .fin neg mag ∧
    2 * |sampleCode y * 2 ^ 149 - signedMag neg mag| ≤ 2 ^ 149 ∧
    (2 * |sampleCode y * 2 ^ 149 - signedMag neg mag| = 2 ^ 149 → sampleCode y % 2 = 0)) ∧
  (∀ y : Flt, ∃ a b : BitVec 16, conv .s16 y = .w16 a ∧ conv .u16 y = .w16 b ∧
    a.toInt = sampleCode y ∧ (b.toNat : Int) = sampleCode y + 32768) ∧
  (∀ y : Flt, -32767 ≤ sampleCode y ∧ sampleCode y ≤ 32767 ∧
    conv .s16 y ≠ .w16 0x8000#16 ∧ conv .u16 y ≠ .w16 0x0000#16) ∧
  (∀ y : Flt, y = .nan ∨ y = .fin false 0 ∨ y = .fin true 0 →
    conv .s16 y = .w16 0x0000#16 ∧ conv .u16 y = .w16 0x8000#16) ∧
  conv .s16 (f32 0x3E800000#32) = .w16 0x2000#16 ∧ conv .s16 (f32 0x3F000000#32) = .w16 0x4000#16 ∧
  conv .s16 (f32 0x3FC00000#32) = .w16 0x7FFF#16 ∧ conv .s16 (f32 0xBF800000#32) = .w16 0x8001#16 ∧
  conv .u16 (f32 0xBF800000#32) = .w16 0x0001#16

/-- R10. clamp gives lo for a NaN and below lo, hi above hi, and between them the value; and the rule's example. That a value
equal to a bound gives that bound's own literal, by R10's second sentence, where its first would give the value itself
(−0.0 at the bound 0.0), is the model's reading of the two (log entry 4); the result is one of the two where the bounds are
equal in value. -/
def Obligations.ClampRule : Prop :=
  (∀ x lo hi : Flt, lo.le hi = true →
    (x.isNan = true → clamp x lo hi = lo) ∧
    (x.lt lo = true → clamp x lo hi = lo) ∧
    (hi.lt x = true → clamp x lo hi = hi) ∧
    (lo.le x = true → x.le hi = true → (clamp x lo hi).eqv x = true ∧
      (lo.lt x = true → x.lt hi = true → clamp x lo hi = x)) ∧
    ((clamp x lo hi).eqv lo = true → clamp x lo hi = lo ∨ (clamp x lo hi = hi ∧ hi.eqv lo = true)) ∧
    ((clamp x lo hi).eqv hi = true → clamp x lo hi = hi ∨ (clamp x lo hi = lo ∧ lo.eqv hi = true))) ∧
  clamp (f32 0xBE800000#32) (f32 0#32) (f32 0x3F800000#32) = fltZero

/-- R36, R37. The effective gain and the effective attack duration: where their registers stand, what they act as, and their
reset values. -/
def Obligations.EffectiveGainAndDuration : Prop :=
  (∀ w : Word, (f32 w).isFinite = false → gainEff w = fltZero) ∧
  (∀ w : Word, (f32 w).isFinite = true → gainEff w = f32 w) ∧
  (∀ w : Word, (f32 w).isNan = true → durEff w = durEps) ∧
  (∀ w : Word, (f32 w).lt durEps = true → durEff w = durEps) ∧
  (∀ w : Word, durEps.le (f32 w) = true → durEff w = f32 w) ∧
  bits durEps = 0x35800000#32 ∧
  regAt 0x048#12 = .cfg .masterGain ∧ State.reset.readWord 0x048#12 = 0x3F800000#32 ∧
  regAt 0x04C#12 = .cfg .attack ∧ State.reset.readWord 0x04C#12 = 0#32 ∧ durEff 0#32 = durEps

/-- R63. The serialised stream: the left word before the right, each with its least significant byte first. -/
def Obligations.StreamIsLittleEndian : Prop :=
  (∀ a b : Word, ({ left := .w32 a, right := .w32 b } : Frame).bytes.length = 8 ∧
    ({ left := .w32 a, right := .w32 b } : Frame).bytes.foldr (fun x n => x.toNat + 256 * n) 0 =
      a.toNat + 2 ^ 32 * b.toNat) ∧
  (∀ a b : BitVec 16, ({ left := .w16 a, right := .w16 b } : Frame).bytes.length = 4 ∧
    ({ left := .w16 a, right := .w16 b } : Frame).bytes.foldr (fun x n => x.toNat + 256 * n) 0 =
      a.toNat + 2 ^ 16 * b.toNat)

/-! ### Bus transactions -/

/-- R66. A legal read completes in every state, returns the word of that state and changes nothing; a second read with no step
between returns the same word. -/
def Obligations.ReadsHaveNoSideEffects : Prop :=
  ∀ (s : State) (off : BitVec 12), off.toNat % 4 = 0 →
    exec (.busRead .b4 off) s = .next { s with hostReads := s.hostReads ++ [s.readWord off] } ∧
    ∀ t, exec (.busRead .b4 off) s = .next t →
      t.readWord off = s.readWord off ∧
      exec (.busRead .b4 off) t = .next { s with hostReads := s.hostReads ++ [s.readWord off, s.readWord off] }

/-- R170, R23–R33, R46. What the control, status and configuration offsets and the reserved ones read. -/
def Obligations.RegisterMapReads : Prop :=
  ∀ s : State,
    s.readWord 0x000#12 = 0x53480007#32 ∧ s.readWord 0x004#12 = 0#32 ∧
    (s.readWord 0x008#12).getLsbD 0 = decide (s.runState = .running) ∧
    (s.readWord 0x008#12).getLsbD 1 = decide (s.runState = .halted) ∧
    (s.readWord 0x008#12).getLsbD 2 = decide (s.fifo = []) ∧
    (s.readWord 0x008#12).getLsbD 3 = decide (s.fifo.length = s.params.evqDepth) ∧
    (s.readWord 0x008#12).extractLsb' 4 12 = 0#12 ∧
    (s.readWord 0x008#12).extractLsb' 16 16 = BitVec.ofNat 16 s.fifo.length ∧
    s.readWord 0x00C#12 = s.errs.err.setWidth 32 ∧
    s.readWord 0x010#12 = s.errs.dropCount ∧ s.readWord 0x014#12 = s.errs.badCount ∧
    s.readWord 0x01C#12 ++ s.readWord 0x018#12 = s.timer ∧
    (s.readWord 0x020#12).toNat = s.cursor.toNat ∧ (s.readWord 0x024#12).toNat = s.pool.toNat ∧
    s.readWord 0x028#12 = s.evData ∧ s.readWord 0x02C#12 = 0#32 ∧
    s.readWord 0x030#12 = s.errs.badCmd ∧ (s.readWord 0x034#12).toNat = s.errs.badReason.toNat ∧
    s.readWord 0x038#12 = s.errs.busInfo ∧
    s.readWord 0x040#12 = s.cfg.sampleRate ∧ s.readWord 0x044#12 = s.cfg.voices ∧
    s.readWord 0x048#12 = s.cfg.masterGain ∧ s.readWord 0x04C#12 = s.cfg.attack ∧
    s.readWord 0x050#12 = s.cfg.decay ∧ s.readWord 0x054#12 = s.cfg.sustain ∧
    s.readWord 0x058#12 = s.cfg.release ∧ s.readWord 0x05C#12 = s.cfg.corners ∧
    s.readWord 0x060#12 = s.cfg.lfoRate ∧ s.readWord 0x064#12 = s.cfg.lfoDepth ∧
    (s.readWord 0x068#12 = 0#32 ↔ s.cfg.waveSel = .polygon) ∧ (s.readWord 0x068#12 = 1#32 ↔ s.cfg.waveSel = .circle) ∧
    (s.readWord 0x06C#12 = 0#32 ↔ s.cfg.outFmt = .f32) ∧ (s.readWord 0x06C#12 = 1#32 ↔ s.cfg.outFmt = .s16) ∧
    (s.readWord 0x06C#12 = 2#32 ↔ s.cfg.outFmt = .u16) ∧
    (∀ n : Nat, n < 128 → s.readWord (BitVec.ofNat 12 (0x800 + 4 * n)) = s.freq.getD n 0#32) ∧
    (∀ off : BitVec 12, off.toNat = 0x03C ∨ (0x070 ≤ off.toNat ∧ off.toNat ≤ 0x3FC) ∨ 0xA00 ≤ off.toNat →
      off.toNat % 4 = 0 → s.readWord off = 0#32)

/-- R48, R49, R179, R46. The words of voice window v below MAX_VOICES, and zero from MAX_VOICES on. -/
def Obligations.VoiceWindowReads : Prop :=
  ∀ (s : State) (v : Nat), v < 32 →
    let base := 0x400 + 0x20 * v
    let x := s.voiceAt v
    let rd := fun k : Nat => s.readWord (BitVec.ofNat 12 (base + k))
    (v < s.params.maxVoices →
      (rd 0x00).toNat = x.env.code.toNat + 4 * x.noteValid.toNat +
        8 * (decide (x.env ≠ .bypass) && (envLevel s.cfg x s.timer).eqv fltZero).toNat +
        256 * x.note.toNat + 65536 * (decide (v < s.pool.toNat)).toNat ∧
      rd 0x04 = x.level0 ∧ rd 0x0C ++ rd 0x08 = x.start ∧ rd 0x10 = x.vel ∧ rd 0x18 ++ rd 0x14 = x.lfo ∧
      rd 0x1C = bits (envLevel s.cfg x s.timer)) ∧
    (s.params.maxVoices ≤ v → ∀ k < 8, rd (4 * k) = 0#32)

/-- R172, R195, R64. An access of another width than 4, or at an offset that is no multiple of 4, completes with ERR.BUS and
BUS_INFO recorded; the read returns 0, and nothing else changes. -/
def Obligations.IllegalAccessIsOnlyRecorded : Prop :=
  ∀ (s : State) (size : BusSize) (off : BitVec 12) (wdata : BitVec 64), ¬(size.bytes = 4 ∧ off.toNat % 4 = 0) →
    ∃ r w : ErrRegs,
      exec (.busRead size off) s = .next { s with errs := r, hostReads := s.hostReads ++ [0#32] } ∧
      exec (.busWrite size off wdata) s = .next { s with errs := w } ∧
      r = { s.errs with err := s.errs.err ||| 8#5, busInfo := r.busInfo } ∧
      w = { s.errs with err := s.errs.err ||| 8#5, busInfo := w.busInfo } ∧
      r.busInfo.toNat = off.toNat + 65536 * size.bytes ∧
      w.busInfo.toNat = off.toNat + 4096 + 65536 * size.bytes

/-- R173. START in CONFIG latches POOL from VOICES and sets RUN; in another run state, or with bit 0 clear, a write to CTRL
without bit 1 has no effect. -/
def Obligations.StartLatchesThePool : Prop :=
  ∀ (s : State) (wdata : BitVec 64), s.params.Legal → wdata.getLsbD 1 = false →
    (wdata.getLsbD 0 = true → s.runState = .config →
      ∃ t, exec (.busWrite .b4 0x004#12 wdata) s = .next t ∧ t.runState = .running ∧
        t.pool.toNat = (if s.cfg.voices.toNat = 0 ∨ s.params.maxVoices < s.cfg.voices.toNat then s.params.maxVoices
          else s.cfg.voices.toNat) ∧
        t = { s with pool := t.pool, runState := .running }) ∧
    (wdata.getLsbD 0 = false ∨ s.runState ≠ .config → exec (.busWrite .b4 0x004#12 wdata) s = .next s)

/-- R174, R211, R56. A write to CTRL with bit 1 set, whatever bit 0 holds and in every run state, gives every piece of the
block's state its reset value; the streams already delivered and the frames still owed are not the block's. The reset
input does the same. -/
def Obligations.SoftResetIsReset : Prop :=
  ∀ (s : State) (wdata : BitVec 64), wdata.getLsbD 1 = true →
    ∃ t, exec (.busWrite .b4 0x004#12 wdata) s = .next t ∧
      (∀ rest, step { s with inputs := .reset :: rest } = .next { t with inputs := rest }) ∧
      t.params = s.params ∧ t.inputs = s.inputs ∧ t.framesLeft = s.framesLeft ∧
      t.sinkFrames = s.sinkFrames ∧ t.hostReads = s.hostReads ∧
      t.runState = .config ∧ t.faultMark = false ∧ t.fifo = [] ∧
      t.errs = { err := 0#5, dropCount := 0#32, badCount := 0#32, badCmd := 0#32, badReason := 0#3, busInfo := 0#32 } ∧
      t.timer = 0#64 ∧ t.cursor = 0#5 ∧ t.pool = 0#6 ∧ t.evData = 0#32 ∧
      t.cfg = {
        sampleRate := 48000#32, voices := 0#32, masterGain := 0x3F800000#32, attack := 0#32, decay := 0#32,
        sustain := 0x3F800000#32, release := 0#32, corners := 0x40800000#32, lfoRate := 0#32, lfoDepth := 0#32,
        waveSel := .polygon, outFmt := .f32 } ∧
      t.freq = freqResetTable ∧
      t.voices.length = s.params.maxVoices ∧
      (∀ x ∈ t.voices, x = {
        env := .off, level0 := 0#32, start := 0xFFFFFFFFFFFFFFFF#64, note := 0#7,
        noteValid := false, vel := 0#32, lfo := 0#64 })

/-- R51. Each of the 128 reset frequencies is the binary32 value nearest to 440 × 2^((n − 69)/12) Hz: with m the value and u
its last place, both in units of 2^-149, (m ± u/2)^12 stand on either side of 440^12 × 2^(n − 69) in those units. -/
def Obligations.ResetFrequenciesAreEquallyTempered : Prop :=
  State.reset.freq.length = 128 ∧
  ∀ n, n < 128 → ∃ m, f32 (State.reset.freq.getD n 0#32) = .fin false m ∧
    (2 * m - 2 ^ ulpExp m) ^ 12 * 2 ^ 69 ≤ 440 ^ 12 * 2 ^ n * (2 ^ 150) ^ 12 ∧
    440 ^ 12 * 2 ^ n * (2 ^ 150) ^ 12 ≤ (2 * m + 2 ^ ulpExp m) ^ 12 * 2 ^ 69

/-- R175. Writing ERR clears exactly the flags written with 1, in every run state, and changes nothing else. -/
def Obligations.ErrWriteClearsFlags : Prop :=
  ∀ (s : State) (wdata : BitVec 64), ∃ t, exec (.busWrite .b4 0x00C#12 wdata) s = .next t ∧
    (∀ i, i < 5 → t.errs.err.getLsbD i = (s.errs.err.getLsbD i && !wdata.getLsbD i)) ∧
    t = { s with errs := { s.errs with err := t.errs.err } }

/-- R176, R44, R45. An unlocked write to a configuration register completes and stores: all 32 bits in ten of them, bit 0 in
WAVE_SEL, bits [1:0] in OUT_FMT but for 3, which stores nothing. Nothing else changes. -/
def Obligations.UnlockedConfigWriteStores : Prop :=
  ∀ (s : State) (wdata : BitVec 64), s.runState ≠ .running →
    let w := wdata.setWidth 32
    exec (.busWrite .b4 0x040#12 wdata) s = .next { s with cfg := { s.cfg with sampleRate := w } } ∧
    exec (.busWrite .b4 0x044#12 wdata) s = .next { s with cfg := { s.cfg with voices := w } } ∧
    exec (.busWrite .b4 0x048#12 wdata) s = .next { s with cfg := { s.cfg with masterGain := w } } ∧
    exec (.busWrite .b4 0x04C#12 wdata) s = .next { s with cfg := { s.cfg with attack := w } } ∧
    exec (.busWrite .b4 0x050#12 wdata) s = .next { s with cfg := { s.cfg with decay := w } } ∧
    exec (.busWrite .b4 0x054#12 wdata) s = .next { s with cfg := { s.cfg with sustain := w } } ∧
    exec (.busWrite .b4 0x058#12 wdata) s = .next { s with cfg := { s.cfg with release := w } } ∧
    exec (.busWrite .b4 0x05C#12 wdata) s = .next { s with cfg := { s.cfg with corners := w } } ∧
    exec (.busWrite .b4 0x060#12 wdata) s = .next { s with cfg := { s.cfg with lfoRate := w } } ∧
    exec (.busWrite .b4 0x064#12 wdata) s = .next { s with cfg := { s.cfg with lfoDepth := w } } ∧
    exec (.busWrite .b4 0x068#12 wdata) s =
      .next { s with cfg := { s.cfg with waveSel := if wdata.getLsbD 0 then .circle else .polygon } } ∧
    (wdata.toNat % 4 = 0 → exec (.busWrite .b4 0x06C#12 wdata) s = .next { s with cfg := { s.cfg with outFmt := .f32 } }) ∧
    (wdata.toNat % 4 = 1 → exec (.busWrite .b4 0x06C#12 wdata) s = .next { s with cfg := { s.cfg with outFmt := .s16 } }) ∧
    (wdata.toNat % 4 = 2 → exec (.busWrite .b4 0x06C#12 wdata) s = .next { s with cfg := { s.cfg with outFmt := .u16 } }) ∧
    (wdata.toNat % 4 = 3 → exec (.busWrite .b4 0x06C#12 wdata) s = .next s)

/-- R177. An unlocked FREQ write completes, stores all 32 bits in the entry, and changes nothing else. -/
def Obligations.UnlockedFreqWriteStores : Prop :=
  ∀ (s : State) (n : Nat) (wdata : BitVec 64), n < 128 → s.runState ≠ .running → s.freq.length = 128 →
    ∃ t, exec (.busWrite .b4 (BitVec.ofNat 12 (0x800 + 4 * n)) wdata) s = .next t ∧
      t.freq.getD n 0#32 = wdata.setWidth 32 ∧ (∀ k, k ≠ n → t.freq.getD k 0#32 = s.freq.getD k 0#32) ∧
      t = { s with freq := t.freq }

/-- R194, R176, R177. While RUN = 1 a write to a configuration register or to FREQ sets ERR.CFG_LOCKED and stores nothing. -/
def Obligations.LockedWriteIsOnlyFlagged : Prop :=
  ∀ (s : State) (off : BitVec 12) (wdata : BitVec 64), s.runState = .running → off.toNat % 4 = 0 →
    (0x040 ≤ off.toNat ∧ off.toNat ≤ 0x06C) ∨ (0x800 ≤ off.toNat ∧ off.toNat ≤ 0x9FC) →
    exec (.busWrite .b4 off wdata) s = .next { s with errs := { s.errs with err := s.errs.err ||| 4#5 } }

/-- R178, R32. A write to EV_DATA stores all 32 bits in every run state and has no other effect; a read returns them. -/
def Obligations.EvDataWriteStores : Prop :=
  ∀ (s : State) (wdata : BitVec 64),
    exec (.busWrite .b4 0x028#12 wdata) s = .next { s with evData := wdata.setWidth 32 } ∧
    ({ s with evData := wdata.setWidth 32 } : State).readWord 0x028#12 = wdata.setWidth 32

/-- R150, R192. A write to EV_CMD pushes the pair (word, EV_DATA) at the tail in every run state; with the FIFO full the new
entry is dropped, counted (staying at 2^32 − 1) and flagged. Nothing else changes. -/
def Obligations.PushAppendsOrDropsNewest : Prop :=
  ∀ (s : State) (wdata : BitVec 64),
    (s.fifo.length < s.params.evqDepth →
      exec (.busWrite .b4 0x02C#12 wdata) s =
        .next { s with fifo := s.fifo ++ [{ cmd := wdata.setWidth 32, data := s.evData }] }) ∧
    (s.params.evqDepth ≤ s.fifo.length →
      exec (.busWrite .b4 0x02C#12 wdata) s =
        .next { s with errs := { s.errs with
          err := s.errs.err ||| 1#5,
          dropCount := BitVec.ofNat 32 (min (s.errs.dropCount.toNat + 1) (2 ^ 32 - 1)) } })

/-- R180, R46. A write to a read-only register, a voice window or a reserved offset has no effect and sets no error. -/
def Obligations.ReadOnlyWritesAreIgnored : Prop :=
  ∀ (s : State) (off : BitVec 12) (wdata : BitVec 64), off.toNat % 4 = 0 →
    (off.toNat ∈ [0x000, 0x008, 0x010, 0x014, 0x018, 0x01C, 0x020, 0x024, 0x030, 0x034, 0x038, 0x03C] ∨
      (0x070 ≤ off.toNat ∧ off.toNat < 0x800) ∨ 0xA00 ≤ off.toNat) →
    exec (.busWrite .b4 off wdata) s = .next s

/-- R47: only the Engine writes voice fields. A Host write that is not a reset completes and leaves every voice with its LFO
counter, CURSOR, TIMER and the streams as they are; it takes nothing out of the FIFO. -/
def Obligations.HostWritesLeaveVoicesAlone : Prop :=
  ∀ (s : State) (size : BusSize) (off : BitVec 12) (wdata : BitVec 64),
    ¬(size = .b4 ∧ off = 0x004#12 ∧ wdata.getLsbD 1 = true) →
    ∃ t, exec (.busWrite size off wdata) s = .next t ∧
      t.voices = s.voices ∧ t.cursor = s.cursor ∧ t.timer = s.timer ∧ t.faultMark = s.faultMark ∧
      t.params = s.params ∧ t.inputs = s.inputs ∧ t.framesLeft = s.framesLeft ∧
      t.sinkFrames = s.sinkFrames ∧ t.hostReads = s.hostReads ∧ s.fifo <+: t.fifo

/-! ### Frames, time and the run states -/

/-- R154, R155, R157, R100, R105. A frame step of a running block whose counter is not exhausted emits the frame computed at
TIMER, advances TIMER and the LFO counter of every pool voice by one, and changes nothing else. The frame: from (+0.0, +0.0),
for each pool voice in ascending order, level × VEL times each component of the oscillator output is added, the first
component left and the second right; then each sum times the effective gain is converted. The oscillator output is SINCOS of
the phase in CIRCLE and the polygon with the voice's corner count in POLYGON (R135). And R154's example, in every state that
meets its premises. Of the waiting inputs a frame step takes only the Engine's own turn: the model's order, log entry 6. -/
def Obligations.FrameStepAdvancesTheCounters : Prop :=
  (∀ s : State, s.framesNext = true → s.runState = .running → s.timer.toNat < 2 ^ 64 - 2 →
    ∃ t, step s = .next t ∧
      t.sinkFrames = s.sinkFrames ++ [s.renderedFrame] ∧ t.timer.toNat = s.timer.toNat + 1 ∧
      t.framesLeft + 1 = s.framesLeft ∧
      (∀ v, v < s.pool.toNat → v < s.voices.length →
        t.voiceAt v = { s.voiceAt v with lfo := (s.voiceAt v).lfo + 1#64 }) ∧
      (∀ v, ¬(v < s.pool.toNat ∧ v < s.voices.length) → t.voiceAt v = s.voiceAt v) ∧
      (∀ rest, s.inputs = .engine :: rest → t.inputs = rest) ∧
      ((∀ rest, s.inputs ≠ .engine :: rest) → t.inputs = s.inputs) ∧
      t = { s with
        sinkFrames := t.sinkFrames, timer := t.timer, framesLeft := t.framesLeft, voices := t.voices,
        inputs := t.inputs }) ∧
  (∀ s : State, s.pool.toNat ≤ s.voices.length → ∃ o acc : Nat → Flt × Flt,
    (∀ v < s.pool.toNat,
      let x := s.voiceAt v
      let p := phase s.cfg.sampleRate (f32 (s.freq.getD x.note.toNat 0#32)) s.timer
      (s.cfg.waveSel = .circle → o v = sincos p) ∧
      (s.cfg.waveSel = .polygon → o v = polygon (cornerCount s.cfg x) p)) ∧
    acc 0 = (fltZero, fltZero) ∧
    (∀ v < s.pool.toNat,
      let g := (envLevel s.cfg (s.voiceAt v) s.timer).mul (f32 (s.voiceAt v).vel)
      acc (v + 1) = ((acc v).1.add (g.mul (o v).1), (acc v).2.add (g.mul (o v).2))) ∧
    s.renderedFrame.left = conv s.cfg.outFmt ((acc s.pool.toNat).1.mul (gainEff s.cfg.masterGain)) ∧
    s.renderedFrame.right = conv s.cfg.outFmt ((acc s.pool.toNat).2.mul (gainEff s.cfg.masterGain))) ∧
  (∀ s : State, s.framesNext = true → s.runState = .running → s.pool = 1#6 → s.voices ≠ [] →
    (s.voiceAt 0).env = .bypass → (s.voiceAt 0).vel = 0x3F000000#32 → s.cfg.waveSel = .circle →
    s.cfg.sampleRate = 4#32 → s.freq.getD (s.voiceAt 0).note.toNat 0#32 = 0x3F800000#32 → s.timer = 1#64 →
    s.cfg.masterGain = 0x3F800000#32 → s.cfg.outFmt = .f32 →
    ∃ t, step s = .next t ∧ t.timer = 2#64 ∧
      t.sinkFrames = s.sinkFrames ++ [{ left := .w32 0x3F000000#32, right := .w32 0x00000000#32 }])

/-- R104, R196. The frame at TIMER = 2^64 − 2 is emitted; then TIMER and the LFO counters stay, TIMER_EXH is flagged, the
block is HALTED and the fault mark set. That this step answers a next state with a mark, where R16 and R196 call it a fault
outcome, is the model's choice (log entry 7), and so is the order it takes the Engine's turn from (log entry 6). -/
def Obligations.ExhaustedCounterHalts : Prop :=
  ∀ s : State, s.framesNext = true → s.runState = .running → s.timer = 0xFFFFFFFFFFFFFFFE#64 →
    ∃ t, step s = .next t ∧
      t.sinkFrames = s.sinkFrames ++ [s.renderedFrame] ∧ t.runState = .halted ∧ t.Faulted ∧
      t.errs = { s.errs with err := s.errs.err ||| 16#5 } ∧ t.framesLeft + 1 = s.framesLeft ∧
      (∀ rest, s.inputs = .engine :: rest → t.inputs = rest) ∧
      ((∀ rest, s.inputs ≠ .engine :: rest) → t.inputs = s.inputs) ∧
      t = { s with
        sinkFrames := t.sinkFrames, errs := t.errs, runState := .halted, faultMark := true,
        framesLeft := t.framesLeft, inputs := t.inputs }

/-- R158. While RUN = 0 a frame step emits `(conv(+0.0), conv(+0.0))` in the format of the moment and a drain pops nothing;
neither changes any state of the block. Of the waiting inputs a frame step takes only the Engine's own turn: the model's
order, log entry 6. -/
def Obligations.SilenceWhileNotRunning : Prop :=
  ∀ s : State, s.runState ≠ .running →
    s.drain = s ∧
    (s.framesNext = true → ∃ t, step s = .next t ∧
      t.sinkFrames = s.sinkFrames ++
        [{ left := conv s.cfg.outFmt (.fin false 0), right := conv s.cfg.outFmt (.fin false 0) }] ∧
      t.framesLeft + 1 = s.framesLeft ∧
      (∀ rest, s.inputs = .engine :: rest → t.inputs = rest) ∧
      ((∀ rest, s.inputs ≠ .engine :: rest) → t.inputs = s.inputs) ∧
      t = { s with sinkFrames := t.sinkFrames, framesLeft := t.framesLeft, inputs := t.inputs })

/-- R21, R53, R106 (a). TIMER moves by frame steps only: every step leaves it, or is a frame step of a running block and
adds 1, or is a reset and makes it 0. So it never decreases between resets. -/
def Obligations.TimerMovesOnlyByFrames : Prop :=
  ∀ s s' : State, s.timer ≠ 0xFFFFFFFFFFFFFFFF#64 → step s = .next s' →
    (s.resetsNext = true ∧ s'.timer = 0#64) ∨
    (s.resetsNext = false ∧ s.timer.toNat ≤ s'.timer.toNat ∧
      (s'.timer = s.timer ∨
        (s.framesNext = true ∧ s.runState = .running ∧ s'.timer.toNat = s.timer.toNat + 1)))

/-- R74, R216. In a running block no step changes a configuration register, FREQ or POOL, but a reset. -/
def Obligations.ConfigurationIsLockedWhileRunning : Prop :=
  ∀ s s' : State, s.runState = .running → step s = .next s' → s.resetsNext = false →
    s'.cfg = s.cfg ∧ s'.freq = s.freq ∧ s'.pool = s.pool

/-- R54, R173. The run states: a step leaves CONFIG only by START, a legal write to CTRL with bit 0 set and bit 1 clear
(descriptor 0xA004), which latches POOL; RUNNING only by the halt of a frame step or a reset; HALTED only by a reset. -/
def Obligations.RunStatesChangeAsListed : Prop :=
  ∀ s s' : State, step s = .next s' →
    s'.runState = s.runState ∨
    (s.runState = .config ∧ s'.runState = .running ∧
      s'.pool = BitVec.ofNat 6 (poolFor s.cfg.voices s.params.maxVoices) ∧
      ∃ wdata rest, s.inputs = .bus 0xA004#16 wdata :: rest ∧
        wdata.getLsbD 0 = true ∧ wdata.getLsbD 1 = false) ∨
    (s.runState = .running ∧ s'.runState = .halted ∧ s.framesNext = true ∧ s.timer = 0xFFFFFFFFFFFFFFFE#64) ∨
    (s.resetsNext = true ∧ s'.runState = .config)

/-- R16, R87. Every operation has a next state, and so has every step but one on a bus descriptor with SIZE 4–7, which is never
presented. Two of these are the model's choice: that the frame that raises TIMER_EXH, which R16 calls a fault outcome, is a
next state with the fault mark, so that no step faults (log entry 7), and that the descriptor is refused (log entry 8). -/
def Obligations.EveryOperationHasANextState : Prop :=
  (∀ (i : Instr) (s : State), ∃ t, exec i s = .next t) ∧
  (∀ s : State, (∃ t, step s = .next t) ∨
    (step s = .refused .busSizeNeverPresented ∧
      ∃ desc wdata rest, s.inputs = .bus desc wdata :: rest ∧ 4 ≤ (desc.extractLsb' 12 3).toNat))

/-! ### Invariants -/

/-- R6. No step changes the parameters of the machine. -/
def Obligations.ParametersNeverChange : Prop :=
  ∀ s s' : State, step s = .next s' → s'.params = s.params

/-- R30, R31, R47, R51, R52. Every step keeps the sizes and the ranges of the state. -/
def Obligations.ShapeIsKept : Prop :=
  ∀ s s' : State, s.Shape → step s = .next s' → s'.Shape

/-- R106, R53, R102. Every step keeps TIMER off the sentinel, every START not after TIMER, and every LFO counter not ahead
of it. -/
def Obligations.CountersStayInOrder : Prop :=
  ∀ s s' : State, s.CountersInOrder → step s = .next s' → s'.CountersInOrder

/-- R146 (a), R50. Every step keeps the notes of the pool distinct and the voices outside it at their reset values. -/
def Obligations.NotesStayDistinct : Prop :=
  ∀ s s' : State, s.Shape ∧ s.DormantOutsidePool ∧ s.NotesDistinct → step s = .next s' →
    s'.DormantOutsidePool ∧ s'.NotesDistinct

/-- R196, R55. Every step keeps the fault mark standing exactly in HALTED, and while it stands no step but a reset clears it. -/
def Obligations.FaultMarkMeansHalted : Prop :=
  ∀ s s' : State, s.MarkIffHalted → step s = .next s' →
    s'.MarkIffHalted ∧ (s.Faulted → s.resetsNext = false → s'.Faulted)

/-- The invariants hold at reset, for every legal choice of the parameters. -/
def Obligations.InvariantsHoldAtReset : Prop :=
  ∀ p : Params, p.Legal →
    (State.initial p).Shape ∧ (State.initial p).CountersInOrder ∧ (State.initial p).DormantOutsidePool ∧
    (State.initial p).NotesDistinct ∧ (State.initial p).LevelsInUnit ∧ (State.initial p).MarkIffHalted
end

