-- ==== Sys2Proof/Laws/Encoding.lean ====
section
/-! SUPPORT. The fields of the CMD word (R81, R83) and of the bus descriptor (R87): a word put together from its fields gives
them back. -/

namespace Sys2Proof

theorem append_toNat {m n : Nat} (x : BitVec m) (y : BitVec n) : (x ++ y).toNat = x.toNat * 2 ^ n + y.toNat := by
  rw [BitVec.toNat_append, Nat.shiftLeft_eq, Nat.mul_comm, Nat.two_pow_add_eq_or_of_lt y.isLt]

/-- The CMD word with the given fields, as a number. -/
theorem cmd_toNat (op arg : BitVec 8) (rsv : BitVec 16) :
    (op ++ rsv ++ arg).toNat = op.toNat * 2 ^ 24 + rsv.toNat * 2 ^ 8 + arg.toNat := by
  rw [append_toNat, append_toNat]
  ring

theorem cmdOp_append (op arg : BitVec 8) (rsv : BitVec 16) : cmdOp (op ++ rsv ++ arg) = op := by
  apply BitVec.eq_of_toNat_eq
  have h := cmd_toNat op arg rsv
  have h1 := op.isLt
  have h2 := rsv.isLt
  have h3 := arg.isLt
  simp only [cmdOp, BitVec.extractLsb'_toNat, Nat.shiftRight_eq_div_pow]
  omega

theorem cmdRsv_append (op arg : BitVec 8) (rsv : BitVec 16) : cmdRsv (op ++ rsv ++ arg) = rsv := by
  apply BitVec.eq_of_toNat_eq
  have h := cmd_toNat op arg rsv
  have h2 := rsv.isLt
  have h3 := arg.isLt
  simp only [cmdRsv, BitVec.extractLsb'_toNat, Nat.shiftRight_eq_div_pow]
  omega

theorem cmdArg_append (op arg : BitVec 8) (rsv : BitVec 16) : cmdArg (op ++ rsv ++ arg) = arg := by
  apply BitVec.eq_of_toNat_eq
  have h := cmd_toNat op arg rsv
  have h3 := arg.isLt
  simp only [cmdArg, BitVec.extractLsb'_toNat, Nat.shiftRight_eq_div_pow]
  omega

theorem cmdNote_append (op arg : BitVec 8) (rsv : BitVec 16) :
    cmdNote (op ++ rsv ++ arg) = BitVec.ofNat 7 arg.toNat := by
  apply BitVec.eq_of_toNat_eq
  have h := cmd_toNat op arg rsv
  have h3 := arg.isLt
  simp only [cmdNote, BitVec.extractLsb'_toNat, Nat.shiftRight_eq_div_pow, BitVec.toNat_ofNat]
  omega

/-- A CMD word is its three fields. -/
theorem cmd_of_fields (cmd : Word) : cmdOp cmd ++ cmdRsv cmd ++ cmdArg cmd = cmd := by
  apply BitVec.eq_of_toNat_eq
  refine (cmd_toNat _ _ _).trans ?_
  have h := cmd.isLt
  simp only [cmdArg, cmdRsv, cmdOp, BitVec.extractLsb'_toNat, Nat.shiftRight_eq_div_pow]
  omega

theorem bit7_iff (arg : BitVec 8) : arg.getLsbD 7 = decide (128 ≤ arg.toNat) := by
  revert arg
  decide

/-- The bus descriptor with the given fields, as a number. -/
theorem busDesc_toNat (write : Bool) (size : BusSize) (off : BitVec 12) :
    (busDesc write size off).toNat = write.toNat * 2 ^ 15 + size.code.toNat * 2 ^ 12 + off.toNat := by
  have h1 := append_toNat (BitVec.ofBool write) size.code
  have h2 := append_toNat (BitVec.ofBool write ++ size.code) off
  have h3 : (BitVec.ofBool write).toNat = write.toNat := by cases write <;> rfl
  rw [h1, h3] at h2
  refine Eq.trans h2 ?_
  ring

theorem descOffset_busDesc (write : Bool) (size : BusSize) (off : BitVec 12) :
    descOffset (busDesc write size off) = off := by
  apply BitVec.eq_of_toNat_eq
  have h := busDesc_toNat write size off
  have h3 := off.isLt
  simp only [descOffset, BitVec.extractLsb'_toNat, Nat.shiftRight_eq_div_pow]
  omega

theorem descSize_busDesc (write : Bool) (size : BusSize) (off : BitVec 12) :
    descSize (busDesc write size off) = some size := by
  have h := busDesc_toNat write size off
  have h3 := off.isLt
  have hs : ((busDesc write size off).extractLsb' 12 3).toNat = size.code.toNat := by
    have h2 := size.code.isLt
    simp only [BitVec.extractLsb'_toNat, Nat.shiftRight_eq_div_pow]
    omega
  unfold descSize
  rw [hs]
  cases size <;> rfl

theorem descIsWrite_busDesc (write : Bool) (size : BusSize) (off : BitVec 12) :
    descIsWrite (busDesc write size off) = write := by
  have h := busDesc_toNat write size off
  have h3 := off.isLt
  have h2 := size.code.isLt
  have hb : (busDesc write size off).toNat / 2 ^ 15 = write.toNat := by omega
  rw [descIsWrite, BitVec.getLsbD, Nat.testBit_eq_decide_div_mod_eq, hb]
  cases write <;> rfl

/-- A descriptor is put together from its own fields. -/
theorem desc_of_fields {desc : BitVec 16} {size : BusSize} (h : descSize desc = some size) :
    desc = busDesc (descIsWrite desc) size (descOffset desc) := by
  have hs : (desc.extractLsb' 12 3).toNat = size.code.toNat := by
    unfold descSize at h
    split at h <;> rename_i k <;> first | (cases h; rw [k]; rfl) | simp at h
  have hw : desc.toNat / 2 ^ 15 = (descIsWrite desc).toNat := by
    have hlt := desc.isLt
    rw [descIsWrite, BitVec.getLsbD, Nat.testBit_eq_decide_div_mod_eq]
    rcases (by omega : desc.toNat / 2 ^ 15 = 0 ∨ desc.toNat / 2 ^ 15 = 1) with k | k <;> rw [k] <;> rfl
  have ho : (descOffset desc).toNat = desc.toNat % 2 ^ 12 := by
    simp [descOffset, BitVec.extractLsb'_toNat]
  rw [BitVec.extractLsb'_toNat, Nat.shiftRight_eq_div_pow] at hs
  apply BitVec.eq_of_toNat_eq
  rw [busDesc_toNat, ho, ← hw, ← hs]
  omega

end Sys2Proof
end

