-- ==== Sys2Proof/Laws/Float.lean ====
section
/-! SUPPORT. What rounding does: it is monotone, it keeps every binary32 magnitude, and its error is at most half a
last place. From these, where the results of the float operations lie. -/

namespace Sys2Proof.Laws

/-! ### Round to nearest, ties to even -/

theorem roundHalfEven_mono {n d n' d' : Nat} (hd : 0 < d) (hd' : 0 < d') (h : n * d' ≤ n' * d) :
    roundHalfEven n d ≤ roundHalfEven n' d' := by
  have e1 := Nat.div_add_mod n d
  have e2 := Nat.div_add_mod n' d'
  have r1 := Nat.mod_lt n hd
  have r2 := Nat.mod_lt n' hd'
  unfold roundHalfEven
  generalize n / d = q at *
  generalize n % d = r at *
  generalize n' / d' = q' at *
  generalize n' % d' = r' at *
  subst e1 e2
  have hq : q ≤ q' := by
    by_contra hc
    have : q' + 1 ≤ q := by omega
    have h1 : (q' + 1) * (d * d') ≤ q * (d * d') := Nat.mul_le_mul_right _ this
    have h2 : r' * d < d' * d := Nat.mul_lt_mul_of_pos_right r2 hd
    nlinarith
  rcases Nat.lt_or_ge q q' with hlt | hge
  · simp only
    split_ifs <;> omega
  · obtain rfl : q = q' := by omega
    have hr : r * d' ≤ r' * d := by nlinarith
    simp only
    split_ifs <;> first | omega | exfalso
    · have : 2 * r' * d < d' * d := Nat.mul_lt_mul_of_pos_right ‹_› hd
      have h2 : d * d' ≤ 2 * r * d' := Nat.mul_le_mul_right _ (by omega)
      nlinarith
    · obtain ⟨hr', -⟩ := ‹2 * r' = d' ∧ _›
      have h3 : d * d' ≤ 2 * r * d' := Nat.mul_le_mul_right _ (by omega)
      have h4 : d * d' = 2 * r * d' := by nlinarith
      have : d = 2 * r := Nat.eq_of_mul_eq_mul_right hd' h4
      omega

theorem roundHalfEven_exact {a d : Nat} (hd : 0 < d) : roundHalfEven (a * d) d = a := by
  simp [roundHalfEven, Nat.mul_div_cancel _ hd, hd]

theorem roundHalfEven_le {n d c : Nat} (hd : 0 < d) (h : n ≤ c * d) : roundHalfEven n d ≤ c := by
  have := roundHalfEven_mono (n' := c) (d' := 1) hd one_pos (by simpa using h)
  simpa [roundHalfEven_exact (a := c) one_pos] using
    this.trans_eq (by simpa using roundHalfEven_exact (a := c) one_pos)

theorem le_roundHalfEven {n d c : Nat} (hd : 0 < d) (h : c * d ≤ n) : c ≤ roundHalfEven n d := by
  have := roundHalfEven_mono (n := c) (d := 1) one_pos hd (by simpa using h)
  have e : roundHalfEven c 1 = c := by simpa using roundHalfEven_exact (a := c) one_pos
  omega

/-- Rounding answers a nearest integer, and the even one of two. -/
theorem roundHalfEven_nearest {n d : Nat} (hd : 0 < d) :
    2 * n ≤ 2 * (roundHalfEven n d * d) + d ∧ 2 * (roundHalfEven n d * d) ≤ 2 * n + d ∧
    (2 * n = 2 * (roundHalfEven n d * d) + d ∨ 2 * (roundHalfEven n d * d) = 2 * n + d →
      roundHalfEven n d % 2 = 0) := by
  have e1 := Nat.div_add_mod n d
  have r1 := Nat.mod_lt n hd
  unfold roundHalfEven
  generalize n / d = q at *
  generalize n % d = r at *
  subst e1
  simp only
  have e : (q + 1) * d = d * q + d := by ring
  have e' : q * d = d * q := by ring
  split_ifs with h1 h2
  · rw [e']; omega
  · rw [e']; omega
  · rw [e]; omega

theorem roundHalfEven_error {n d : Nat} (hd : 0 < d) : 2 * (roundHalfEven n d * d) ≤ 2 * n + d :=
  (roundHalfEven_nearest hd).2.1

/-! ### Binary32 magnitudes -/

/-- A magnitude with a significand of 24 bits (2^24 itself is 2^23 one place higher). -/
def Sig (mag : Nat) : Prop := ∃ m k, m ≤ 2 ^ 24 ∧ mag = m * 2 ^ k

theorem sig_zero : Sig 0 := ⟨0, 0, by norm_num, by norm_num⟩

theorem sig_unit : Sig fltUnit := ⟨1, 149, by norm_num, by norm_num [fltUnit]⟩

theorem sig_mul_unit {n : Nat} (h : n ≤ 2 ^ 24) : Sig (n * fltUnit) := ⟨n, 149, h, rfl⟩

theorem ulpExp_dvd {mag : Nat} (h : Sig mag) : 2 ^ ulpExp mag ∣ mag := by
  obtain ⟨m, k, hm, rfl⟩ := h
  rcases Nat.eq_zero_or_pos m with rfl | hpos
  · simp
  rcases Nat.lt_or_ge m (2 ^ 24) with hlt | hge
  · have : ulpExp (m * 2 ^ k) ≤ k := by
      unfold ulpExp
      have h1 : (m * 2 ^ k).log2 < 24 + k := by
        rw [Nat.log2_lt (by positivity), pow_add]
        exact Nat.mul_lt_mul_of_pos_right hlt (by positivity)
      omega
    exact (pow_dvd_pow 2 this).trans (Dvd.intro_left m rfl)
  · obtain rfl : m = 2 ^ 24 := by omega
    have : ulpExp (2 ^ 24 * 2 ^ k) ≤ 24 + k := by
      unfold ulpExp
      rw [← pow_add, Nat.log2_two_pow]
      omega
    rw [← pow_add]
    exact pow_dvd_pow 2 (by rw [pow_add]; exact this)

theorem lt_two_pow_ulpExp (q : Nat) : q < 2 ^ (24 + ulpExp q) := by
  unfold ulpExp
  rcases Nat.eq_zero_or_pos q with rfl | h
  · positivity
  · rw [← Nat.log2_lt (by omega)]
    omega

theorem two_pow_le_of_ulpExp {q : Nat} (h : 0 < ulpExp q) : 2 ^ (23 + ulpExp q) ≤ q := by
  unfold ulpExp at *
  have hq : q ≠ 0 := by rintro rfl; simp at h
  rw [← Nat.le_log2 hq]
  omega

theorem ulpExp_mono {q q' : Nat} (h : q ≤ q') : ulpExp q ≤ ulpExp q' := by
  unfold ulpExp
  rcases Nat.eq_zero_or_pos q with rfl | hpos
  · simp
  · have : q.log2 ≤ q'.log2 := (Nat.le_log2 (by omega)).2 ((Nat.log2_self_le (by omega)).trans h)
    omega

theorem roundMag_sig_le {n d : Nat} (hd : 0 < d) : roundHalfEven n (d * 2 ^ ulpExp (n / d)) ≤ 2 ^ 24 := by
  apply roundHalfEven_le (by positivity)
  have h1 := lt_two_pow_ulpExp (n / d)
  have h2 := (Nat.div_lt_iff_lt_mul hd).1 h1
  rw [pow_add] at h2
  nlinarith

theorem le_roundMag_sig {n d : Nat} (hd : 0 < d) (h : 0 < ulpExp (n / d)) :
    2 ^ 23 ≤ roundHalfEven n (d * 2 ^ ulpExp (n / d)) := by
  apply le_roundHalfEven (by positivity)
  have h1 := two_pow_le_of_ulpExp h
  have h2 := (Nat.le_div_iff_mul_le hd).1 h1
  rw [pow_add] at h2
  nlinarith

theorem roundMag_mono {n d n' d' : Nat} (hd : 0 < d) (hd' : 0 < d') (h : n * d' ≤ n' * d) :
    roundMag n d ≤ roundMag n' d' := by
  have hq : n / d ≤ n' / d' := by
    rw [Nat.le_div_iff_mul_le hd']
    have h1 : n / d * d ≤ n := Nat.div_mul_le_self n d
    have h2 : n / d * d' * d ≤ n' * d := by nlinarith
    exact Nat.le_of_mul_le_mul_right h2 hd
  have hk := ulpExp_mono hq
  unfold roundMag
  simp only
  rcases Nat.lt_or_ge (ulpExp (n / d)) (ulpExp (n' / d')) with hlt | hge
  · have h1 := roundMag_sig_le (n := n) hd
    have h2 := le_roundMag_sig (n := n') hd' (by omega)
    calc _ ≤ 2 ^ 24 * 2 ^ ulpExp (n / d) := Nat.mul_le_mul_right _ h1
      _ = 2 ^ 23 * 2 ^ (ulpExp (n / d) + 1) := by rw [pow_succ]; ring
      _ ≤ 2 ^ 23 * 2 ^ ulpExp (n' / d') := Nat.mul_le_mul_left _ (Nat.pow_le_pow_right (by omega) hlt)
      _ ≤ _ := Nat.mul_le_mul_right _ h2
  · obtain e : ulpExp (n / d) = ulpExp (n' / d') := by omega
    rw [e]
    refine Nat.mul_le_mul_right _ (roundHalfEven_mono (by positivity) (by positivity) ?_)
    calc n * (d' * 2 ^ ulpExp (n' / d')) = n * d' * 2 ^ ulpExp (n' / d') := by ring
      _ ≤ n' * d * 2 ^ ulpExp (n' / d') := Nat.mul_le_mul_right _ h
      _ = _ := by ring

theorem roundMag_exact {b d : Nat} (hd : 0 < d) (hb : Sig b) :
    roundMag (b * d) d = b := by
  unfold roundMag
  simp only
  rw [Nat.mul_div_cancel _ hd]
  obtain ⟨c, hc⟩ := ulpExp_dvd hb
  generalize 2 ^ ulpExp b = e at *
  subst hc
  rcases Nat.eq_zero_or_pos e with rfl | he
  · simp
  have : e * c * d = c * (d * e) := by ring
  rw [this, roundHalfEven_exact (by positivity)]
  ring

theorem roundMag_le {n d b : Nat} (hd : 0 < d) (hb : Sig b) (h : n ≤ b * d) :
    roundMag n d ≤ b := by
  have h1 := roundMag_mono (n' := b * d) (d' := d) hd hd (Nat.mul_le_mul_right _ h)
  rwa [roundMag_exact hd hb] at h1

theorem le_roundMag {n d b : Nat} (hd : 0 < d) (hb : Sig b) (h : b * d ≤ n) :
    b ≤ roundMag n d := by
  have h1 := roundMag_mono (n := b * d) (d := d) hd hd (Nat.mul_le_mul_right _ h)
  rwa [roundMag_exact hd hb] at h1

theorem roundMag_sig {n d : Nat} (hd : 0 < d) : Sig (roundMag n d) :=
  ⟨_, _, roundMag_sig_le hd, rfl⟩

/-- Rounding a value of at most 1.0 adds at most 2^-25. -/
theorem roundMag_error_unit {n : Nat} (h : n ≤ fltUnit) : roundMag n 1 ≤ n + 2 ^ 124 := by
  rcases Nat.lt_or_ge n fltUnit with hlt | hge
  · have hk : ulpExp (n / 1) ≤ 125 := by
      unfold ulpExp
      rcases Nat.eq_zero_or_pos n with rfl | hpos
      · simp
      · have : n.log2 < 149 := (Nat.log2_lt (by omega)).2 hlt
        simp only [Nat.div_one]
        omega
    have he := roundHalfEven_error (n := n) (d := 1 * 2 ^ ulpExp (n / 1)) (by positivity)
    have hp : 2 ^ ulpExp (n / 1) ≤ 2 ^ 125 := Nat.pow_le_pow_right (by omega) hk
    unfold roundMag
    simp only
    rw [one_mul] at he ⊢
    generalize roundHalfEven n (2 ^ ulpExp (n / 1)) * 2 ^ ulpExp (n / 1) = y at *
    generalize 2 ^ ulpExp (n / 1) = u at *
    have : (2 : Nat) ^ 125 = 2 * 2 ^ 124 := by norm_num
    omega
  · obtain rfl : n = fltUnit := by omega
    have := roundMag_exact (b := fltUnit) (d := 1) one_pos sig_unit
    rw [mul_one] at this
    omega

/-- A sum that exceeds 1.0 by at most 2^-25 rounds to at most 1.0. -/
theorem roundMag_le_unit_slack {n : Nat} (h : n ≤ fltUnit + 2 ^ 124) : roundMag n 1 ≤ fltUnit := by
  have h1 := roundMag_mono (n := n) (d := 1) (n' := fltUnit + 2 ^ 124) (d' := 1) one_pos one_pos (by simpa using h)
  have h2 : roundMag (fltUnit + 2 ^ 124) 1 = fltUnit := by decide +kernel
  omega

end Sys2Proof.Laws
end

