-- ==== Sys2Proof/Laws/Values.lean ====
section
/-! SUPPORT. Where the results of the float operations lie: the facts behind R123 and R137. -/

namespace Sys2Proof.Laws

/-- A value whose magnitude, if it is finite, has a 24-bit significand. -/
def Good : Flt → Prop
  | .nan => True
  | .inf _ => True
  | .fin _ m => Sig m

/-- `[0, 1]` in normal form: a zero may carry either sign. -/
def Unit01 (x : Flt) : Prop := ∃ s m, x = .fin s m ∧ m ≤ fltUnit ∧ (s = true → m = 0)

/-- `[−1, 1]` in normal form. -/
def Bip (x : Flt) : Prop := ∃ s m, x = .fin s m ∧ m ≤ fltUnit

theorem fltUnit_pos : 0 < fltUnit := by norm_num [fltUnit]

theorem fltUnit_lt_overflow : fltUnit < fltOverflow := by
  have := fltUnit_pos
  unfold fltOverflow
  omega

theorem fltOverflow_pos : 0 < fltOverflow := lt_trans fltUnit_pos fltUnit_lt_overflow

theorem roundMag_zero {d : Nat} (hd : 0 < d) : roundMag 0 d = 0 := by
  simpa using roundMag_exact (b := 0) hd sig_zero

theorem Unit01.bip {x : Flt} (h : Unit01 x) : Bip x := by
  obtain ⟨s, m, rfl, hm, -⟩ := h
  exact ⟨s, m, rfl, hm⟩

theorem fltLit_eq (n : Nat) : fltLit n = .fin false (n * fltUnit) := rfl

theorem fltLit_one : fltLit 1 = .fin false fltUnit := by rw [fltLit_eq, one_mul]

/-! ### The order -/

theorem place_fin_le_unit {s : Bool} {m : Nat} :
    (Flt.fin s m).le (fltLit 1) = true ↔ signedMag s m ≤ fltUnit := by
  simp [Flt.le, Flt.isNan, Flt.place, fltLit_one, signedMag]

theorem inUnit_iff {x : Flt} : Flt.InUnit x ↔ Unit01 x := by
  have hu := fltUnit_pos
  have ho := fltUnit_lt_overflow
  rcases x with _ | s | ⟨s, m⟩
  · simp [Flt.InUnit, Flt.le, Flt.isNan, Unit01]
  all_goals
    cases s <;> simp [Flt.InUnit, Flt.le, Flt.isNan, Unit01, Flt.place, signedMag, fltZero, fltLit_one]
  all_goals omega

theorem inBipolarUnit_iff {x : Flt} : Flt.InBipolarUnit x ↔ Bip x := by
  have hu := fltUnit_pos
  have ho := fltUnit_lt_overflow
  rcases x with _ | s | ⟨s, m⟩
  · simp [Flt.InBipolarUnit, Flt.le, Flt.isNan, Bip, Flt.neg, fltLit_one]
  all_goals
    cases s <;> simp [Flt.InBipolarUnit, Flt.le, Flt.isNan, Bip, Flt.place, signedMag, Flt.neg, fltLit_one]
  all_goals omega

theorem velocityLegal_iff {w : Word} : velocityLegal w = true ↔ Unit01 (f32 w) := by
  rw [← inUnit_iff]
  simp [velocityLegal, Flt.InUnit]

/-! ### Results of one operation -/

theorem roundFlt_small {s : Bool} {n d : Nat} (h : roundMag n d < fltOverflow) :
    roundFlt s n d = .fin s (roundMag n d) := by
  simp [roundFlt, ofMag, h]

theorem roundFlt_not_nan (s : Bool) (n d : Nat) : (roundFlt s n d).isNan = false := by
  unfold roundFlt ofMag
  split_ifs <;> rfl

theorem good_roundFlt {s : Bool} {n d : Nat} (hd : 0 < d) : Good (roundFlt s n d) := by
  unfold roundFlt ofMag
  split_ifs
  · exact roundMag_sig hd
  · trivial

theorem good_fltLit {n : Nat} (h : n ≤ 2 ^ 24) : Good (fltLit n) := sig_mul_unit h

theorem good_fltZero : Good fltZero := sig_zero

theorem good_add {x y : Flt} : Good (x.add y) := by
  rcases x with _ | s | ⟨s, m⟩ <;> rcases y with _ | s' | ⟨s', m'⟩ <;> simp only [Flt.add] <;> try trivial
  · split_ifs <;> trivial
  · split_ifs
    · exact sig_zero
    · exact good_roundFlt one_pos

theorem good_mul {x y : Flt} : Good (x.mul y) := by
  rcases x with _ | s | ⟨s, m⟩ <;> rcases y with _ | s' | ⟨s', m'⟩ <;> simp only [Flt.mul] <;> try trivial
  · split_ifs <;> trivial
  · split_ifs <;> trivial
  · exact good_roundFlt fltUnit_pos

theorem good_div {x y : Flt} : Good (x.div y) := by
  rcases x with _ | s | ⟨s, m⟩ <;> rcases y with _ | s' | ⟨s', m'⟩ <;> simp only [Flt.div] <;> try trivial
  · exact sig_zero
  · split_ifs
    · trivial
    · trivial
    · exact good_roundFlt (by omega)

theorem good_clamp {x lo hi : Flt} (hx : Good x) (hlo : Good lo) (hhi : Good hi) : Good (clamp x lo hi) := by
  unfold clamp
  split_ifs <;> assumption

theorem good_f32 (w : Word) : Good (f32 w) := by
  have hm : (w.extractLsb' 0 23).toNat < 2 ^ 23 := BitVec.isLt _
  unfold f32
  simp only
  split_ifs
  · trivial
  · trivial
  · exact ⟨(w.extractLsb' 0 23).toNat, 0, by omega, by simp⟩
  · exact ⟨_, _, by omega, rfl⟩

/-- Adding the units of two finite values, when the exact sum is small. -/
theorem add_fin {s s' : Bool} {m m' : Nat}
    (h : roundMag (signedMag s m + signedMag s' m').natAbs 1 < fltOverflow) :
    (Flt.fin s m).add (.fin s' m') =
      if signedMag s m + signedMag s' m' = 0 then .fin (s && s') 0
      else .fin (decide (signedMag s m + signedMag s' m' < 0))
        (roundMag (signedMag s m + signedMag s' m').natAbs 1) := by
  simp only [Flt.add]
  split_ifs
  · rfl
  · exact roundFlt_small h

theorem mul_fin_le_right {s s' : Bool} {m m' : Nat} (hm : m ≤ fltUnit) (hs : Sig m') (ho : m' < fltOverflow) :
    ∃ r, (Flt.fin s m).mul (.fin s' m') = .fin (s ^^ s') r ∧ r ≤ m' := by
  have h : roundMag (m * m') fltUnit ≤ m' :=
    roundMag_le fltUnit_pos hs (by rw [Nat.mul_comm m']; exact Nat.mul_le_mul_right _ hm)
  exact ⟨_, roundFlt_small (by omega), h⟩

theorem mul_zero_right {s s' : Bool} {m : Nat} : (Flt.fin s m).mul (.fin s' 0) = .fin (s ^^ s') 0 := by
  have h : roundMag (m * 0) fltUnit = 0 := by
    rw [Nat.mul_zero]
    simpa using roundMag_exact (b := 0) fltUnit_pos sig_zero
  simp only [Flt.mul]
  have hu := fltUnit_pos
  have ho := fltUnit_lt_overflow
  rw [roundFlt_small (by omega), h]

theorem mul_one_right {s : Bool} {m : Nat} (hs : Sig m) (ho : m < fltOverflow) :
    (Flt.fin s m).mul (fltLit 1) = .fin s m := by
  have h : roundMag (m * fltUnit) fltUnit = m := roundMag_exact fltUnit_pos hs
  rw [fltLit_one]
  simp only [Flt.mul, Bool.xor_false]
  rw [roundFlt_small (by omega), h]

theorem mul_bip {x y : Flt} (hx : Bip x) (hy : Bip y) : Bip (x.mul y) := by
  obtain ⟨s, m, rfl, hm⟩ := hx
  obtain ⟨s', m', rfl, hm'⟩ := hy
  have h : roundMag (m * m') fltUnit ≤ fltUnit :=
    roundMag_le fltUnit_pos sig_unit (Nat.mul_le_mul hm hm')
  have ho := fltUnit_lt_overflow
  exact ⟨_, _, roundFlt_small (by omega), h⟩

theorem mul_unit01 {x y : Flt} (hx : Unit01 x) (hy : Unit01 y) : Unit01 (x.mul y) := by
  obtain ⟨s, m, rfl, hm, h0⟩ := hx
  obtain ⟨s', m', rfl, hm', h0'⟩ := hy
  have h : roundMag (m * m') fltUnit ≤ fltUnit :=
    roundMag_le fltUnit_pos sig_unit (Nat.mul_le_mul hm hm')
  have ho := fltUnit_lt_overflow
  refine ⟨_, _, roundFlt_small (by omega), h, fun hx => ?_⟩
  have hz : m * m' = 0 := by
    cases s <;> cases s' <;> simp_all
  rw [hz]
  simpa using roundMag_exact (b := 0) fltUnit_pos sig_zero

/-- `1.0 − t` for t in [0, 1]: a value in [0, 1] that with `t` exceeds 1.0 by at most 2^-25. -/
theorem one_sub {t : Flt} (ht : Unit01 t) :
    ∃ r, (fltLit 1).sub t = .fin false r ∧ Sig r ∧ r ≤ fltUnit ∧
      ∀ s m, t = .fin s m → r + m ≤ fltUnit + 2 ^ 124 ∧ (m = 0 → r = fltUnit) ∧ (m = fltUnit → r = 0) := by
  obtain ⟨s, m, rfl, hm, h0⟩ := ht
  have ho := fltUnit_lt_overflow
  have hz : signedMag false fltUnit + signedMag (!s) m = ((fltUnit - m : Nat) : Int) := by
    cases s
    · simp [signedMag]; omega
    · simp [signedMag, h0]
  have hle : roundMag (fltUnit - m) 1 ≤ fltUnit := roundMag_le one_pos sig_unit (by omega)
  have herr : roundMag (fltUnit - m) 1 ≤ fltUnit - m + 2 ^ 124 := roundMag_error_unit (by omega)
  have e0 : roundMag 0 1 = 0 := by simpa using roundMag_exact (b := 0) one_pos sig_zero
  have e1 : roundMag fltUnit 1 = fltUnit := by simpa using roundMag_exact (b := fltUnit) one_pos sig_unit
  refine ⟨roundMag (fltUnit - m) 1, ?_, roundMag_sig one_pos, hle, ?_⟩
  · rw [Flt.sub, fltLit_one, Flt.neg, add_fin (by rw [hz]; simp only [Int.natAbs_natCast]; omega), hz]
    split_ifs with hc
    · have : fltUnit - m = 0 := by exact_mod_cast hc
      simp [this, e0]
    · simp
  · intro s' m' h
    obtain ⟨-, rfl⟩ := Flt.fin.inj h
    refine ⟨by omega, fun hm0 => ?_, fun hm1 => ?_⟩
    · subst hm0; simpa using e1
    · subst hm1; simpa using e0

/-- A sum of two values whose magnitudes together exceed 1.0 by at most 2^-25 stays in [−1, 1]. -/
theorem add_slack {s s' : Bool} {m m' : Nat} (h : m + m' ≤ fltUnit + 2 ^ 124) :
    Bip ((Flt.fin s m).add (.fin s' m')) := by
  have hn : (signedMag s m + signedMag s' m').natAbs ≤ fltUnit + 2 ^ 124 := by
    unfold signedMag; split_ifs <;> omega
  have hr := roundMag_le_unit_slack hn
  have ho := fltUnit_lt_overflow
  rw [add_fin (by omega)]
  split_ifs
  · exact ⟨_, _, rfl, Nat.zero_le _⟩
  · exact ⟨_, _, rfl, hr⟩

theorem add_slack_nonneg {s s' : Bool} {m m' : Nat} (h : m + m' ≤ fltUnit + 2 ^ 124)
    (h0 : s = true → m = 0) (h0' : s' = true → m' = 0) :
    Unit01 ((Flt.fin s m).add (.fin s' m')) := by
  have hz : signedMag s m + signedMag s' m' = ((m + m' : Nat) : Int) := by
    cases s <;> cases s' <;> simp_all [signedMag]
  have hr : roundMag (m + m') 1 ≤ fltUnit := roundMag_le_unit_slack h
  have ho := fltUnit_lt_overflow
  rw [add_fin (by rw [hz, Int.natAbs_natCast]; omega), hz]
  split_ifs
  · exact ⟨_, _, rfl, Nat.zero_le _, fun _ => rfl⟩
  · refine ⟨_, _, rfl, by rw [Int.natAbs_natCast]; exact hr, fun hc => ?_⟩
    simp only [decide_eq_true_eq] at hc
    omega

/-! ### lerp and clamp -/

theorem lerp_bip {a b t : Flt} (ha : Bip a) (hb : Bip b) (ht : Unit01 t) (hg : Good t) : Bip (lerp a b t) := by
  obtain ⟨r, hr, hrs, hru, hrt⟩ := one_sub ht
  obtain ⟨s, m, rfl, hm, h0⟩ := ht
  obtain ⟨sa, ma, rfl, hma⟩ := ha
  obtain ⟨sb, mb, rfl, hmb⟩ := hb
  have ho := fltUnit_lt_overflow
  obtain ⟨p, hp, hpr⟩ := mul_fin_le_right (s := sa) (s' := false) hma hrs (by omega)
  obtain ⟨q, hq, hqm⟩ := mul_fin_le_right (s := sb) (s' := s) hmb (show Sig m from hg) (by omega)
  have := (hrt s m rfl).1
  rw [lerp, hr, hp, hq]
  exact add_slack (by omega)

theorem lerp_unit01 {a b t : Flt} (ha : Unit01 a) (hb : Unit01 b) (ht : Unit01 t) (hg : Good t) :
    Unit01 (lerp a b t) := by
  obtain ⟨r, hr, hrs, hru, hrt⟩ := one_sub ht
  have h1 : Unit01 (a.mul ((fltLit 1).sub t)) := mul_unit01 ha ⟨_, _, hr, hru, by simp⟩
  have h2 : Unit01 (b.mul t) := mul_unit01 hb ht
  obtain ⟨s, m, rfl, hm, h0⟩ := ht
  obtain ⟨sa, ma, rfl, hma, -⟩ := ha
  obtain ⟨sb, mb, rfl, hmb, -⟩ := hb
  have ho := fltUnit_lt_overflow
  obtain ⟨p, hp, hpr⟩ := mul_fin_le_right (s := sa) (s' := false) hma hrs (by omega)
  obtain ⟨q, hq, hqm⟩ := mul_fin_le_right (s := sb) (s' := s) hmb (show Sig m from hg) (by omega)
  have := (hrt s m rfl).1
  rw [hr, hp] at h1
  rw [hq] at h2
  rw [lerp, hr, hp, hq]
  obtain ⟨_, _, e1, -, z1⟩ := h1
  obtain ⟨_, _, e2, -, z2⟩ := h2
  obtain ⟨rfl, rfl⟩ := Flt.fin.inj e1
  obtain ⟨rfl, rfl⟩ := Flt.fin.inj e2
  exact add_slack_nonneg (by omega) z1 z2

theorem clamp_unit01 (x : Flt) : Unit01 (clamp x fltZero (fltLit 1)) := by
  have hu := fltUnit_pos
  have hz : Unit01 fltZero := ⟨_, _, rfl, Nat.zero_le _, by simp⟩
  have h1 : Unit01 (fltLit 1) := ⟨_, _, fltLit_one, le_refl _, by simp⟩
  unfold clamp
  split_ifs with hn hlo hhi
  · exact hz
  · exact hz
  · exact h1
  · rw [← inUnit_iff]
    rcases x with _ | s | ⟨s, m⟩
    · simp [Flt.isNan] at hn
    all_goals
      cases s <;>
        simp_all [Flt.InUnit, Flt.le, Flt.isNan, Flt.place, fltZero, fltLit_one, signedMag]
    all_goals omega

theorem clamp_bip (x : Flt) : Bip (clamp x (fltLit 1).neg (fltLit 1)) := by
  have hn1 : Bip (fltLit 1).neg := ⟨true, fltUnit, by rw [fltLit_one]; rfl, le_refl _⟩
  have h1 : Bip (fltLit 1) := ⟨_, _, fltLit_one, le_refl _⟩
  unfold clamp
  split_ifs with hn hlo hhi
  · exact hn1
  · exact hn1
  · exact h1
  · rw [← inBipolarUnit_iff]
    rcases x with _ | s | ⟨s, m⟩
    · simp [Flt.isNan] at hn
    all_goals
      cases s <;>
        simp_all [Flt.InBipolarUnit, Flt.le, Flt.isNan, Flt.place, Flt.neg, fltLit_one, signedMag] <;> omega

end Sys2Proof.Laws
end

