-- ==== Sys2Proof/Laws/Envelope.lean ====
section
/-! SUPPORT. The levels of the envelope (R112–R115): they lie in [0, 1], and a hold or a release starts from the level that
sounded (R123). The words of stored levels give their values back. -/

namespace Sys2Proof.Laws

open Sys2Proof.Machine

/-! ### Words and values -/

theorem signNat_false : signNat false = 0 := rfl

theorem signNat_true : signNat true = 2 ^ 31 := rfl

theorem magBits_lt {m : Nat} (ho : m < fltOverflow) : magBits m < 255 * 2 ^ 23 := by
  have hk : ulpExp m ≤ 253 := by
    unfold ulpExp
    rcases Nat.eq_zero_or_pos m with rfl | h
    · simp
    · have : m.log2 < 277 := (Nat.log2_lt (by omega)).2 (lt_of_lt_of_eq ho (by decide +kernel))
      omega
  have hq : m / 2 ^ ulpExp m < 2 ^ 24 := by
    rw [Nat.div_lt_iff_lt_mul (by positivity), ← pow_add]
    exact lt_two_pow_ulpExp m
  unfold magBits
  omega

theorem f32_bits_fin {s : Bool} {m : Nat} (hs : Sig m) (ho : m < fltOverflow) : f32 (bits (.fin s m)) = .fin s m := by
  have hb := magBits_lt ho
  obtain ⟨c, hc⟩ := ulpExp_dvd hs
  have hq : m / 2 ^ ulpExp m < 2 ^ 24 := by
    rw [Nat.div_lt_iff_lt_mul (by positivity), ← pow_add]
    exact lt_two_pow_ulpExp m
  have hcm : m / 2 ^ ulpExp m = c :=
     Nat.div_eq_of_eq_mul_right (pow_pos two_pos _) hc
  have hn : (bits (.fin s m)).toNat = signNat s + magBits m := by
    simp only [bits, BitVec.toNat_ofNat]
    apply Nat.mod_eq_of_lt
    cases s <;> simp only [signNat_false, signNat_true] <;> omega
  have hmsb : (bits (.fin s m)).msb = s := by
    rw [BitVec.msb_eq_decide, hn]
    cases s <;> simp [signNat]
    omega
  have he : ((bits (.fin s m)).extractLsb' 23 8).toNat = magBits m / 2 ^ 23 := by
    rw [BitVec.extractLsb'_toNat, hn, Nat.shiftRight_eq_div_pow]
    cases s <;> simp only [signNat_false, signNat_true] <;> omega
  have hf : ((bits (.fin s m)).extractLsb' 0 23).toNat = magBits m % 2 ^ 23 := by
    rw [BitVec.extractLsb'_toNat, hn, Nat.shiftRight_zero]
    cases s <;> simp only [signNat_false, signNat_true] <;> omega
  have hmb : magBits m = ulpExp m * 2 ^ 23 + c := by rw [magBits, hcm]
  rw [hcm] at hq
  unfold f32
  simp only [hmsb, he, hf]
  rcases Nat.eq_zero_or_pos (ulpExp m) with h0 | hpos
  · rw [h0] at hmb hc
    rw [pow_zero, one_mul] at hc
    subst hc
    rcases Nat.lt_or_ge m (2 ^ 23) with hlt | hge
    · rw [if_neg (by omega), if_pos (by omega)]
      congr 1
      omega
    · rw [if_neg (by omega), if_neg (by omega)]
      have h1 : magBits m / 2 ^ 23 = 1 := by omega
      rw [h1]
      congr 1
      rw [Nat.sub_self, pow_zero, mul_one]
      omega
  · have hge : 2 ^ 23 ≤ c := by
      have h1 := two_pow_le_of_ulpExp hpos
      rw [← hcm, Nat.le_div_iff_mul_le (by positivity), ← pow_add]
      exact h1
    have h1 : magBits m / 2 ^ 23 = ulpExp m + 1 := by omega
    rw [if_neg (by omega), if_neg (by omega), h1, Nat.add_sub_cancel]
    congr 1
    have h2 : 2 ^ 23 + magBits m % 2 ^ 23 = c := by omega
    rw [h2, Nat.mul_comm]
    exact hc.symm

theorem velocityLegal_bits {x : Flt} (hx : Unit01 x) (hg : Good x) : velocityLegal (bits x) = true := by
  rw [velocityLegal_iff]
  obtain ⟨s, m, rfl, hm, h0⟩ := hx
  have ho := fltUnit_lt_overflow
  rw [f32_bits_fin hg (by omega)]
  exact ⟨s, m, rfl, hm, h0⟩

/-! ### Times and durations -/

/-- A value that is `+∞` or a finite value with the positive sign. -/
def NonnegOrInf (x : Flt) : Prop := x = .inf false ∨ ∃ m, x = .fin false m

theorem fltOfNat_fin {n : Nat} (h : n ≤ 2 ^ 64) :
    ∃ m, fltOfNat n = .fin false m ∧ (1 ≤ n → fltUnit ≤ m) ∧ m ≤ 2 ^ 64 * fltUnit := by
  have hs : Sig (2 ^ 64 * fltUnit) := ⟨1, 213, by norm_num, by norm_num [fltUnit]⟩
  have h1 : roundMag (n * fltUnit) 1 ≤ 2 ^ 64 * fltUnit :=
    roundMag_le one_pos hs (by rw [mul_one]; exact Nat.mul_le_mul_right _ h)
  have hu := fltUnit_pos
  refine ⟨_, roundFlt_small (by unfold fltOverflow; omega), fun hn => ?_, h1⟩
  exact le_roundMag one_pos sig_unit (by rw [mul_one]; nlinarith)

theorem srEff_fin (w : Word) : ∃ m, fltOfNat (srEff w) = .fin false m ∧ fltUnit ≤ m := by
  obtain ⟨m, h, h1, -⟩ := fltOfNat_fin (n := srEff w) (by unfold srEff; omega)
  exact ⟨m, h, h1 (by unfold srEff; omega)⟩

theorem roundFlt_false (n d : Nat) : NonnegOrInf (roundFlt false n d) := by
  unfold roundFlt ofMag
  split_ifs
  · exact .inr ⟨_, rfl⟩
  · exact .inl rfl

theorem div_nonneg {m n : Nat} (hn : n ≠ 0) : NonnegOrInf ((Flt.fin false m).div (.fin false n)) := by
  simp only [Flt.div, if_neg hn, Bool.xor_false]
  exact roundFlt_false _ _

theorem elapsed_nonneg (sr : Word) (s now : Count) : NonnegOrInf (elapsed sr s now) := by
  unfold elapsed
  obtain ⟨d, hd, -⟩ := srEff_fin sr
  have hu := fltUnit_pos
  split_ifs
  · exact .inl rfl
  · exact .inr ⟨_, rfl⟩
  · obtain ⟨m, hm, -, -⟩ := fltOfNat_fin (n := (now - s).toNat) (by omega)
    obtain ⟨n, hn, hnu⟩ := srEff_fin sr
    rw [hm, hn]
    exact div_nonneg (by omega)

theorem fltOfNat_zero : fltOfNat 0 = .fin false 0 := by
  have h0 : roundMag 0 1 = 0 := roundMag_zero one_pos
  unfold fltOfNat
  rw [Nat.zero_mul, roundFlt_small (by rw [h0]; exact fltOverflow_pos), h0]

theorem zero_div_fin {n : Nat} (hn : n ≠ 0) : (Flt.fin false 0).div (.fin false n) = fltZero := by
  have h1 : roundMag (0 * fltUnit) n = 0 := by rw [Nat.zero_mul]; exact roundMag_zero (by omega)
  simp only [Flt.div, if_neg hn, Bool.xor_false]
  rw [roundFlt_small (by rw [h1]; exact fltOverflow_pos), h1]
  rfl

theorem elapsed_self {sr : Word} {now : Count} (h : now ≠ Config.sentinel) : elapsed sr now now = fltZero := by
  obtain ⟨n, hn, hnu⟩ := srEff_fin sr
  have hu := fltUnit_pos
  have e : elapsed sr now now = (fltOfNat 0).div (fltOfNat (srEff sr)) := by
    unfold elapsed
    rw [if_neg h, if_neg (by simp), BitVec.sub_self]
    rfl
  rw [e, fltOfNat_zero, hn]
  exact zero_div_fin (by omega)

/-- A duration as it is used: `+∞`, or a finite value of at least DUR_EPS (R111). -/
theorem durEff_form (w : Word) :
    durEff w = .inf false ∨ ∃ m, durEff w = .fin false m ∧ 2 ^ 129 ≤ m := by
  unfold durEff
  have hu := fltUnit_pos
  split_ifs with h
  · exact .inr ⟨_, rfl, le_refl _⟩
  · generalize f32 w = x at *
    rcases x with _ | s | ⟨s, m⟩
    · simp [Flt.isNan] at h
    · cases s
      · exact .inl rfl
      · simp [Flt.isNan, Flt.lt, durEps, Flt.place, signedMag] at h
        unfold fltOverflow at h
        omega
    · cases s
      · refine .inr ⟨m, rfl, ?_⟩
        simp [Flt.isNan, Flt.lt, durEps, Flt.place, signedMag] at h
        omega
      · simp [Flt.isNan, Flt.lt, durEps, Flt.place, signedMag] at h
        omega

/-! ### The level functions -/

theorem clamp01_of_nonpos {x : Flt} (h : x.isNan = true ∨ x.le fltZero = true) :
    clamp x fltZero (fltLit 1) = fltZero := by
  unfold clamp
  split_ifs with h1 h2 <;> simp_all

theorem clamp01_of_ge_one {x : Flt} (h : (fltLit 1).le x = true) : clamp x fltZero (fltLit 1) = fltLit 1 := by
  have hu := fltUnit_pos
  unfold clamp
  rcases x with _ | s | ⟨s, m⟩
  · simp [Flt.le, Flt.isNan] at h
  all_goals
    rw [if_neg (by simp [Flt.isNan]), if_neg, if_pos h]
    simp [Flt.le, Flt.isNan, fltLit_one, Flt.place, fltZero, signedMag] at h ⊢
    omega

theorem negative_le_zero {x : Flt} (h : (∃ m, x = .fin true m) ∨ x = .inf true) : x.le fltZero = true := by
  obtain ⟨m, rfl⟩ | rfl := h <;> simp [Flt.le, Flt.isNan, Flt.place, fltZero, signedMag]

theorem roundFlt_true (n d : Nat) : (∃ m, roundFlt true n d = .fin true m) ∨ roundFlt true n d = .inf true := by
  unfold roundFlt ofMag
  split_ifs
  · exact .inl ⟨_, rfl⟩
  · exact .inr rfl

/-- During the attack the decay fraction is 0, and during the decay the attack fraction is 1 (R113). -/
theorem decay_zero_or_attack_one {e a d : Flt} (he : NonnegOrInf e)
    (ha : a = .inf false ∨ ∃ m, a = .fin false m ∧ 2 ^ 129 ≤ m)
    (hd : d = .inf false ∨ ∃ m, d = .fin false m ∧ 2 ^ 129 ≤ m) :
    clamp ((e.sub a).div d) fltZero (fltLit 1) = fltZero ∨ clamp (e.div a) fltZero (fltLit 1) = fltLit 1 := by
  have hu := fltUnit_pos
  obtain rfl | ⟨me, rfl⟩ := he <;> obtain rfl | ⟨ma, rfl, hma⟩ := ha
  · left
    refine clamp01_of_nonpos (.inl ?_)
    obtain rfl | ⟨md, rfl, hmd⟩ := hd <;> rfl
  · right
    exact clamp01_of_ge_one (by simp [Flt.div, Flt.le, Flt.isNan, fltLit_one, Flt.place, signedMag]; unfold fltOverflow; omega)
  · left
    refine clamp01_of_nonpos ?_
    obtain rfl | ⟨md, rfl, hmd⟩ := hd
    · exact .inl rfl
    · exact .inr (negative_le_zero (.inr rfl))
  · rcases Nat.lt_or_ge ma me with hlt | hge
    · right
      refine clamp01_of_ge_one ?_
      have h1 : fltUnit ≤ roundMag (me * fltUnit) ma :=
        le_roundMag (by omega) sig_unit (by rw [Nat.mul_comm]; exact Nat.mul_le_mul_right _ hlt.le)
      simp only [Flt.div, if_neg (show ma ≠ 0 by omega), Bool.xor_false]
      unfold roundFlt ofMag
      split_ifs
      · simp [Flt.le, Flt.isNan, fltLit_one, Flt.place, signedMag]; omega
      · simp [Flt.le, Flt.isNan, fltLit_one, Flt.place, signedMag]; unfold fltOverflow; omega
    · left
      refine clamp01_of_nonpos ?_
      have hz : (Flt.fin false me).sub (.fin false ma) = .fin false 0 ∨
          (∃ m, (Flt.fin false me).sub (.fin false ma) = .fin true m) ∨
          (Flt.fin false me).sub (.fin false ma) = .inf true := by
        have hsum : signedMag false me + signedMag (!false) ma = (me : Int) - ma := by
          simp [signedMag]; omega
        simp only [Flt.sub, Flt.neg, Flt.add, hsum]
        split_ifs with hc
        · exact .inl rfl
        · rw [show decide ((me : Int) - ma < 0) = true by simp; omega]
          exact .inr (roundFlt_true _ _)
      rcases hz with hz | ⟨m, hz⟩ | hz <;> rw [hz] <;> obtain rfl | ⟨md, rfl, hmd⟩ := hd
      · exact .inr rfl
      · rw [zero_div_fin (by omega)]
        exact .inr rfl
      · exact .inr (negative_le_zero (.inl ⟨_, rfl⟩))
      · simp only [Flt.div, if_neg (show md ≠ 0 by omega), Bool.xor_false]
        exact .inr (negative_le_zero (roundFlt_true _ _))
      · exact .inl rfl
      · exact .inr (negative_le_zero (.inr rfl))

/-! ### The levels -/

/-- `[0, 1]` with the positive sign and a 24-bit significand: what every level is. -/
def Pos01 (x : Flt) : Prop := ∃ m, x = .fin false m ∧ m ≤ fltUnit ∧ Sig m

theorem Pos01.unit01 {x : Flt} (h : Pos01 x) : Unit01 x := by
  obtain ⟨m, rfl, hm, -⟩ := h
  exact ⟨_, _, rfl, hm, by simp⟩

theorem Pos01.good {x : Flt} (h : Pos01 x) : Good x := by
  obtain ⟨m, rfl, -, hs⟩ := h
  exact hs

theorem pos01_zero : Pos01 fltZero := ⟨_, rfl, Nat.zero_le _, sig_zero⟩

theorem pos01_one : Pos01 (fltLit 1) := ⟨_, fltLit_one, le_refl _, sig_unit⟩

theorem clamp_pos01 {x : Flt} (hx : Good x) : Pos01 (clamp x fltZero (fltLit 1)) := by
  unfold clamp
  split_ifs with hn hlo hhi
  · exact pos01_zero
  · exact pos01_zero
  · exact pos01_one
  · have hu := fltUnit_pos
    rcases x with _ | s | ⟨s, m⟩
    · simp [Flt.isNan] at hn
    · cases s <;>
        simp [Flt.le, Flt.isNan, Flt.place, fltZero, fltLit_one, signedMag] at hlo hhi
      have := fltUnit_lt_overflow
      omega
    · cases s <;>
        simp [Flt.le, Flt.isNan, Flt.place, fltZero, fltLit_one, signedMag] at hlo hhi
      exact ⟨m, rfl, by omega, hx⟩

/-- lerp into a second end point and a fraction of positive sign is a level again. -/
theorem lerp_pos01 {a b t : Flt} (ha : Unit01 a) (hb : Pos01 b) (ht : Pos01 t) : Pos01 (lerp a b t) := by
  have hu := lerp_unit01 ha hb.unit01 ht.unit01 ht.good
  have hg : Good (lerp a b t) := good_add
  obtain ⟨s, m, hm, hmu, h0⟩ := hu
  obtain ⟨r, hr, hrs, hru, hrt⟩ := one_sub ht.unit01
  obtain ⟨mt, rfl, hmt, hst⟩ := ht
  obtain ⟨mb, rfl, hmb, hsb⟩ := hb
  obtain ⟨sa, ma, rfl, hma, ha0⟩ := ha
  have ho := fltUnit_lt_overflow
  cases s with
  | false =>
    rw [hm] at hg ⊢
    exact ⟨m, rfl, hmu, hg⟩
  | true =>
    exfalso
    obtain ⟨p, hp, hpr⟩ := mul_fin_le_right (s := sa) (s' := false) hma hrs (by omega)
    obtain ⟨q, hq, hqm⟩ := mul_fin_le_right (s := false) (s' := false) hmb hst (by omega)
    have hp0 : sa = true → p = 0 := by
      intro hsa
      have hma0 := ha0 hsa
      subst hma0
      have e : (Flt.fin sa 0).mul (.fin false r) = .fin (sa ^^ false) 0 := by
        have h1 : roundMag (0 * r) fltUnit = 0 := by rw [Nat.zero_mul]; exact roundMag_zero fltUnit_pos
        simp only [Flt.mul]
        rw [roundFlt_small (by rw [h1]; exact fltOverflow_pos), h1]
      rw [e] at hp
      exact ((Flt.fin.inj hp).2).symm
    rw [lerp, hr, hp, hq] at hm
    have hz : signedMag (sa ^^ false) p + signedMag (false ^^ false) q = ((p + q : Nat) : Int) := by
      cases sa <;> simp_all [signedMag]
    have hle : roundMag (p + q) 1 ≤ fltUnit :=
      roundMag_le_unit_slack (by have := (hrt false mt rfl).1; omega)
    rw [add_fin (by rw [hz, Int.natAbs_natCast]; omega), hz] at hm
    split_ifs at hm
    · simp at hm
    · have := (Flt.fin.inj hm).1
      simp only [decide_eq_true_eq] at this
      omega

/-- `1.0 − t` is a level for a level t. -/
theorem one_sub_pos01 {t : Flt} (ht : Unit01 t) : Pos01 ((fltLit 1).sub t) := by
  obtain ⟨r, hr, hrs, hru, -⟩ := one_sub ht
  exact ⟨r, hr, hru, hrs⟩

/-- `x ± 0` where x has the positive sign. -/
theorem add_zero_fin {m : Nat} {s : Bool} (hs : Sig m) (ho : m < fltOverflow) :
    (Flt.fin false m).add (.fin s 0) = .fin false m := by
  have h1 : roundMag m 1 = m := by simpa using roundMag_exact (b := m) one_pos hs
  have hz : signedMag false m + signedMag s 0 = (m : Int) := by cases s <;> simp [signedMag]
  rw [add_fin (by rw [hz, Int.natAbs_natCast, h1]; exact ho), hz]
  split_ifs with hc
  · have : m = 0 := by exact_mod_cast hc
    subst this; rfl
  · rw [Int.natAbs_natCast, h1]
    simp

theorem sub_zero_pos01 {x : Flt} (hx : Pos01 x) : x.sub fltZero = x := by
  obtain ⟨m, rfl, hm, hs⟩ := hx
  exact add_zero_fin hs (lt_of_le_of_lt hm fltUnit_lt_overflow)

theorem one_mul_one : (fltLit 1).mul (fltLit 1) = fltLit 1 := by
  have h := mul_one_right (s := false) sig_unit fltUnit_lt_overflow
  rwa [← fltLit_one] at h

theorem zero_add_fin {m : Nat} {s : Bool} (hs : Sig m) (ho : m < fltOverflow) (hm : m ≠ 0) :
    (Flt.fin s 0).add (.fin false m) = .fin false m := by
  have h1 : roundMag m 1 = m := by simpa using roundMag_exact (b := m) one_pos hs
  have hz : signedMag s 0 + signedMag false m = (m : Int) := by cases s <;> simp [signedMag]
  rw [add_fin (by rw [hz, Int.natAbs_natCast, h1]; exact ho), hz, if_neg (by exact_mod_cast hm),
    Int.natAbs_natCast, h1]
  simp

theorem one_sub_one : (fltLit 1).sub (fltLit 1) = fltZero := by
  obtain ⟨r, hr, -, -, hrt⟩ := one_sub pos01_one.unit01
  have := (hrt false fltUnit fltLit_one).2.2 rfl
  subst this
  exact hr

theorem one_sub_zero : (fltLit 1).sub fltZero = fltLit 1 := sub_zero_pos01 pos01_one

/-- lerp at t = 1 between a level and 1.0 is 1.0 (R11). -/
theorem lerp_one_one {a : Flt} (ha : Unit01 a) : lerp a (fltLit 1) (fltLit 1) = fltLit 1 := by
  obtain ⟨s, m, rfl, hm, h0⟩ := ha
  have hu := fltUnit_pos
  rw [lerp, one_sub_one, one_mul_one]
  unfold fltZero
  rw [mul_zero_right, fltLit_one, zero_add_fin sig_unit fltUnit_lt_overflow (by omega)]

/-- lerp at t = 1 into 0.0 is exactly +0.0 (R114, R123 (b)). -/
theorem lerp_one_zero {a : Flt} (ha : Unit01 a) : lerp a fltZero (fltLit 1) = fltZero := by
  obtain ⟨s, m, rfl, hm, h0⟩ := ha
  have e : fltZero.mul (fltLit 1) = .fin false 0 := mul_one_right sig_zero fltOverflow_pos
  rw [lerp, one_sub_one, e]
  unfold fltZero
  rw [mul_zero_right]
  cases s <;> decide

/-- lerp at t = 0 gives a level a back, exactly (R11, R123 (a)). -/
theorem lerp_at_zero {a b : Flt} (ha : Pos01 a) (hb : Bip b) : lerp a b fltZero = a := by
  obtain ⟨m, rfl, hm, hs⟩ := ha
  obtain ⟨sb, mb, rfl, hmb⟩ := hb
  have ho := fltUnit_lt_overflow
  rw [lerp, one_sub_zero, mul_one_right hs (by omega)]
  unfold fltZero
  rw [mul_zero_right, add_zero_fin hs (by omega)]

/-- A level computed in HELD (R113) lies in [0, 1] (R123 (c)). -/
theorem heldLevel_pos01 {l e a d sus : Flt} (hl : Unit01 l) (he : NonnegOrInf e)
    (ha : a = .inf false ∨ ∃ m, a = .fin false m ∧ 2 ^ 129 ≤ m)
    (hd : d = .inf false ∨ ∃ m, d = .fin false m ∧ 2 ^ 129 ≤ m) (hs : Unit01 sus) :
    Pos01 (heldLevel l e a d sus) := by
  have hsub := one_sub_pos01 hs
  unfold heldLevel
  simp only
  rcases decay_zero_or_attack_one he ha hd with h | h
  · rw [h, lerp_at_zero pos01_zero hsub.unit01.bip]
    have haa := lerp_pos01 hl pos01_one (clamp_pos01 (x := e.div a) good_div)
    rwa [sub_zero_pos01 haa]
  · rw [h, lerp_one_one hl]
    exact one_sub_pos01 (lerp_pos01 pos01_zero.unit01 hsub (clamp_pos01 good_div)).unit01

/-- A level computed in RELEASED (R114) lies in [0, 1] (R123 (c)). -/
theorem releasedLevel_pos01 {l e r : Flt} (hl : Unit01 l) : Pos01 (releasedLevel l e r) :=
  lerp_pos01 hl pos01_zero (clamp_pos01 good_div)

theorem sustainEff_unit01 (w : Word) : Unit01 (sustainEff w) := clamp_unit01 _

/-- Every level is in [0, 1] when the stored level is (R123 (c)). -/
theorem envLevel_pos01 {c : CfgRegs} {x : Voice} {now : Count} (h : velocityLegal x.level0 = true) :
    Pos01 (envLevel c x now) := by
  rw [velocityLegal_iff] at h
  unfold envLevel
  split
  · exact pos01_zero
  · exact heldLevel_pos01 h (elapsed_nonneg _ _ _) (durEff_form _) (durEff_form _) (sustainEff_unit01 _)
  · exact releasedLevel_pos01 h
  · exact pos01_one

theorem velocityLegal_envLevel {c : CfgRegs} {x : Voice} {now : Count} (h : velocityLegal x.level0 = true) :
    velocityLegal (bits (envLevel c x now)) = true :=
  velocityLegal_bits (envLevel_pos01 h).unit01 (envLevel_pos01 h).good

theorem f32_bits_pos01 {x : Flt} (h : Pos01 x) : f32 (bits x) = x := by
  obtain ⟨m, rfl, hm, hs⟩ := h
  exact f32_bits_fin hs (lt_of_le_of_lt hm fltUnit_lt_overflow)

/-- Zero elapsed time over a duration is zero. -/
theorem zero_div_dur {a : Flt} (ha : a = .inf false ∨ ∃ m, a = .fin false m ∧ 2 ^ 129 ≤ m) :
    fltZero.div a = fltZero := by
  obtain rfl | ⟨m, rfl, hm⟩ := ha
  · rfl
  · exact zero_div_fin (by omega)

theorem clamp01_zero : clamp fltZero fltZero (fltLit 1) = fltZero := clamp01_of_nonpos (.inr rfl)

/-- At elapsed time zero the level is level0 (R113). -/
theorem heldLevel_at_zero {l a d sus : Flt} (hl : Pos01 l)
    (ha : a = .inf false ∨ ∃ m, a = .fin false m ∧ 2 ^ 129 ≤ m)
    (hd : d = .inf false ∨ ∃ m, d = .fin false m ∧ 2 ^ 129 ≤ m) (hs : Unit01 sus) :
    heldLevel l fltZero a d sus = l := by
  have hu := fltUnit_pos
  have hsub := one_sub_pos01 hs
  have hdf : clamp ((fltZero.sub a).div d) fltZero (fltLit 1) = fltZero := by
    rcases decay_zero_or_attack_one (e := fltZero) (.inr ⟨_, rfl⟩) ha hd with h | h
    · exact h
    · rw [zero_div_dur ha, clamp01_zero, fltLit_one] at h
      have := (Flt.fin.inj h).2
      omega
  unfold heldLevel
  simp only
  rw [hdf, zero_div_dur ha, clamp01_zero, lerp_at_zero hl pos01_one.unit01.bip,
    lerp_at_zero pos01_zero hsub.unit01.bip, sub_zero_pos01 hl]

end Sys2Proof.Laws
end

