-- ==== Sys2Proof/Laws/State.lean ====
section
/-! SUPPORT. What each update of the state does to each field, one lemma per field and update, so that no proof unfolds a
record update. -/

namespace Sys2Proof.Machine

/-! ### clearErr -/

@[simp] theorem State.clearErr_params (s : State) (w : Word) : (s.clearErr w).params = s.params := rfl
@[simp] theorem State.clearErr_runState (s : State) (w : Word) : (s.clearErr w).runState = s.runState := rfl
@[simp] theorem State.clearErr_faultMark (s : State) (w : Word) : (s.clearErr w).faultMark = s.faultMark := rfl
@[simp] theorem State.clearErr_errs (s : State) (w : Word) : (s.clearErr w).errs =
    { s.errs with err := s.errs.err &&& ~~~(w.setWidth 5) } := rfl
@[simp] theorem State.clearErr_timer (s : State) (w : Word) : (s.clearErr w).timer = s.timer := rfl
@[simp] theorem State.clearErr_cursor (s : State) (w : Word) : (s.clearErr w).cursor = s.cursor := rfl
@[simp] theorem State.clearErr_pool (s : State) (w : Word) : (s.clearErr w).pool = s.pool := rfl
@[simp] theorem State.clearErr_evData (s : State) (w : Word) : (s.clearErr w).evData = s.evData := rfl
@[simp] theorem State.clearErr_cfg (s : State) (w : Word) : (s.clearErr w).cfg = s.cfg := rfl
@[simp] theorem State.clearErr_freq (s : State) (w : Word) : (s.clearErr w).freq = s.freq := rfl
@[simp] theorem State.clearErr_voices (s : State) (w : Word) : (s.clearErr w).voices = s.voices := rfl
@[simp] theorem State.clearErr_fifo (s : State) (w : Word) : (s.clearErr w).fifo = s.fifo := rfl
@[simp] theorem State.clearErr_inputs (s : State) (w : Word) : (s.clearErr w).inputs = s.inputs := rfl
@[simp] theorem State.clearErr_framesLeft (s : State) (w : Word) : (s.clearErr w).framesLeft = s.framesLeft := rfl
@[simp] theorem State.clearErr_sinkFrames (s : State) (w : Word) : (s.clearErr w).sinkFrames = s.sinkFrames := rfl
@[simp] theorem State.clearErr_hostReads (s : State) (w : Word) : (s.clearErr w).hostReads = s.hostReads := rfl

/-! ### setVoice -/

@[simp] theorem State.setVoice_params (s : State) (v : Nat) (x : Voice) : (s.setVoice v x).params = s.params := rfl
@[simp] theorem State.setVoice_runState (s : State) (v : Nat) (x : Voice) : (s.setVoice v x).runState =
    s.runState := rfl
@[simp] theorem State.setVoice_faultMark (s : State) (v : Nat) (x : Voice) : (s.setVoice v x).faultMark =
    s.faultMark := rfl
@[simp] theorem State.setVoice_errs (s : State) (v : Nat) (x : Voice) : (s.setVoice v x).errs = s.errs := rfl
@[simp] theorem State.setVoice_timer (s : State) (v : Nat) (x : Voice) : (s.setVoice v x).timer = s.timer := rfl
@[simp] theorem State.setVoice_cursor (s : State) (v : Nat) (x : Voice) : (s.setVoice v x).cursor = s.cursor := rfl
@[simp] theorem State.setVoice_pool (s : State) (v : Nat) (x : Voice) : (s.setVoice v x).pool = s.pool := rfl
@[simp] theorem State.setVoice_evData (s : State) (v : Nat) (x : Voice) : (s.setVoice v x).evData = s.evData := rfl
@[simp] theorem State.setVoice_cfg (s : State) (v : Nat) (x : Voice) : (s.setVoice v x).cfg = s.cfg := rfl
@[simp] theorem State.setVoice_freq (s : State) (v : Nat) (x : Voice) : (s.setVoice v x).freq = s.freq := rfl
@[simp] theorem State.setVoice_voices (s : State) (v : Nat) (x : Voice) : (s.setVoice v x).voices =
    s.voices.set v x := rfl
@[simp] theorem State.setVoice_fifo (s : State) (v : Nat) (x : Voice) : (s.setVoice v x).fifo = s.fifo := rfl
@[simp] theorem State.setVoice_inputs (s : State) (v : Nat) (x : Voice) : (s.setVoice v x).inputs = s.inputs := rfl
@[simp] theorem State.setVoice_framesLeft (s : State) (v : Nat) (x : Voice) : (s.setVoice v x).framesLeft =
    s.framesLeft := rfl
@[simp] theorem State.setVoice_sinkFrames (s : State) (v : Nat) (x : Voice) : (s.setVoice v x).sinkFrames =
    s.sinkFrames := rfl
@[simp] theorem State.setVoice_hostReads (s : State) (v : Nat) (x : Voice) : (s.setVoice v x).hostReads =
    s.hostReads := rfl

/-! ### mapPool -/

@[simp] theorem State.mapPool_params (s : State) (f : Voice → Voice) : (s.mapPool f).params = s.params := rfl
@[simp] theorem State.mapPool_runState (s : State) (f : Voice → Voice) : (s.mapPool f).runState = s.runState := rfl
@[simp] theorem State.mapPool_faultMark (s : State) (f : Voice → Voice) : (s.mapPool f).faultMark = s.faultMark := rfl
@[simp] theorem State.mapPool_errs (s : State) (f : Voice → Voice) : (s.mapPool f).errs = s.errs := rfl
@[simp] theorem State.mapPool_timer (s : State) (f : Voice → Voice) : (s.mapPool f).timer = s.timer := rfl
@[simp] theorem State.mapPool_cursor (s : State) (f : Voice → Voice) : (s.mapPool f).cursor = s.cursor := rfl
@[simp] theorem State.mapPool_pool (s : State) (f : Voice → Voice) : (s.mapPool f).pool = s.pool := rfl
@[simp] theorem State.mapPool_evData (s : State) (f : Voice → Voice) : (s.mapPool f).evData = s.evData := rfl
@[simp] theorem State.mapPool_cfg (s : State) (f : Voice → Voice) : (s.mapPool f).cfg = s.cfg := rfl
@[simp] theorem State.mapPool_freq (s : State) (f : Voice → Voice) : (s.mapPool f).freq = s.freq := rfl
@[simp] theorem State.mapPool_voices (s : State) (f : Voice → Voice) : (s.mapPool f).voices =
    (s.voices.take s.pool.toNat).map f ++ s.voices.drop s.pool.toNat := rfl
@[simp] theorem State.mapPool_fifo (s : State) (f : Voice → Voice) : (s.mapPool f).fifo = s.fifo := rfl
@[simp] theorem State.mapPool_inputs (s : State) (f : Voice → Voice) : (s.mapPool f).inputs = s.inputs := rfl
@[simp] theorem State.mapPool_framesLeft (s : State) (f : Voice → Voice) : (s.mapPool f).framesLeft =
    s.framesLeft := rfl
@[simp] theorem State.mapPool_sinkFrames (s : State) (f : Voice → Voice) : (s.mapPool f).sinkFrames =
    s.sinkFrames := rfl
@[simp] theorem State.mapPool_hostReads (s : State) (f : Voice → Voice) : (s.mapPool f).hostReads = s.hostReads := rfl

/-! ### emit -/

@[simp] theorem State.emit_params (s : State) (f : Frame) : (s.emit f).params = s.params := rfl
@[simp] theorem State.emit_runState (s : State) (f : Frame) : (s.emit f).runState = s.runState := rfl
@[simp] theorem State.emit_faultMark (s : State) (f : Frame) : (s.emit f).faultMark = s.faultMark := rfl
@[simp] theorem State.emit_errs (s : State) (f : Frame) : (s.emit f).errs = s.errs := rfl
@[simp] theorem State.emit_timer (s : State) (f : Frame) : (s.emit f).timer = s.timer := rfl
@[simp] theorem State.emit_cursor (s : State) (f : Frame) : (s.emit f).cursor = s.cursor := rfl
@[simp] theorem State.emit_pool (s : State) (f : Frame) : (s.emit f).pool = s.pool := rfl
@[simp] theorem State.emit_evData (s : State) (f : Frame) : (s.emit f).evData = s.evData := rfl
@[simp] theorem State.emit_cfg (s : State) (f : Frame) : (s.emit f).cfg = s.cfg := rfl
@[simp] theorem State.emit_freq (s : State) (f : Frame) : (s.emit f).freq = s.freq := rfl
@[simp] theorem State.emit_voices (s : State) (f : Frame) : (s.emit f).voices = s.voices := rfl
@[simp] theorem State.emit_fifo (s : State) (f : Frame) : (s.emit f).fifo = s.fifo := rfl
@[simp] theorem State.emit_inputs (s : State) (f : Frame) : (s.emit f).inputs = s.inputs := rfl
@[simp] theorem State.emit_framesLeft (s : State) (f : Frame) : (s.emit f).framesLeft = s.framesLeft := rfl
@[simp] theorem State.emit_sinkFrames (s : State) (f : Frame) : (s.emit f).sinkFrames = s.sinkFrames ++ [f] := rfl
@[simp] theorem State.emit_hostReads (s : State) (f : Frame) : (s.emit f).hostReads = s.hostReads := rfl

/-! ### returnRead -/

@[simp] theorem State.returnRead_params (s : State) (w : Word) : (s.returnRead w).params = s.params := rfl
@[simp] theorem State.returnRead_runState (s : State) (w : Word) : (s.returnRead w).runState = s.runState := rfl
@[simp] theorem State.returnRead_faultMark (s : State) (w : Word) : (s.returnRead w).faultMark = s.faultMark := rfl
@[simp] theorem State.returnRead_errs (s : State) (w : Word) : (s.returnRead w).errs = s.errs := rfl
@[simp] theorem State.returnRead_timer (s : State) (w : Word) : (s.returnRead w).timer = s.timer := rfl
@[simp] theorem State.returnRead_cursor (s : State) (w : Word) : (s.returnRead w).cursor = s.cursor := rfl
@[simp] theorem State.returnRead_pool (s : State) (w : Word) : (s.returnRead w).pool = s.pool := rfl
@[simp] theorem State.returnRead_evData (s : State) (w : Word) : (s.returnRead w).evData = s.evData := rfl
@[simp] theorem State.returnRead_cfg (s : State) (w : Word) : (s.returnRead w).cfg = s.cfg := rfl
@[simp] theorem State.returnRead_freq (s : State) (w : Word) : (s.returnRead w).freq = s.freq := rfl
@[simp] theorem State.returnRead_voices (s : State) (w : Word) : (s.returnRead w).voices = s.voices := rfl
@[simp] theorem State.returnRead_fifo (s : State) (w : Word) : (s.returnRead w).fifo = s.fifo := rfl
@[simp] theorem State.returnRead_inputs (s : State) (w : Word) : (s.returnRead w).inputs = s.inputs := rfl
@[simp] theorem State.returnRead_framesLeft (s : State) (w : Word) : (s.returnRead w).framesLeft = s.framesLeft := rfl
@[simp] theorem State.returnRead_sinkFrames (s : State) (w : Word) : (s.returnRead w).sinkFrames = s.sinkFrames := rfl
@[simp] theorem State.returnRead_hostReads (s : State) (w : Word) : (s.returnRead w).hostReads =
    s.hostReads ++ [w] := rfl

/-! ### start -/

@[simp] theorem State.start_params (s : State) (n : Nat) : (s.start n).params = s.params := rfl
@[simp] theorem State.start_runState (s : State) (n : Nat) : (s.start n).runState = .running := rfl
@[simp] theorem State.start_faultMark (s : State) (n : Nat) : (s.start n).faultMark = s.faultMark := rfl
@[simp] theorem State.start_errs (s : State) (n : Nat) : (s.start n).errs = s.errs := rfl
@[simp] theorem State.start_timer (s : State) (n : Nat) : (s.start n).timer = s.timer := rfl
@[simp] theorem State.start_cursor (s : State) (n : Nat) : (s.start n).cursor = s.cursor := rfl
@[simp] theorem State.start_pool (s : State) (n : Nat) : (s.start n).pool = BitVec.ofNat 6 n := rfl
@[simp] theorem State.start_evData (s : State) (n : Nat) : (s.start n).evData = s.evData := rfl
@[simp] theorem State.start_cfg (s : State) (n : Nat) : (s.start n).cfg = s.cfg := rfl
@[simp] theorem State.start_freq (s : State) (n : Nat) : (s.start n).freq = s.freq := rfl
@[simp] theorem State.start_voices (s : State) (n : Nat) : (s.start n).voices = s.voices := rfl
@[simp] theorem State.start_fifo (s : State) (n : Nat) : (s.start n).fifo = s.fifo := rfl
@[simp] theorem State.start_inputs (s : State) (n : Nat) : (s.start n).inputs = s.inputs := rfl
@[simp] theorem State.start_framesLeft (s : State) (n : Nat) : (s.start n).framesLeft = s.framesLeft := rfl
@[simp] theorem State.start_sinkFrames (s : State) (n : Nat) : (s.start n).sinkFrames = s.sinkFrames := rfl
@[simp] theorem State.start_hostReads (s : State) (n : Nat) : (s.start n).hostReads = s.hostReads := rfl

/-! ### softReset -/

@[simp] theorem State.softReset_params (s : State) : (s.softReset).params = s.params := rfl
@[simp] theorem State.softReset_runState (s : State) : (s.softReset).runState = .config := rfl
@[simp] theorem State.softReset_faultMark (s : State) : (s.softReset).faultMark = false := rfl
@[simp] theorem State.softReset_errs (s : State) : (s.softReset).errs = ErrRegs.reset := rfl
@[simp] theorem State.softReset_timer (s : State) : (s.softReset).timer = 0#64 := rfl
@[simp] theorem State.softReset_cursor (s : State) : (s.softReset).cursor = 0#5 := rfl
@[simp] theorem State.softReset_pool (s : State) : (s.softReset).pool = 0#6 := rfl
@[simp] theorem State.softReset_evData (s : State) : (s.softReset).evData = 0#32 := rfl
@[simp] theorem State.softReset_cfg (s : State) : (s.softReset).cfg = CfgRegs.reset := rfl
@[simp] theorem State.softReset_freq (s : State) : (s.softReset).freq = freqResetTable := rfl
@[simp] theorem State.softReset_voices (s : State) : (s.softReset).voices =
    List.replicate s.params.maxVoices Voice.reset := rfl
@[simp] theorem State.softReset_fifo (s : State) : (s.softReset).fifo = [] := rfl
@[simp] theorem State.softReset_inputs (s : State) : (s.softReset).inputs = s.inputs := rfl
@[simp] theorem State.softReset_framesLeft (s : State) : (s.softReset).framesLeft = s.framesLeft := rfl
@[simp] theorem State.softReset_sinkFrames (s : State) : (s.softReset).sinkFrames = s.sinkFrames := rfl
@[simp] theorem State.softReset_hostReads (s : State) : (s.softReset).hostReads = s.hostReads := rfl

/-! ### noteOn -/

@[simp] theorem State.noteOn_params (s : State) (n : BitVec 7) (vel : Word) : (s.noteOn n vel).params =
    s.params := rfl
@[simp] theorem State.noteOn_runState (s : State) (n : BitVec 7) (vel : Word) : (s.noteOn n vel).runState =
    s.runState := rfl
@[simp] theorem State.noteOn_faultMark (s : State) (n : BitVec 7) (vel : Word) : (s.noteOn n vel).faultMark =
    s.faultMark := rfl
@[simp] theorem State.noteOn_errs (s : State) (n : BitVec 7) (vel : Word) : (s.noteOn n vel).errs = s.errs := rfl
@[simp] theorem State.noteOn_timer (s : State) (n : BitVec 7) (vel : Word) : (s.noteOn n vel).timer = s.timer := rfl
@[simp] theorem State.noteOn_cursor (s : State) (n : BitVec 7) (vel : Word) : (s.noteOn n vel).cursor =
    if (s.hit n).isSome then s.cursor else s.nextCursor := rfl
@[simp] theorem State.noteOn_pool (s : State) (n : BitVec 7) (vel : Word) : (s.noteOn n vel).pool = s.pool := rfl
@[simp] theorem State.noteOn_evData (s : State) (n : BitVec 7) (vel : Word) : (s.noteOn n vel).evData =
    s.evData := rfl
@[simp] theorem State.noteOn_cfg (s : State) (n : BitVec 7) (vel : Word) : (s.noteOn n vel).cfg = s.cfg := rfl
@[simp] theorem State.noteOn_freq (s : State) (n : BitVec 7) (vel : Word) : (s.noteOn n vel).freq = s.freq := rfl
@[simp] theorem State.noteOn_voices (s : State) (n : BitVec 7) (vel : Word) : (s.noteOn n vel).voices =
    s.voices.set (s.chosen n) ((s.voiceAt (s.chosen n)).strike s.cfg s.timer n vel) := rfl
@[simp] theorem State.noteOn_fifo (s : State) (n : BitVec 7) (vel : Word) : (s.noteOn n vel).fifo = s.fifo := rfl
@[simp] theorem State.noteOn_inputs (s : State) (n : BitVec 7) (vel : Word) : (s.noteOn n vel).inputs =
    s.inputs := rfl
@[simp] theorem State.noteOn_framesLeft (s : State) (n : BitVec 7) (vel : Word) : (s.noteOn n vel).framesLeft =
    s.framesLeft := rfl
@[simp] theorem State.noteOn_sinkFrames (s : State) (n : BitVec 7) (vel : Word) : (s.noteOn n vel).sinkFrames =
    s.sinkFrames := rfl
@[simp] theorem State.noteOn_hostReads (s : State) (n : BitVec 7) (vel : Word) : (s.noteOn n vel).hostReads =
    s.hostReads := rfl

/-! ### raise -/

@[simp] theorem State.raise_errs (s : State) (c : ErrCause) : (s.raise c).errs = s.errs.record c := by
  cases c <;> rfl

@[simp] theorem State.raise_params (s : State) (c : ErrCause) : (s.raise c).params = s.params := by cases c <;> rfl
@[simp] theorem State.raise_timer (s : State) (c : ErrCause) : (s.raise c).timer = s.timer := by cases c <;> rfl
@[simp] theorem State.raise_cursor (s : State) (c : ErrCause) : (s.raise c).cursor = s.cursor := by cases c <;> rfl
@[simp] theorem State.raise_pool (s : State) (c : ErrCause) : (s.raise c).pool = s.pool := by cases c <;> rfl
@[simp] theorem State.raise_evData (s : State) (c : ErrCause) : (s.raise c).evData = s.evData := by cases c <;> rfl
@[simp] theorem State.raise_cfg (s : State) (c : ErrCause) : (s.raise c).cfg = s.cfg := by cases c <;> rfl
@[simp] theorem State.raise_freq (s : State) (c : ErrCause) : (s.raise c).freq = s.freq := by cases c <;> rfl
@[simp] theorem State.raise_voices (s : State) (c : ErrCause) : (s.raise c).voices = s.voices := by cases c <;> rfl
@[simp] theorem State.raise_fifo (s : State) (c : ErrCause) : (s.raise c).fifo = s.fifo := by cases c <;> rfl
@[simp] theorem State.raise_inputs (s : State) (c : ErrCause) : (s.raise c).inputs = s.inputs := by cases c <;> rfl
@[simp] theorem State.raise_framesLeft (s : State) (c : ErrCause) : (s.raise c).framesLeft = s.framesLeft := by cases c <;> rfl
@[simp] theorem State.raise_sinkFrames (s : State) (c : ErrCause) : (s.raise c).sinkFrames = s.sinkFrames := by cases c <;> rfl
@[simp] theorem State.raise_hostReads (s : State) (c : ErrCause) : (s.raise c).hostReads = s.hostReads := by cases c <;> rfl

/-! ### advance and frame: what they leave alone -/

@[simp] theorem State.advance_params (s : State) : s.advance.params = s.params := by
  unfold State.advance
  split_ifs <;> rfl

@[simp] theorem State.advance_cursor (s : State) : s.advance.cursor = s.cursor := by
  unfold State.advance
  split_ifs <;> rfl

@[simp] theorem State.advance_pool (s : State) : s.advance.pool = s.pool := by
  unfold State.advance
  split_ifs <;> rfl

@[simp] theorem State.advance_evData (s : State) : s.advance.evData = s.evData := by
  unfold State.advance
  split_ifs <;> rfl

@[simp] theorem State.advance_cfg (s : State) : s.advance.cfg = s.cfg := by
  unfold State.advance
  split_ifs <;> rfl

@[simp] theorem State.advance_freq (s : State) : s.advance.freq = s.freq := by
  unfold State.advance
  split_ifs <;> rfl

@[simp] theorem State.advance_fifo (s : State) : s.advance.fifo = s.fifo := by
  unfold State.advance
  split_ifs <;> rfl

@[simp] theorem State.advance_inputs (s : State) : s.advance.inputs = s.inputs := by
  unfold State.advance
  split_ifs <;> rfl

@[simp] theorem State.advance_framesLeft (s : State) : s.advance.framesLeft = s.framesLeft := by
  unfold State.advance
  split_ifs <;> rfl

@[simp] theorem State.advance_hostReads (s : State) : s.advance.hostReads = s.hostReads := by
  unfold State.advance
  split_ifs <;> rfl

@[simp] theorem State.advance_sinkFrames (s : State) : s.advance.sinkFrames = s.sinkFrames := by
  unfold State.advance
  split_ifs <;> rfl

@[simp] theorem State.frame_params (s : State) : s.frame.params = s.params := by
  unfold State.frame
  split <;> simp

@[simp] theorem State.frame_cursor (s : State) : s.frame.cursor = s.cursor := by
  unfold State.frame
  split <;> simp

@[simp] theorem State.frame_pool (s : State) : s.frame.pool = s.pool := by
  unfold State.frame
  split <;> simp

@[simp] theorem State.frame_evData (s : State) : s.frame.evData = s.evData := by
  unfold State.frame
  split <;> simp

@[simp] theorem State.frame_cfg (s : State) : s.frame.cfg = s.cfg := by
  unfold State.frame
  split <;> simp

@[simp] theorem State.frame_freq (s : State) : s.frame.freq = s.freq := by
  unfold State.frame
  split <;> simp

@[simp] theorem State.frame_fifo (s : State) : s.frame.fifo = s.fifo := by
  unfold State.frame
  split <;> simp

@[simp] theorem State.frame_inputs (s : State) : s.frame.inputs = s.inputs := by
  unfold State.frame
  split <;> simp

@[simp] theorem State.frame_framesLeft (s : State) : s.frame.framesLeft = s.framesLeft := by
  unfold State.frame
  split <;> simp

@[simp] theorem State.frame_hostReads (s : State) : s.frame.hostReads = s.hostReads := by
  unfold State.frame
  split <;> simp

@[simp] theorem State.frame_sinkFrames (s : State) :
    s.frame.sinkFrames =
      s.sinkFrames ++ [if s.runState = .running then s.renderedFrame else s.silentFrame] := by
  unfold State.frame
  split <;> simp_all

/-! ### raise as a record update -/

theorem State.raise_of_ne (s : State) {c : ErrCause} (h : c ≠ .timerExh) :
    s.raise c = { s with errs := s.errs.record c } := by
  cases c <;> first | rfl | exact absurd rfl h

theorem State.raise_timerExh (s : State) :
    s.raise .timerExh = { s with errs := s.errs.record .timerExh, runState := .halted, faultMark := true } := rfl

end Sys2Proof.Machine
end

