-- ==== Sys2Proof/Laws/Ops.lean ====
section
/-! SUPPORT. What the shared operations do, said once: the voice file, the counters and the flags. -/

namespace Sys2Proof.Machine

/-! ### The voice file -/

theorem State.voiceAt_eq {s : State} {v : Nat} (h : v < s.voices.length) : s.voiceAt v = s.voices[v] := by
  simp [State.voiceAt, h]

theorem State.voiceAt_of_ge {s : State} {v : Nat} (h : s.voices.length ≤ v) : s.voiceAt v = Voice.reset := by
  simp [State.voiceAt, h]

theorem State.voiceAt_mem {s : State} {v : Nat} (h : v < s.voices.length) : s.voiceAt v ∈ s.voices := by
  simp [State.voiceAt_eq h]

/-- The voice file read after a write to one voice. -/
theorem getD_set_voice (l : List Voice) (v u : Nat) (x : Voice) :
    (l.set v x).getD u Voice.reset = if u = v ∧ v < l.length then x else l.getD u Voice.reset := by
  by_cases h : u = v
  · subst h
    by_cases h' : u < l.length <;> simp [h']
  · simp [h, Ne.symm h]

theorem State.voiceAt_setVoice (s : State) (v u : Nat) (x : Voice) :
    (s.setVoice v x).voiceAt u = if u = v ∧ v < s.voices.length then x else s.voiceAt u :=
  getD_set_voice _ _ _ _

theorem State.mapPool_voices_eq (s : State) (f : Voice → Voice) :
    (s.mapPool f).voices = s.voices.mapIdx fun v x => if v < s.pool.toNat then f x else x := by
  simp only [State.mapPool_voices]
  apply List.ext_getElem?
  intro i
  simp only [List.getElem?_append, List.getElem?_map, List.getElem?_take, List.getElem?_drop, List.getElem?_mapIdx,
    List.length_map, List.length_take]
  by_cases hi : i < s.pool.toNat
  · by_cases hl : i < s.voices.length
    · simp [hi, hl]
    · have h1 : s.voices.length ≤ i := by omega
      simp [hi, h1]
      omega
  · by_cases hl : i < s.voices.length
    · rw [if_neg (by omega), Nat.min_eq_left (by omega), show s.pool.toNat + (i - s.pool.toNat) = i by omega]
      simp [hi, hl]
    · have h1 : s.voices.length ≤ i := by omega
      have h2 : s.voices.length ≤ s.pool.toNat + (i - min s.pool.toNat s.voices.length) := by omega
      rw [if_neg (by omega)]
      simp [h1, h2]

@[simp] theorem State.mapPool_length (s : State) (f : Voice → Voice) : (s.mapPool f).voices.length = s.voices.length := by
  simp [State.mapPool_voices_eq, -State.mapPool_voices]

/-- Every voice of the pool is changed, and no other (R50). -/
theorem State.voiceAt_mapPool (s : State) (f : Voice → Voice) (v : Nat) :
    (s.mapPool f).voiceAt v =
      if v < s.pool.toNat ∧ v < s.voices.length then f (s.voiceAt v) else s.voiceAt v := by
  unfold State.voiceAt
  rw [State.mapPool_voices_eq]
  by_cases hl : v < s.voices.length <;> by_cases hp : v < s.pool.toNat <;> simp [hl, hp]

theorem State.mem_mapPool {s : State} {f : Voice → Voice} {x : Voice} (h : x ∈ (s.mapPool f).voices) :
    (∃ y ∈ s.voices, x = f y) ∨ x ∈ s.voices := by
  simp only [State.mapPool_voices, List.mem_append, List.mem_map] at h
  rcases h with ⟨y, hy, rfl⟩ | h
  · exact .inl ⟨y, List.mem_of_mem_take hy, rfl⟩
  · exact .inr (List.mem_of_mem_drop h)

theorem State.drop_mapPool (s : State) (f : Voice → Voice) :
    (s.mapPool f).voices.drop s.pool.toNat = s.voices.drop s.pool.toNat := by
  rw [State.mapPool_voices_eq]
  apply List.ext_getElem?
  intro i
  simp

theorem State.poolVoices_mapPool (s : State) (f : Voice → Voice) :
    (s.mapPool f).poolVoices = s.poolVoices.map f := by
  unfold State.poolVoices
  rw [State.mapPool_pool, State.mapPool_voices_eq]
  apply List.ext_getElem?
  intro i
  by_cases hi : i < s.pool.toNat <;> simp [hi]

/-! ### The counters and the flags -/

theorem satInc32_eq (x : Word) : satInc32 x = BitVec.ofNat 32 (min (x.toNat + 1) (2 ^ 32 - 1)) := by
  unfold satInc32
  have hx := x.isLt
  split_ifs with h
  · subst h; rfl
  · apply BitVec.eq_of_toNat_eq
    have : x.toNat ≠ 4294967295 := fun hh => h (BitVec.eq_of_toNat_eq (by simpa using hh))
    simp only [BitVec.toNat_add, BitVec.toNat_ofNat]
    omega

theorem flagBit_toNat (b : Bool) {i : Nat} (h : i < 32) : (flagBit b i).toNat = b.toNat * 2 ^ i := by
  have h2 : 2 ^ i < 2 ^ 32 := Nat.pow_lt_pow_right (by norm_num) h
  cases b
  · simp [flagBit]
  · simp [flagBit, BitVec.toNat_shiftLeft, Nat.shiftLeft_eq]
    omega

/-- BUS_INFO as a number (R28). -/
theorem busInfoWord_toNat (off : BitVec 12) (write : Bool) (size : BusSize) :
    (busInfoWord off write size).toNat = off.toNat + 4096 * write.toNat + 65536 * size.bytes := by
  have h : ∀ k : Nat, off.toNat ||| 4096 * k = off.toNat + 4096 * k := fun k => by
    rw [Nat.or_comm, Nat.add_comm]
    exact (Nat.two_pow_add_eq_or_of_lt (i := 12) off.isLt k).symm
  have hw : (busInfoWord off write size).toNat = off.toNat ||| 4096 * (write.toNat + 16 * size.bytes) := by
    unfold busInfoWord
    rw [BitVec.or_assoc, BitVec.toNat_or, BitVec.toNat_setWidth, Nat.mod_eq_of_lt (by have := off.isLt; omega)]
    congr 1
    cases write <;> cases size <;> rfl
  rw [hw, h]
  ring

/-! ### Legal transactions -/

theorem busLegal_iff {size : BusSize} {off : BitVec 12} :
    busLegal size off = true ↔ size.bytes = 4 ∧ off.toNat % 4 = 0 := by
  have h : off.extractLsb' 0 2 = 0#2 ↔ off.toNat % 4 = 0 := by
    rw [← BitVec.toNat_inj]
    simp
  cases size <;> simp [busLegal, BusSize.bytes, h]

theorem busLegal_b4 {off : BitVec 12} (h : off.toNat % 4 = 0) : busLegal .b4 off = true := busLegal_iff.mpr ⟨rfl, h⟩

end Sys2Proof.Machine
end

