-- ==== Sys2Proof/Laws/Oscillator.lean ====
section
/-! SUPPORT. The oscillator and the mix: SINCOS in [−1, 1] (R13), the phase in [0, 1) (R137 (a)), the waveforms in
[−1, 1] (R137 (c)) and the accumulators within the pool size (R155). -/

namespace Sys2Proof.Laws

open Sys2Proof.Machine

/-! ### SINCOS -/

theorem bip_one : Bip (fltLit 1) := pos01_one.unit01.bip

theorem bip_zero : Bip fltZero := pos01_zero.unit01.bip

theorem bip_neg_one : Bip (fltLit 1).neg := ⟨true, fltUnit, by rw [fltLit_one]; rfl, le_refl _⟩

/-- SC1 of R13. -/
theorem sincos_bip (t : Flt) : Bip (sincos t).1 ∧ Bip (sincos t).2 := by
  unfold sincos
  split
  · rename_i p hp
    unfold quarterTurn at hp
    split_ifs at hp <;> obtain rfl := Option.some.inj hp
    · exact ⟨bip_zero, bip_one⟩
    · exact ⟨bip_one, bip_zero⟩
    · exact ⟨bip_zero, bip_neg_one⟩
    · exact ⟨bip_neg_one, bip_zero⟩
  · exact ⟨clamp_bip _, clamp_bip _⟩

/-! ### The phase -/

/-- `[0, 1)` with the positive sign: what a phase is. -/
def Fraction (x : Flt) : Prop := ∃ m, x = .fin false m ∧ m < fltUnit

theorem fraction_zero : Fraction fltZero := ⟨0, rfl, fltUnit_pos⟩

theorem phase_fraction (sr : Word) (f : Flt) (c : Count) : Fraction (phase sr f c) := by
  unfold phase
  simp only
  split_ifs with hf h1
  · exact fraction_zero
  · exact fraction_zero
  · rcases f with _ | s | ⟨s, mf⟩
    · simp [Flt.lt, Flt.isNan] at hf
    · exfalso
      cases s <;> simp [Flt.lt, Flt.isNan, Flt.place, signedMag, fltZero] at hf
    · cases s
      · obtain ⟨d, hd, hdu⟩ := srEff_fin sr
        have hu := fltUnit_pos
        obtain ⟨m, hm, -, -⟩ := fltOfNat_fin (n := c.toNat % periodSamples sr (.fin false mf))
          (by have := Nat.mod_le c.toNat (periodSamples sr (.fin false mf)); omega)
        rw [hm, hd] at h1 ⊢
        have hn : NonnegOrInf (((Flt.fin false m).mul (.fin false mf)).div (.fin false d)) := by
          simp only [Flt.mul, Bool.xor_false]
          obtain h | ⟨k, h⟩ := roundFlt_false (m * mf) fltUnit
          · rw [h]; exact .inl rfl
          · rw [h]; exact div_nonneg (by omega)
        obtain h | ⟨k, h⟩ := hn <;> rw [h] at h1 ⊢
        · exfalso
          apply h1
          have := fltUnit_lt_overflow
          simp [Flt.le, Flt.isNan, fltLit_one, Flt.place, signedMag]
          omega
        · refine ⟨k, rfl, ?_⟩
          simp [Flt.le, Flt.isNan, fltLit_one, Flt.place, signedMag] at h1
          omega
      · exfalso
        simp [Flt.lt, Flt.isNan, Flt.place, signedMag, fltZero] at hf

theorem good_phase (sr : Word) (f : Flt) (c : Count) : Good (phase sr f c) := by
  unfold phase
  simp only
  split_ifs
  · exact good_fltZero
  · exact good_fltZero
  · exact good_div

/-! ### The waveforms -/

/-- A corner count as R133 gives it: a finite value in [2, 65536]. -/
theorem clamp_corner (x : Flt) :
    ∃ m, clamp x nMin nMax = .fin false m ∧ 2 * fltUnit ≤ m ∧ m ≤ 65536 * fltUnit := by
  have hu := fltUnit_pos
  have hn : nMin = .fin false (2 * fltUnit) := rfl
  have hx : nMax = .fin false (65536 * fltUnit) := rfl
  unfold clamp
  split_ifs with h1 h2 h3
  · exact ⟨_, hn, le_refl _, by omega⟩
  · exact ⟨_, hn, le_refl _, by omega⟩
  · exact ⟨_, hx, by omega, le_refl _⟩
  · rw [hn] at h2
    rw [hx] at h3
    rcases x with _ | s | ⟨s, m⟩
    · simp [Flt.isNan] at h1
    all_goals cases s
    all_goals simp [Flt.le, Flt.isNan, Flt.place, signedMag] at h2 h3
    · unfold fltOverflow at h3; omega
    · unfold fltOverflow at h2; omega
    · exact ⟨_, rfl, by omega, by omega⟩
    · omega

/-- A legal corner count (R133) in normal form. -/
theorem corner_of_le {n : Flt} (h1 : nMin.le n = true) (h2 : n.le nMax = true) :
    ∃ m, n = .fin false m ∧ 2 * fltUnit ≤ m ∧ m ≤ 65536 * fltUnit := by
  have hu := fltUnit_pos
  have ho : 65536 * fltUnit < fltOverflow := by unfold fltOverflow; omega
  rcases n with _ | s | ⟨s, m⟩
  · simp [Flt.le, Flt.isNan] at h1
  · exfalso
    cases s <;> simp [Flt.le, Flt.isNan, Flt.place, signedMag, nMin, nMax, fltLit] at h1 h2 <;> omega
  · cases s <;> simp [Flt.le, Flt.isNan, Flt.place, signedMag, nMin, nMax, fltLit] at h1 h2
    · exact ⟨m, rfl, by omega, by omega⟩
    · omega

/-- `1/n` for a corner count: a finite value in [2^-16, 1/2]. -/
theorem one_div_corner {n : Nat} (h2 : 2 * fltUnit ≤ n) (hx : n ≤ 65536 * fltUnit) :
    ∃ s, (fltLit 1).div (.fin false n) = .fin false s ∧ 2 ^ 133 ≤ s ∧ s ≤ fltUnit ∧ Sig s := by
  have hu := fltUnit_pos
  have ho := fltUnit_lt_overflow
  have e : (2 : Nat) ^ 133 * 65536 = fltUnit := by norm_num [fltUnit]
  have hle : roundMag (fltUnit * fltUnit) n ≤ fltUnit :=
    roundMag_le (by omega) sig_unit (Nat.mul_le_mul_left _ (by omega))
  have hge : 2 ^ 133 ≤ roundMag (fltUnit * fltUnit) n := by
    refine le_roundMag (by omega) ⟨1, 133, by norm_num, by norm_num⟩ ?_
    calc 2 ^ 133 * n ≤ 2 ^ 133 * (65536 * fltUnit) := Nat.mul_le_mul_left _ hx
      _ = fltUnit * fltUnit := by rw [← Nat.mul_assoc, e]
  refine ⟨_, ?_, hge, hle, roundMag_sig (by omega)⟩
  rw [fltLit_one]
  simp only [Flt.div, if_neg (show n ≠ 0 by omega), Bool.xor_false]
  exact roundFlt_small (by omega)

/-- The progress within a segment of the polygon is in [0, 1] (R132). -/
theorem progress_pos01 {p s : Nat} (hp : p ≤ fltUnit) (hs : 2 ^ 133 ≤ s) :
    ∃ q, (Flt.fin false p).div (.fin false s) = .fin false q ∧
      Pos01 ((Flt.fin false q).sub (fltFloor (.fin false q))) := by
  have hu := fltUnit_pos
  have e : (2 : Nat) ^ 133 * 65536 = fltUnit := by norm_num [fltUnit]
  have hle : roundMag (p * fltUnit) s ≤ 65536 * fltUnit := by
    refine roundMag_le (by omega) (sig_mul_unit (by norm_num)) ?_
    nlinarith
  have ho : 65536 * fltUnit < fltOverflow := by unfold fltOverflow; omega
  refine ⟨roundMag (p * fltUnit) s, ?_, ?_⟩
  · simp only [Flt.div, if_neg (show s ≠ 0 by omega), Bool.xor_false]
    exact roundFlt_small (by omega)
  · generalize roundMag (p * fltUnit) s = q
    have hm := Nat.div_add_mod q fltUnit
    have hlt := Nat.mod_lt q hu
    have hz : signedMag false q + signedMag (!false) (q / fltUnit * fltUnit) = ((q % fltUnit : Nat) : Int) := by
      rw [Nat.mul_comm] at hm
      have : (q / fltUnit * fltUnit) + q % fltUnit = q := hm
      generalize q / fltUnit * fltUnit = a at *
      generalize q % fltUnit = b at *
      simp [signedMag]
      omega
    have hr : roundMag (q % fltUnit) 1 ≤ fltUnit := roundMag_le one_pos sig_unit (by omega)
    have := fltUnit_lt_overflow
    simp only [fltFloor, Flt.sub, Flt.neg]
    rw [add_fin (by rw [hz, Int.natAbs_natCast]; omega), hz]
    split_ifs
    · exact pos01_zero
    · rw [Int.natAbs_natCast]
      refine ⟨_, ?_, hr, roundMag_sig one_pos⟩
      rw [decide_eq_false (by omega)]

theorem polygon_bip {n p : Nat} (h2 : 2 * fltUnit ≤ n) (hx : n ≤ 65536 * fltUnit) (hp : p ≤ fltUnit) :
    Bip (polygon (.fin false n) (.fin false p)).1 ∧ Bip (polygon (.fin false n) (.fin false p)).2 := by
  obtain ⟨s, hs, hs1, hs2, -⟩ := one_div_corner h2 hx
  obtain ⟨q, hq, hpr⟩ := progress_pos01 hp hs1
  unfold polygon lerpPair
  simp only [hs, hq]
  exact ⟨lerp_bip (sincos_bip _).1 (sincos_bip _).1 hpr.unit01 hpr.good,
    lerp_bip (sincos_bip _).2 (sincos_bip _).2 hpr.unit01 hpr.good⟩

/-- R137 (c): both components of the oscillator lie in [−1, 1]. -/
theorem oscOut_bip (c : CfgRegs) (freq : List Word) (x : Voice) (t : Count) :
    Bip (oscOut c freq x t).1 ∧ Bip (oscOut c freq x t).2 := by
  unfold oscOut
  simp only
  split
  · exact sincos_bip _
  · obtain ⟨p, hp, hpu⟩ := phase_fraction c.sampleRate (freqOf freq x.note) t
    obtain ⟨n, hn, h2, hx⟩ := clamp_corner ((f32 c.corners).add (lfoValue c x))
    unfold cornerCount
    rw [hp, hn]
    exact polygon_bip h2 hx hpu.le

/-! ### The mix -/

/-- A fold over a list, written as the sequence of its values. -/
theorem foldl_steps {α β : Type} (f : β → α → β) (b : β) (l : List α) (d : α) :
    ∃ acc : Nat → β, acc 0 = b ∧ (∀ v < l.length, acc (v + 1) = f (acc v) (l.getD v d)) ∧
      l.foldl f b = acc l.length := by
  refine ⟨fun v => (l.take v).foldl f b, by simp, ?_, by simp⟩
  intro v hv
  simp only
  rw [List.take_add_one, List.foldl_append]
  simp [hv]

/-- Within ±k (R155). -/
def Within (k : Nat) (x : Flt) : Prop := ∃ s m, x = .fin s m ∧ m ≤ k * fltUnit

theorem add_within {k : Nat} {x y : Flt} (hk : k + 1 ≤ 2 ^ 24) (hx : Within k x) (hy : Bip y) :
    Within (k + 1) (x.add y) := by
  obtain ⟨s, m, rfl, hm⟩ := hx
  obtain ⟨s', m', rfl, hm'⟩ := hy
  have hn : (signedMag s m + signedMag s' m').natAbs ≤ (k + 1) * fltUnit := by
    unfold signedMag; split_ifs <;> rw [Nat.add_mul] <;> omega
  have hr : roundMag (signedMag s m + signedMag s' m').natAbs 1 ≤ (k + 1) * fltUnit :=
    roundMag_le one_pos (sig_mul_unit hk) (by omega)
  have ho : (k + 1) * fltUnit < fltOverflow := by
    have : (k + 1) * fltUnit ≤ 2 ^ 24 * fltUnit := Nat.mul_le_mul_right _ hk
    have := fltUnit_pos
    unfold fltOverflow
    omega
  rw [add_fin (by omega)]
  split_ifs
  · exact ⟨_, _, rfl, Nat.zero_le _⟩
  · exact ⟨_, _, rfl, hr⟩

theorem mixVoice_within {c : CfgRegs} {freq : List Word} {t : Count} {acc : Flt × Flt} {x : Voice} {k : Nat}
    (hk : k + 1 ≤ 2 ^ 24) (h : Within k acc.1 ∧ Within k acc.2)
    (hx : velocityLegal x.level0 = true ∧ velocityLegal x.vel = true) :
    Within (k + 1) (mixVoice c freq t acc x).1 ∧ Within (k + 1) (mixVoice c freq t acc x).2 := by
  have hg : Bip ((envLevel c x t).mul (f32 x.vel)) :=
    (mul_unit01 (envLevel_pos01 hx.1).unit01 (velocityLegal_iff.1 hx.2)).bip
  have ho := oscOut_bip c freq x t
  exact ⟨add_within hk h.1 (mul_bip hg ho.1), add_within hk h.2 (mul_bip hg ho.2)⟩

theorem foldl_mix_within {c : CfgRegs} {freq : List Word} {t : Count} (xs : List Voice) :
    ∀ (acc : Flt × Flt) (k : Nat), k + xs.length ≤ 2 ^ 24 → Within k acc.1 ∧ Within k acc.2 →
    (∀ x ∈ xs, velocityLegal x.level0 = true ∧ velocityLegal x.vel = true) →
    Within (k + xs.length) (xs.foldl (mixVoice c freq t) acc).1 ∧
      Within (k + xs.length) (xs.foldl (mixVoice c freq t) acc).2 := by
  induction xs with
  | nil => intro acc k _ h _; exact h
  | cons x xs ih =>
    intro acc k hk h hx
    rw [List.length_cons] at hk ⊢
    have h1 := mixVoice_within (c := c) (freq := freq) (t := t) (by omega) h (hx x (by simp))
    have := ih _ (k + 1) (by omega) h1 fun y hy => hx y (by simp [hy])
    rwa [show k + (xs.length + 1) = k + 1 + xs.length by omega]

theorem mul_fin_not_nan {s s' : Bool} {m m' : Nat} : ((Flt.fin s m).mul (.fin s' m')).isNan = false :=
  roundFlt_not_nan _ _ _

end Sys2Proof.Laws
end

