-- ==== Sys2Proof/Laws/PerInstr.lean ====
section
/-! SUPPORT. Facts stated for every operation, one lemma per constructor: the encoded word of an operation stands in its row of
spec/opcode_table.json. -/

namespace Sys2Proof.Laws

/-- The row of spec/opcode_table.json an operation belongs to: the mask and the match of its first word. The bus rows are
those of legal transactions; the descriptor stands in the low 16 bits. -/
def TableRow.row : Instr → Word × Word
  | .noteOn _ _ => (0xFFFFFF80#32, 0x01000000#32)
  | .noteOff _ => (0xFFFFFF80#32, 0x02000000#32)
  | .dbgBypassOn _ => (0xFFFFFF00#32, 0x10000000#32)
  | .dbgBypassOff _ => (0xFFFFFF00#32, 0x11000000#32)
  | .busRead _ _ => (0xF003#32, 0x2000#32)
  | .busWrite _ _ _ => (0xF003#32, 0xA000#32)
  | .render _ => (0#32, 0#32)

/-- The first word of an operation, as the table numbers its bits. -/
def TableRow.firstWord (i : Instr) : Word :=
  match encode i with
  | .event cmd _ => cmd
  | .bus desc _ => desc.setWidth 32
  | .render frames => frames

/-- The table's bus rows describe legal transactions only (R87). -/
def TableRow.legal : Instr → Bool
  | .noteOn _ _ => true
  | .noteOff _ => true
  | .dbgBypassOn _ => true
  | .dbgBypassOff _ => true
  | .busRead size off => busLegal size off
  | .busWrite size off _ => busLegal size off
  | .render _ => true

/-- A legal operation's first word matches its row of the opcode table. -/
def TableRow.Statement (i : Instr) : Prop :=
  TableRow.legal i = true → TableRow.firstWord i &&& (TableRow.row i).1 = (TableRow.row i).2

/-- A note number below 128 leaves bit 7 of the CMD word clear. -/
theorem TableRow.note_masked (op : BitVec 8) (note : BitVec 7) :
    cmdWord op (note.setWidth 8) &&& 0xFFFFFF80#32 = cmdWord op 0#8 := by
  have h : note.setWidth 8 &&& 0x80#8 = 0#8 := by
    revert note
    decide
  calc cmdWord op (note.setWidth 8) &&& 0xFFFFFF80#32
      = (op ++ 0#16 ++ note.setWidth 8) &&& (0xFF#8 ++ 0xFFFF#16 ++ 0x80#8) := rfl
    _ = cmdWord op 0#8 := by
        rw [BitVec.and_append, BitVec.and_append, h, show op &&& 0xFF#8 = op from BitVec.and_allOnes]
        rfl

/-- The voice index takes all of ARG. -/
theorem TableRow.voice_masked (op voice : BitVec 8) : cmdWord op voice &&& 0xFFFFFF00#32 = cmdWord op 0#8 := by
  calc cmdWord op voice &&& 0xFFFFFF00#32
      = (op ++ 0#16 ++ voice) &&& (0xFF#8 ++ 0xFFFF#16 ++ 0x00#8) := rfl
    _ = cmdWord op 0#8 := by
        rw [BitVec.and_append, BitVec.and_append, BitVec.and_zero, show op &&& 0xFF#8 = op from BitVec.and_allOnes]
        rfl

/-- The descriptor of a legal transaction. -/
theorem TableRow.desc_masked (write : Bool) {size : BusSize} {off : BitVec 12} (h : busLegal size off = true) :
    busDesc write size off &&& 0xF003#16 = BitVec.ofBool write ++ 2#3 ++ 0#12 := by
  simp only [busLegal, Bool.and_eq_true, decide_eq_true_eq] at h
  obtain ⟨rfl, h⟩ := h
  have ho : off &&& 0x003#12 = 0#12 := by
    have h4 : off.toNat % 4 = 0 := by
      have := congrArg BitVec.toNat h
      simpa using this
    apply BitVec.eq_of_toNat_eq
    simpa using (Nat.and_two_pow_sub_one_eq_mod off.toNat 2).trans h4
  calc busDesc write .b4 off &&& 0xF003#16
      = (BitVec.ofBool write ++ 2#3 ++ off) &&& (1#1 ++ 7#3 ++ 0x003#12) := rfl
    _ = BitVec.ofBool write ++ 2#3 ++ 0#12 := by
        rw [BitVec.and_append, BitVec.and_append, ho]
        cases write <;> rfl

theorem TableRow.desc_row {desc : BitVec 16} {m : BitVec 16} (h : desc &&& 0xF003#16 = m) :
    desc.setWidth 32 &&& 0xF003#32 = m.setWidth 32 := by
  rw [← h, BitVec.setWidth_and]
  rfl

theorem TableRow.noteOn (note : BitVec 7) (vel : Word) : TableRow.Statement (.noteOn note vel) :=
  fun _ => TableRow.note_masked 0x01#8 note

theorem TableRow.noteOff (note : BitVec 7) : TableRow.Statement (.noteOff note) :=
  fun _ => TableRow.note_masked 0x02#8 note

theorem TableRow.dbgBypassOn (voice : BitVec 8) : TableRow.Statement (.dbgBypassOn voice) :=
  fun _ => TableRow.voice_masked 0x10#8 voice

theorem TableRow.dbgBypassOff (voice : BitVec 8) : TableRow.Statement (.dbgBypassOff voice) :=
  fun _ => TableRow.voice_masked 0x11#8 voice

theorem TableRow.busRead (size : BusSize) (off : BitVec 12) : TableRow.Statement (.busRead size off) :=
  fun h => TableRow.desc_row (TableRow.desc_masked false h)

theorem TableRow.busWrite (size : BusSize) (off : BitVec 12) (wdata : BitVec 64) :
    TableRow.Statement (.busWrite size off wdata) :=
  fun h => TableRow.desc_row (TableRow.desc_masked true h)

theorem TableRow.render (frames : Word) : TableRow.Statement (.render frames) :=
  fun _ => BitVec.and_zero

end Sys2Proof.Laws
end

