-- ==== Sys2Proof/Laws/Pool.lean ====
section
/-! SUPPORT. The voice pool: which voice a NOTE_ON takes, and what it does to the voice file. -/

namespace Sys2Proof.Machine

theorem Voice.holds_iff {n : BitVec 7} {x : Voice} : x.holds n = true ↔ x.noteValid = true ∧ x.note = n := by
  simp [Voice.holds]

/-- The pool lies within the voice file. -/
theorem State.Shape.pool_le {s : State} (h : s.Shape) : s.pool.toNat ≤ s.voices.length := by
  obtain ⟨-, hv, -, -, hp, -, -⟩ := h
  omega

theorem State.Shape.pool_pos {s : State} (h : s.Shape) (hr : s.runState ≠ .config) : 0 < s.pool.toNat := by
  obtain ⟨-, -, -, -, -, hc, -⟩ := h
  rcases Nat.eq_zero_or_pos s.pool.toNat with h0 | h0
  · exact absurd (hc.mpr (BitVec.eq_of_toNat_eq h0)) hr
  · exact h0

theorem State.Shape.cursor_lt {s : State} (h : s.Shape) (hr : s.runState ≠ .config) :
    s.cursor.toNat < s.pool.toNat := by
  have hp := h.pool_pos hr
  obtain ⟨-, -, -, -, -, -, hc⟩ := h
  omega

theorem State.poolVoices_length {s : State} (h : s.pool.toNat ≤ s.voices.length) :
    s.poolVoices.length = s.pool.toNat := by
  simp [State.poolVoices, h]

theorem State.poolVoices_getElem {s : State} {v : Nat} (h : v < s.poolVoices.length) :
    s.poolVoices[v] = s.voiceAt v := by
  have hv : v < s.voices.length := by
    simp only [State.poolVoices, List.length_take] at h
    omega
  simp [State.poolVoices, State.voiceAt_eq hv]

/-- A hit is the lowest pool voice that holds the note (R141, step 1). -/
theorem State.hit_some {s : State} {n : BitVec 7} {v : Nat} (hp : s.pool.toNat ≤ s.voices.length)
    (h : s.hit n = some v) :
    v < s.pool.toNat ∧ (s.voiceAt v).holds n = true ∧ ∀ u < v, (s.voiceAt u).holds n = false := by
  obtain ⟨hl, hv, hu⟩ := List.findIdx?_eq_some_iff_getElem.mp h
  rw [State.poolVoices_getElem] at hv
  refine ⟨by rwa [State.poolVoices_length hp] at hl, hv, fun u h' => ?_⟩
  have := hu u h'
  rw [State.poolVoices_getElem] at this
  simpa using this

/-- Without a hit no pool voice holds the note (R141, step 2). -/
theorem State.hit_none {s : State} {n : BitVec 7} (hp : s.pool.toNat ≤ s.voices.length) :
    s.hit n = none ↔ ∀ v < s.pool.toNat, (s.voiceAt v).holds n = false := by
  unfold State.hit
  rw [List.findIdx?_eq_none_iff, List.forall_mem_iff_forall_getElem]
  have hl := State.poolVoices_length hp
  constructor
  · intro h v hv
    have := h v (by omega)
    rwa [State.poolVoices_getElem] at this
  · intro h v hv
    rw [State.poolVoices_getElem]
    exact h v (by omega)

/-- The voice taken lies in the pool. -/
theorem State.chosen_lt {s : State} (h : s.Shape) (hr : s.runState ≠ .config) (n : BitVec 7) :
    s.chosen n < s.pool.toNat := by
  unfold State.chosen
  rcases hh : s.hit n with _ | v
  · exact h.cursor_lt hr
  · exact (State.hit_some h.pool_le hh).1

/-- A NOTE_ON writes the voice it takes, and no other (R141). -/
theorem State.voiceAt_noteOn (s : State) (n : BitVec 7) (vel : Word) (u : Nat) :
    (s.noteOn n vel).voiceAt u =
      if u = s.chosen n ∧ s.chosen n < s.voices.length then
        (s.voiceAt (s.chosen n)).strike s.cfg s.timer n vel
      else s.voiceAt u :=
  getD_set_voice _ _ _ _

@[simp] theorem Voice.strike_note (c : CfgRegs) (now : Count) (n : BitVec 7) (vel : Word) (x : Voice) :
    (x.strike c now n vel).note = n := by
  unfold Voice.strike Voice.hold
  split <;> rfl

@[simp] theorem Voice.strike_noteValid (c : CfgRegs) (now : Count) (n : BitVec 7) (vel : Word) (x : Voice) :
    (x.strike c now n vel).noteValid = true := by
  unfold Voice.strike Voice.hold
  split <;> rfl

@[simp] theorem Voice.strike_vel (c : CfgRegs) (now : Count) (n : BitVec 7) (vel : Word) (x : Voice) :
    (x.strike c now n vel).vel = vel := by
  unfold Voice.strike Voice.hold
  split <;> rfl

@[simp] theorem Voice.strike_lfo (c : CfgRegs) (now : Count) (n : BitVec 7) (vel : Word) (x : Voice) :
    (x.strike c now n vel).lfo = 0#64 := rfl

theorem Voice.strike_bypass {c : CfgRegs} {now : Count} {n : BitVec 7} {vel : Word} {x : Voice}
    (h : x.env = .bypass) :
    (x.strike c now n vel).env = .bypass ∧ (x.strike c now n vel).level0 = x.level0 ∧
      (x.strike c now n vel).start = x.start := by
  simp [Voice.strike, Voice.hold, h]

/-- The level does not depend on the note and the velocity. -/
theorem envLevel_note (c : CfgRegs) (x : Voice) (now : Count) (n : BitVec 7) (b : Bool) (vel : Word) :
    envLevel c { x with note := n, noteValid := b, vel := vel } now = envLevel c x now := rfl

theorem Voice.strike_held {c : CfgRegs} {now : Count} {n : BitVec 7} {vel : Word} {x : Voice}
    (h : x.env ≠ .bypass) :
    (x.strike c now n vel).env = .held ∧ (x.strike c now n vel).level0 = bits (envLevel c x now) ∧
      (x.strike c now n vel).start = now := by
  unfold Voice.strike Voice.hold
  split
  · exact absurd ‹_› h
  · exact ⟨rfl, congrArg bits (envLevel_note c x now n true vel), rfl⟩

/-- `(CURSOR + 1) mod POOL` fits the register (R30, R141). -/
theorem State.nextCursor_toNat {s : State} (h : s.Shape) (hr : s.runState ≠ .config) :
    s.nextCursor.toNat = (s.cursor.toNat + 1) % s.pool.toNat := by
  have h1 := Nat.mod_lt (s.cursor.toNat + 1) (h.pool_pos hr)
  obtain ⟨⟨-, hm, -⟩, -, -, -, hp, -, -⟩ := h
  rw [State.nextCursor, BitVec.toNat_ofNat]
  exact Nat.mod_eq_of_lt (by omega)

end Sys2Proof.Machine
end

