-- ==== Sys2Proof/Laws/RegMap.lean ====
section
/-! SUPPORT. Which register stands at an offset (R22), said once for each block of the map. -/

namespace Sys2Proof.Machine

theorem regAt_freq {n : Nat} (h : n < 128) : regAt (BitVec.ofNat 12 (0x800 + 4 * n)) = .freq n := by
  unfold regAt
  simp only [BitVec.toNat_ofNat]
  rw [Nat.mod_eq_of_lt (by omega), if_neg (by omega), if_neg (by omega), if_pos (by omega)]
  congr 1
  omega

theorem regAt_window {v k : Nat} (hv : v < 32) (hk : k < 8) :
    regAt (BitVec.ofNat 12 (0x400 + 0x20 * v + 4 * k)) = .window v (winWordAt k) := by
  unfold regAt
  simp only [BitVec.toNat_ofNat]
  rw [Nat.mod_eq_of_lt (by omega), if_neg (by omega), if_pos (by omega)]
  congr 2 <;> omega

/-- The configuration registers, 0x040–0x06C. -/
theorem regAt_cfg {off : BitVec 12} (h : 0x040 ≤ off.toNat) (h' : off.toNat ≤ 0x06F) : ∃ r, regAt off = .cfg r := by
  unfold regAt
  simp only [show off.toNat < 0x400 by omega, if_true]
  obtain ⟨k, hk, h1, h2⟩ : ∃ k, off.toNat / 4 = k ∧ 16 ≤ k ∧ k ≤ 27 := ⟨_, rfl, by omega, by omega⟩
  rw [hk]
  interval_cases k <;> exact ⟨_, rfl⟩

theorem regAt_freq_of_range {off : BitVec 12} (h : 0x800 ≤ off.toNat) (h' : off.toNat < 0xA00) :
    regAt off = .freq ((off.toNat - 0x800) / 4) := by
  unfold regAt
  rw [if_neg (by omega), if_neg (by omega), if_pos (by omega)]

theorem regAt_window_of_range {off : BitVec 12} (h : 0x400 ≤ off.toNat) (h' : off.toNat < 0x800) :
    regAt off = .window ((off.toNat - 0x400) / 32) (winWordAt (off.toNat / 4 % 8)) := by
  unfold regAt
  rw [if_neg (by omega), if_pos (by omega)]

theorem regAt_reserved_low {off : BitVec 12} (h : 0x070 ≤ off.toNat) (h' : off.toNat < 0x400) :
    regAt off = .reserved := by
  unfold regAt
  rw [if_pos h']
  obtain ⟨k, hk, h1⟩ : ∃ k, off.toNat / 4 = k ∧ 28 ≤ k := ⟨_, rfl, by omega⟩
  rw [hk]
  unfold lowRegAt
  split <;> first | omega | rfl

theorem regAt_reserved_high {off : BitVec 12} (h : 0xA00 ≤ off.toNat) : regAt off = .reserved := by
  unfold regAt
  rw [if_neg (by omega), if_neg (by omega), if_neg (by omega)]

/-- CTRL stands at one legal offset only. -/
theorem regAt_eq_ctrl {off : BitVec 12} (h : regAt off = .ctrl) (h4 : off.toNat % 4 = 0) : off = 0x004#12 := by
  unfold regAt at h
  simp only at h
  split_ifs at h with h1
  have hk : off.toNat / 4 = 1 := by
    generalize off.toNat / 4 = k at h
    unfold lowRegAt at h
    split at h <;> first | rfl | cases h
  apply BitVec.eq_of_toNat_eq
  simp only [BitVec.toNat_ofNat]
  omega

/-! ### The two words of a counter -/

theorem count_words (x : Count) : x.extractLsb' 32 32 ++ x.extractLsb' 0 32 = x := by
  apply BitVec.eq_of_toNat_eq
  have h := x.isLt
  rw [BitVec.toNat_append, Nat.shiftLeft_eq, Nat.mul_comm,
    ← Nat.two_pow_add_eq_or_of_lt (BitVec.isLt _)]
  simp only [BitVec.extractLsb'_toNat, Nat.shiftRight_eq_div_pow]
  omega

end Sys2Proof.Machine
end

