-- ==== Sys2Proof/Laws/Step.lean ====
section
/-! SUPPORT. What a step can do, said once: the cases of a step, and the elementary moves every step is made of. -/

namespace Sys2Proof.Machine

/-! ### The cases of a step -/

/-- The state a legal or illegal write leaves. -/
def State.afterWrite (s : State) (size : BusSize) (off : BitVec 12) (wdata : BitVec 64) : State :=
  if busLegal size off then s.writeWord off (wdata.setWidth 32) else s.raise (.bus off true size)

/-- The state a read leaves. -/
def State.afterRead (s : State) (size : BusSize) (off : BitVec 12) : State :=
  if busLegal size off then s.returnRead (s.readWord off) else (s.raise (.bus off false size)).returnRead 0#32

theorem exec_busWrite (s : State) (size : BusSize) (off : BitVec 12) (wdata : BitVec 64) :
    exec (.busWrite size off wdata) s = .next (s.afterWrite size off wdata) := rfl

theorem exec_busRead (s : State) (size : BusSize) (off : BitVec 12) :
    exec (.busRead size off) s = .next (s.afterRead size off) := rfl

theorem exec_render (s : State) (frames : Word) :
    exec (.render frames) s = .next ({ s with framesLeft := frames.toNat } : State).drain := rfl

/-- A frame step when it is the Engine's turn with frames owed, else nothing. -/
theorem State.engineTurn_cases (s : State) :
    (s.framesLeft = 0 ∧ s.engineTurn = s) ∨
    (0 < s.framesLeft ∧ s.engineTurn = ({ s with framesLeft := s.framesLeft - 1 } : State).frame) := by
  unfold State.engineTurn
  split_ifs with h
  · exact .inl ⟨h, rfl⟩
  · exact .inr ⟨Nat.pos_of_ne_zero h, rfl⟩

/-- The words of a bus transaction decode to one of the two bus operations, or are refused for their SIZE. -/
theorem decodeBus_cases (desc : BitVec 16) (wdata : BitVec 64) :
    (∃ size, descSize desc = some size ∧
      ((descIsWrite desc = false ∧ decode (.bus desc wdata) = .ok (.busRead size (descOffset desc))) ∨
        (descIsWrite desc = true ∧
          decode (.bus desc wdata) = .ok (.busWrite size (descOffset desc) (busData size wdata))))) ∨
    (descSize desc = none ∧ decode (.bus desc wdata) = .error .busSizeNeverPresented) := by
  rcases hs : descSize desc with _ | size
  · exact .inr ⟨rfl, by simp [decode, decodeBus, hs]⟩
  · refine .inl ⟨size, rfl, ?_⟩
    cases hw : descIsWrite desc
    · exact .inl ⟨rfl, by simp [decode, decodeBus, hs, hw]⟩
    · exact .inr ⟨rfl, by simp [decode, decodeBus, hs, hw]⟩

/-- Everything a step that has a next state can do. -/
theorem step_cases {s s' : State} (h : step s = .next s') :
    (s.framesNext = false ∧ s.framesLeft = 0 ∧ (∃ ins, s' = { s with inputs := ins }) ∧
      (s.inputs = [] ∨ ∃ rest, s.inputs = .engine :: rest)) ∨
    (s.framesNext = true ∧ 0 < s.framesLeft ∧
      ∃ ins, s' = ({ s with inputs := ins, framesLeft := s.framesLeft - 1 } : State).frame) ∨
    (∃ rest, s.inputs = .reset :: rest ∧ s' = ({ s with inputs := rest } : State).softReset) ∨
    (∃ desc wdata rest size, s.inputs = .bus desc wdata :: rest ∧ descSize desc = some size ∧
      descIsWrite desc = false ∧ s' = ({ s with inputs := rest } : State).afterRead size (descOffset desc)) ∨
    (∃ desc wdata rest size, s.inputs = .bus desc wdata :: rest ∧ descSize desc = some size ∧
      descIsWrite desc = true ∧
      s' = ({ s with inputs := rest } : State).afterWrite size (descOffset desc) (busData size wdata)) ∨
    (∃ frames rest, s.inputs = .render frames :: rest ∧ s.framesLeft = 0 ∧
      s' = ({ s with inputs := rest, framesLeft := frames.toNat } : State).drain) := by
  unfold step State.sequence at h
  split at h
  · rename_i hi
    cases h
    rcases s.engineTurn_cases with ⟨h0, h1⟩ | ⟨h0, h1⟩
    · exact .inl ⟨by simp [State.framesNext, h0], h0, ⟨s.inputs, h1⟩, .inl hi⟩
    · exact .inr (.inl ⟨by simp [State.framesNext, h0, hi], h0, s.inputs, h1⟩)
  · rename_i rest hi
    cases h
    rcases State.engineTurn_cases { s with inputs := rest } with ⟨h0, h1⟩ | ⟨h0, h1⟩
    · exact .inl ⟨by simpa [State.framesNext] using fun h => absurd h0 (by simpa using Nat.ne_of_gt h), h0,
        ⟨rest, h1⟩, .inr ⟨rest, hi⟩⟩
    · exact .inr (.inl ⟨by simpa [State.framesNext, hi] using h0, h0, rest, h1⟩)
  · rename_i rest hi
    cases h
    exact .inr (.inr (.inl ⟨rest, hi, rfl⟩))
  · rename_i desc wdata rest hi
    unfold State.present at h
    rcases decodeBus_cases desc wdata with ⟨size, hs, ⟨hw, hd⟩ | ⟨hw, hd⟩⟩ | ⟨hs, hd⟩
    · rw [hd] at h
      cases h
      exact .inr (.inr (.inr (.inl ⟨desc, wdata, rest, size, hi, hs, hw, rfl⟩)))
    · rw [hd] at h
      cases h
      exact .inr (.inr (.inr (.inr (.inl ⟨desc, wdata, rest, size, hi, hs, hw, rfl⟩))))
    · rw [hd] at h
      cases h
  · rename_i frames rest hi
    split_ifs at h with h0
    · cases h
      exact .inr (.inr (.inr (.inr (.inr ⟨frames, rest, hi, h0, rfl⟩))))
    · cases h
      rcases s.engineTurn_cases with ⟨h1, -⟩ | ⟨h1, h2⟩
      · exact absurd h1 h0
      · exact .inr (.inl ⟨by simp [State.framesNext, h1, hi], h1, s.inputs, h2⟩)

/-- What a frame step is, in full. Of the waiting inputs it takes only the Engine's own turn. -/
theorem step_frame {s : State} (h : s.framesNext = true) :
    ∃ ins, step s = .next ({ s with inputs := ins, framesLeft := s.framesLeft - 1 } : State).frame ∧
      0 < s.framesLeft ∧ (∀ rest, s.inputs = .engine :: rest → ins = rest) ∧
      ((∀ rest, s.inputs ≠ .engine :: rest) → ins = s.inputs) := by
  have h0 : 0 < s.framesLeft := by
    simp only [State.framesNext, Bool.and_eq_true, decide_eq_true_eq] at h
    exact h.1
  have hn : s.framesLeft ≠ 0 := by omega
  unfold step State.sequence
  rcases hi : s.inputs with _ | ⟨x, rest⟩
  · exact ⟨[], by simp [State.engineTurn, hn, ← hi], h0, by simp, by simp⟩
  · cases x with
    | engine => exact ⟨rest, by simp [State.engineTurn, hn], h0, by simp, fun k => absurd rfl (k rest)⟩
    | render f => exact ⟨.render f :: rest, by simp [State.engineTurn, hn, ← hi], h0, by simp, by simp⟩
    | bus d w => simp [State.framesNext, hi] at h
    | reset => simp [State.framesNext, hi] at h

/-! ### The elementary moves -/

/-- One elementary change of the state. Every step is a chain of these. -/
inductive Move : State → State → Prop where
  /-- What the agents hold changes. -/
  | agents (s : State) (ins : List Input) (n : Nat) (fs : List Frame) (rs : List Word) :
    Move s { s with inputs := ins, framesLeft := n, sinkFrames := fs, hostReads := rs }
  /-- The error registers change: a record or an acknowledgement. -/
  | errors (s : State) (e : ErrRegs) : Move s { s with errs := e }
  | evData (s : State) (w : Word) : Move s { s with evData := w }
  | push (s : State) (e : Event) : s.fifo.length < s.params.evqDepth → Move s { s with fifo := s.fifo ++ [e] }
  | clearFifo (s : State) : s.runState = .running → Move s { s with fifo := [] }
  | noteOn (s : State) (n : BitVec 7) (vel : Word) : s.runState = .running → velocityLegal vel = true →
    Move s (s.noteOn n vel)
  | noteOff (s : State) (n : BitVec 7) : s.runState = .running → Move s (s.noteOff n)
  | bypassOn (s : State) (v : BitVec 8) : s.runState = .running → v.toNat < s.pool.toNat → Move s (s.bypassOn v)
  | bypassOff (s : State) (v : BitVec 8) : s.runState = .running → v.toNat < s.pool.toNat → Move s (s.bypassOff v)
  /-- The end of a frame of a running block. -/
  | advance (s : State) : s.runState = .running → Move s s.advance
  | config (s : State) (c : CfgRegs) : s.runState ≠ .running → Move s { s with cfg := c }
  | freq (s : State) (n : Nat) (w : Word) : s.runState ≠ .running → Move s { s with freq := s.freq.set n w }
  | start (s : State) : s.runState = .config → Move s (s.start (poolFor s.cfg.voices s.params.maxVoices))
  | softReset (s : State) : Move s s.softReset

theorem Move.refl' (s : State) : Move s s := Move.agents s s.inputs s.framesLeft s.sinkFrames s.hostReads

/-- A chain of moves. -/
abbrev Moves : State → State → Prop := Relation.ReflTransGen Move

theorem Moves.of {s t : State} (h : Move s t) : Moves s t := Relation.ReflTransGen.single h

theorem moves_raise (s : State) {c : ErrCause} (h : c ≠ .timerExh) : Moves s (s.raise c) := by
  rw [s.raise_of_ne h]
  exact Moves.of (Move.errors s _)

/-- What an accepted event is: the two note events with legal operands, the two bypass events on a pool voice. -/
theorem decodeEvent_cases {cmd data : Word} {pool : Nat} {i : Instr} (h : decodeEvent cmd data pool = .ok i) :
    (∃ n, i = .noteOn n data ∧ velocityLegal data = true) ∨ (∃ n, i = .noteOff n) ∨
    (∃ v, i = .dbgBypassOn v ∧ v.toNat < pool) ∨ (∃ v, i = .dbgBypassOff v ∧ v.toNat < pool) := by
  unfold decodeEvent at h
  split_ifs at h with _ _ _ hv _ _ _ _ _ hp <;> try cases h
  · exact .inl ⟨_, rfl, by simpa using hv⟩
  · exact .inr (.inl ⟨_, rfl⟩)
  · exact .inr (.inr (.inl ⟨_, rfl, by omega⟩))
  · exact .inr (.inr (.inr ⟨_, rfl, by omega⟩))

/-- The run state and what a drain never touches. -/
structure SameButVoices (s t : State) : Prop where
  params : t.params = s.params
  runState : t.runState = s.runState
  faultMark : t.faultMark = s.faultMark
  timer : t.timer = s.timer
  pool : t.pool = s.pool
  evData : t.evData = s.evData
  cfg : t.cfg = s.cfg
  freq : t.freq = s.freq
  fifo : t.fifo = s.fifo
  inputs : t.inputs = s.inputs
  framesLeft : t.framesLeft = s.framesLeft
  sinkFrames : t.sinkFrames = s.sinkFrames
  hostReads : t.hostReads = s.hostReads
  voices : t.voices.length = s.voices.length
  dropCount : t.errs.dropCount = s.errs.dropCount
  busInfo : t.errs.busInfo = s.errs.busInfo
  err : t.errs.err = s.errs.err ∨ t.errs.err = s.errs.err ||| 2#5

theorem SameButVoices.refl (s : State) : SameButVoices s s :=
  ⟨rfl, rfl, rfl, rfl, rfl, rfl, rfl, rfl, rfl, rfl, rfl, rfl, rfl, rfl, rfl, rfl, .inl rfl⟩

theorem SameButVoices.trans {s t u : State} (h : SameButVoices s t) (k : SameButVoices t u) : SameButVoices s u where
  params := k.params.trans h.params
  runState := k.runState.trans h.runState
  faultMark := k.faultMark.trans h.faultMark
  timer := k.timer.trans h.timer
  pool := k.pool.trans h.pool
  evData := k.evData.trans h.evData
  cfg := k.cfg.trans h.cfg
  freq := k.freq.trans h.freq
  fifo := k.fifo.trans h.fifo
  inputs := k.inputs.trans h.inputs
  framesLeft := k.framesLeft.trans h.framesLeft
  sinkFrames := k.sinkFrames.trans h.sinkFrames
  hostReads := k.hostReads.trans h.hostReads
  voices := k.voices.trans h.voices
  dropCount := k.dropCount.trans h.dropCount
  busInfo := k.busInfo.trans h.busInfo
  err := by
    rcases h.err with h1 | h1 <;> rcases k.err with h2 | h2 <;> rw [h2, h1]
    · exact .inl rfl
    · exact .inr rfl
    · exact .inr rfl
    · exact .inr (by rw [BitVec.or_assoc, BitVec.or_self])

/-- The record of a malformed event (R193). -/
theorem State.applyEvent_error {s : State} {e : Event} {why : Malformed}
    (h : decodeEvent e.cmd e.data s.pool.toNat = .error why) :
    s.applyEvent e = s.raise (.evBad e.cmd why.code) := by
  simp [State.applyEvent, h]

/-- An accepted event runs the operation it decodes to. -/
theorem State.exec_event {s : State} {e : Event} {i : Instr} (h : decodeEvent e.cmd e.data s.pool.toNat = .ok i) :
    exec i s = .next (s.applyEvent e) := by
  rcases decodeEvent_cases h with ⟨n, rfl, -⟩ | ⟨n, rfl⟩ | ⟨v, rfl, hv⟩ | ⟨v, rfl, hv⟩
  · simp [State.applyEvent, h, State.applyInstr, exec, execNoteOn]
  · simp [State.applyEvent, h, State.applyInstr, exec, execNoteOff]
  · simp [State.applyEvent, h, State.applyInstr, exec, execDbgBypassOn, hv]
  · simp [State.applyEvent, h, State.applyInstr, exec, execDbgBypassOff, hv]

theorem State.noteOff_eq (s : State) (n : BitVec 7) :
    s.noteOff n = s.mapPool fun x => if x.holds n then x.releaseKey s.cfg s.timer else x := rfl

theorem sameButVoices_applyEvent (s : State) (e : Event) : SameButVoices s (s.applyEvent e) := by
  rcases h : decodeEvent e.cmd e.data s.pool.toNat with why | i
  · rw [s.applyEvent_error h]
    exact ⟨rfl, rfl, rfl, rfl, rfl, rfl, rfl, rfl, rfl, rfl, rfl, rfl, rfl, rfl, rfl, rfl, .inr rfl⟩
  · have ht : s.applyEvent e = s.applyInstr i := by simp [State.applyEvent, h]
    rw [ht]
    rcases decodeEvent_cases h with ⟨n, rfl, -⟩ | ⟨n, rfl⟩ | ⟨v, rfl, -⟩ | ⟨v, rfl, -⟩
    · exact ⟨rfl, rfl, rfl, rfl, rfl, rfl, rfl, rfl, rfl, rfl, rfl, rfl, rfl,
        by simp [State.applyInstr], rfl, rfl, .inl rfl⟩
    · exact ⟨rfl, rfl, rfl, rfl, rfl, rfl, rfl, rfl, rfl, rfl, rfl, rfl, rfl,
        State.mapPool_length s _, rfl, rfl, .inl rfl⟩
    · exact ⟨rfl, rfl, rfl, rfl, rfl, rfl, rfl, rfl, rfl, rfl, rfl, rfl, rfl,
        by simp [State.applyInstr, State.bypassOn], rfl, rfl, .inl rfl⟩
    · exact ⟨rfl, rfl, rfl, rfl, rfl, rfl, rfl, rfl, rfl, rfl, rfl, rfl, rfl,
        by simp [State.applyInstr, State.bypassOff], rfl, rfl, .inl rfl⟩

theorem moves_applyEvent {s : State} (e : Event) (hr : s.runState = .running) : Moves s (s.applyEvent e) := by
  rcases h : decodeEvent e.cmd e.data s.pool.toNat with why | i
  · rw [s.applyEvent_error h]
    exact moves_raise s (by simp)
  · have ht : s.applyEvent e = s.applyInstr i := by simp [State.applyEvent, h]
    rw [ht]
    rcases decodeEvent_cases h with ⟨n, rfl, hv⟩ | ⟨n, rfl⟩ | ⟨v, rfl, hv⟩ | ⟨v, rfl, hv⟩
    · exact Moves.of (.noteOn s n _ hr hv)
    · exact Moves.of (.noteOff s n hr)
    · exact Moves.of (.bypassOn s v hr hv)
    · exact Moves.of (.bypassOff s v hr hv)

theorem foldl_applyEvent (es : List Event) (s : State) :
    SameButVoices s (es.foldl State.applyEvent s) ∧
      (s.runState = .running → Moves s (es.foldl State.applyEvent s)) := by
  induction es generalizing s with
  | nil => exact ⟨.refl s, fun _ => .refl⟩
  | cons e es ih =>
    have h := sameButVoices_applyEvent s e
    exact ⟨h.trans (ih _).1, fun hr => (moves_applyEvent e hr).trans ((ih _).2 (h.runState.trans hr))⟩

theorem State.drain_of_not_running {s : State} (h : s.runState ≠ .running) : s.drain = s := by
  unfold State.drain
  split
  · exact absurd ‹_› h
  · rfl

theorem State.drain_running {s : State} (h : s.runState = .running) :
    s.drain = s.fifo.foldl State.applyEvent { s with fifo := [] } := by
  simp [State.drain, h]

/-- A drain of a running block leaves everything but the FIFO, the voices, CURSOR and the record of EV_BAD. -/
theorem State.drain_frame {s : State} (h : s.runState = .running) : SameButVoices { s with fifo := [] } s.drain := by
  rw [State.drain_running h]
  exact (foldl_applyEvent _ _).1

theorem moves_drain (s : State) : Moves s s.drain := by
  by_cases h : s.runState = .running
  · rw [State.drain_running h]
    exact (Moves.of (.clearFifo s h)).trans ((foldl_applyEvent s.fifo { s with fifo := [] }).2 h)
  · rw [State.drain_of_not_running h]

/-! ### Bus writes -/

/-- Everything a write can do. -/
theorem State.writeReg_cases (s : State) (r : Reg) (val : Word) :
    s.writeReg r val = s ∨
    (r = .ctrl ∧ val.getLsbD 1 = true ∧ s.writeReg r val = s.softReset) ∨
    (r = .ctrl ∧ val.getLsbD 1 = false ∧ val.getLsbD 0 = true ∧ s.runState = .config ∧
      s.writeReg r val = s.start (poolFor s.cfg.voices s.params.maxVoices)) ∨
    (∃ e, s.writeReg r val = { s with errs := e }) ∨
    (s.writeReg r val = { s with evData := val }) ∨
    (s.fifo.length < s.params.evqDepth ∧
      s.writeReg r val = { s with fifo := s.fifo ++ [{ cmd := val, data := s.evData }] }) ∨
    (s.runState ≠ .running ∧ ∃ c, s.writeReg r val = { s with cfg := c }) ∨
    (s.runState ≠ .running ∧ ∃ n, s.writeReg r val = { s with freq := s.freq.set n val }) := by
  cases r <;> try exact .inl rfl
  case ctrl =>
    simp only [State.writeReg, State.ctrlWrite]
    split_ifs with h1 h2
    · exact .inr (.inl ⟨trivial, h1, rfl⟩)
    · simp only [Bool.and_eq_true, decide_eq_true_eq] at h2
      exact .inr (.inr (.inl ⟨trivial, by simpa using h1, h2.1, h2.2, rfl⟩))
    · exact .inl rfl
  case err => exact .inr (.inr (.inr (.inl ⟨_, rfl⟩)))
  case evData => exact .inr (.inr (.inr (.inr (.inl rfl))))
  case evCmd =>
    simp only [State.writeReg, State.push]
    split_ifs with h
    · exact .inr (.inr (.inr (.inr (.inr (.inl ⟨h, rfl⟩)))))
    · exact .inr (.inr (.inr (.inl ⟨_, rfl⟩)))
  case cfg c =>
    simp only [State.writeReg, State.cfgWrite]
    split_ifs with h
    · exact .inr (.inr (.inr (.inl ⟨_, rfl⟩)))
    · exact .inr (.inr (.inr (.inr (.inr (.inr (.inl ⟨h, _, rfl⟩))))))
  case freq n =>
    simp only [State.writeReg, State.freqWrite]
    split_ifs with h
    · exact .inr (.inr (.inr (.inl ⟨_, rfl⟩)))
    · exact .inr (.inr (.inr (.inr (.inr (.inr (.inr ⟨h, n, rfl⟩))))))

theorem moves_writeReg (s : State) (r : Reg) (val : Word) : Moves s (s.writeReg r val) := by
  rcases s.writeReg_cases r val with h | ⟨-, -, h⟩ | ⟨-, -, -, hc, h⟩ | ⟨e, h⟩ | h | ⟨hl, h⟩ | ⟨hr, c, h⟩ | ⟨hr, n, h⟩ <;> rw [h]
  · exact Moves.of (.softReset s)
  · exact Moves.of (.start s hc)
  · exact Moves.of (.errors s e)
  · exact Moves.of (.evData s val)
  · exact Moves.of (.push s _ hl)
  · exact Moves.of (.config s c hr)
  · exact Moves.of (.freq s n val hr)

theorem moves_afterWrite (s : State) (size : BusSize) (off : BitVec 12) (wdata : BitVec 64) :
    Moves s (s.afterWrite size off wdata) := by
  unfold State.afterWrite
  split_ifs
  · exact moves_writeReg s _ _
  · exact moves_raise s (by simp)

theorem moves_afterRead (s : State) (size : BusSize) (off : BitVec 12) : Moves s (s.afterRead size off) := by
  unfold State.afterRead
  split_ifs
  · exact Moves.of (.agents s s.inputs s.framesLeft s.sinkFrames _)
  · exact (moves_raise s (by simp)).trans (Moves.of (.agents _ s.inputs s.framesLeft s.sinkFrames _))

/-! ### Frames -/

theorem State.frame_running {s : State} (h : s.runState = .running) : s.frame = (s.emit s.renderedFrame).advance := by
  simp [State.frame, h]

theorem State.frame_not_running {s : State} (h : s.runState ≠ .running) : s.frame = s.emit s.silentFrame := by
  unfold State.frame
  split
  · exact absurd ‹_› h
  · rfl

theorem moves_emit (s : State) (f : Frame) : Moves s (s.emit f) :=
  Moves.of (.agents s s.inputs s.framesLeft _ s.hostReads)

theorem moves_frame (s : State) : Moves s s.frame := by
  by_cases h : s.runState = .running
  · rw [State.frame_running h]
    exact (moves_emit s _).trans (Moves.of (.advance _ h))
  · rw [State.frame_not_running h]
    exact moves_emit s _

/-- Every step is a chain of moves. -/
theorem moves_step {s s' : State} (h : step s = .next s') : Moves s s' := by
  have hin : ∀ ins n, Moves s { s with inputs := ins, framesLeft := n } := fun ins n =>
    Moves.of (.agents s ins n s.sinkFrames s.hostReads)
  rcases step_cases h with ⟨-, -, ⟨ins, rfl⟩, -⟩ | ⟨-, -, ins, rfl⟩ | ⟨rest, -, rfl⟩ |
    ⟨desc, wdata, rest, size, -, -, -, rfl⟩ | ⟨desc, wdata, rest, size, -, -, -, rfl⟩ | ⟨frames, rest, -, -, rfl⟩
  · exact hin ins s.framesLeft
  · exact (hin ins _).trans (moves_frame _)
  · exact (hin rest s.framesLeft).trans (Moves.of (.softReset _))
  · exact (hin rest s.framesLeft).trans (moves_afterRead _ _ _)
  · exact (hin rest s.framesLeft).trans (moves_afterWrite _ _ _ _)
  · exact (hin rest _).trans (moves_drain _)

/-- A property that every move keeps is kept by every step. -/
theorem kept_by_step {P : State → Prop} (h : ∀ s t, P s → Move s t → P t) {s s' : State} (hs : P s)
    (hstep : step s = .next s') : P s' := by
  have hm := moves_step hstep
  clear hstep
  induction hm with
  | refl => exact hs
  | tail _ hmove ih => exact h _ _ ih hmove

end Sys2Proof.Machine
end

