-- ==== Sys2Proof/Tests/Slice0.lean ====
section
/-! SUPPORT. The model's own tests: ill-formed terms, words written out from the spec's encodings, one step of each operation
from the vectors of 95_test_vectors.md, and a state and operands that meet the hypotheses of each statement. -/

set_option Elab.async false

namespace Sys2Proof.Tests

open Sys2Proof.Machine

/-! ### States to test on -/

/-- A running block with the reference pool. -/
def running : State := { State.reset with runState := .running, pool := 16#6 }

/-- A voice that holds a note since sample 0, at level 0.0. -/
def heldVoice (n : BitVec 7) : Voice :=
  { Voice.reset with env := .held, start := 0#64, note := n, noteValid := true, vel := 0x3F800000#32 }

/-- Two voices in a pool of two: vector V1 of 95_test_vectors.md after its first two notes. -/
def two : State :=
  { running with pool := 2#6, voices := heldVoice 60#7 :: heldVoice 62#7 :: List.replicate 14 Voice.reset }

/-- A pinned voice at note 0, a quarter of its 1 Hz cycle on: vector V7, its second frame. -/
def pinned : State :=
  { running with
    pool := 1#6, timer := 1#64
    cfg := { CfgRegs.reset with sampleRate := 4#32, waveSel := .circle }
    freq := State.reset.freq.set 0 0x3F800000#32
    voices := { heldVoice 0#7 with env := .bypass, vel := 0x3F000000#32 } :: List.replicate 15 Voice.reset }

/-- A pool of two whose voices are free, and three notes for it. -/
def freeTwo : State := { running with pool := 2#6, cursor := 1#5 }

def threeNotes : List (BitVec 7 × Word) := [(60#7, 0x3F800000#32), (62#7, 0x3F000000#32), (127#7, 0#32)]

/-- A request in progress. -/
def rendering (s : State) : State := { s with framesLeft := 2, inputs := [.engine] }

/-- One event in the FIFO. -/
def queued (cmd data : Word) : State := { running with fifo := [{ cmd := cmd, data := data }] }

/-- The next state of an outcome, if it has one. -/
def nextOf (o : Host.Outcome State Fault Refusal) : Option State :=
  match o with
  | .next s => some s
  | .fault _ => none
  | .refused _ => none

/-! ### Ill-formed operations -/

theorem test_wellFormed_refuses_nan_velocity : (Instr.noteOn 60#7 0x7FC00000#32).WellFormed = false := by decide +kernel

theorem test_wellFormed_refuses_velocity_above_one : (Instr.noteOn 60#7 0x3F800001#32).WellFormed = false := by
  decide +kernel

theorem test_wellFormed_refuses_wide_data : (Instr.busWrite .b1 0x040#12 256#64).WellFormed = false := by decide

/-! ### Decoding: R81–R88, vectors D1–D14, H2, H3 -/

/-- D1: OP 00000001, RSV sixteen zeros, ARG 0 0111100 (note 60). -/
theorem test_decode_noteOn :
    decodeEvent 0b00000001_0000000000000000_00111100#32 0x3F800000#32 16 = .ok (.noteOn 60#7 0x3F800000#32) := by
  decide +kernel

/-- D12: OP 00000010. -/
theorem test_decode_noteOff :
    decodeEvent 0b00000010_0000000000000000_00111100#32 0#32 16 = .ok (.noteOff 60#7) := by decide +kernel

/-- OP 00010000, ARG 00001111 (voice 15). -/
theorem test_decode_dbgBypassOn :
    decodeEvent 0b00010000_0000000000000000_00001111#32 0#32 16 = .ok (.dbgBypassOn 15#8) := by decide +kernel

/-- D13: OP 00010001, ARG 00000011. -/
theorem test_decode_dbgBypassOff :
    decodeEvent 0b00010001_0000000000000000_00000011#32 0#32 16 = .ok (.dbgBypassOff 3#8) := by decide +kernel

/-- DIR 0, SIZE 010, OFFSET 000000011000 (TIMER_LO). -/
theorem test_decode_busRead : decode (.bus 0b0_010_000000011000#16 0#64) = .ok (.busRead .b4 0x018#12) := by decide

/-- H3: DIR 1, SIZE 001, OFFSET 000001000000; sixteen bits of the data. -/
theorem test_decode_busWrite_b2 :
    decode (.bus 0b1_001_000001000000#16 0x12345#64) = .ok (.busWrite .b2 0x040#12 0x2345#64) := by decide

theorem test_decode_render : decode (.render 512#32) = .ok (.render 512#32) := by decide

/-- D3–D11: the reason of each malformed event, RSV_BITS and the data before the voice. -/
theorem test_decode_malformed :
    [decodeEvent 0x0100013C#32 0x3F800000#32 16, decodeEvent 0x03000000#32 0#32 16,
      decodeEvent 0x010000C8#32 0x3F800000#32 16, decodeEvent 0x0100003C#32 0xBF800000#32 16,
      decodeEvent 0x1000000F#32 1#32 16, decodeEvent 0x10000010#32 0#32 16] =
    [.error .rsvBits, .error .reservedOp, .error .noteRange, .error .velRange, .error .dataNonzero,
      .error .voiceRange] := by decide +kernel

/-- D2: the velocity −0.0 is legal (D36). -/
theorem test_decode_negative_zero_velocity :
    decodeEvent 0x0100003C#32 0x80000000#32 16 = .ok (.noteOn 60#7 0x80000000#32) := by decide +kernel

theorem test_decode_size_never_presented : decode (.bus 0x4000#16 0#64) = .error .busSizeNeverPresented := by decide

/-- The rows of spec/opcode_table.json by their match words. -/
theorem test_decodeTableWord :
    [decodeTableWord 32 0x01000000, decodeTableWord 32 0x0200007F, decodeTableWord 32 0x10000001,
      decodeTableWord 32 0x110000FF, decodeTableWord 16 0x2000, decodeTableWord 16 0xA028,
      decodeTableWord 32 0x00000000, decodeTableWord 64 0x3F8000000100003C] =
    [some (.noteOn 0#7 0#32), some (.noteOff 127#7), some (.dbgBypassOn 1#8), some (.dbgBypassOff 255#8),
      some (.busRead .b4 0#12), some (.busWrite .b4 0x028#12 0#64), some (.render 0#32),
      some (.noteOn 60#7 0x3F800000#32)] := by decide +kernel

/-! ### One step of each operation -/

/-- V1: with voices 0 and 1 taken and the cursor at 0, NOTE_ON 64 steals voice 0. -/
theorem test_noteOn_steals :
    (nextOf (exec (.noteOn 64#7 0x3F800000#32) two)).map (fun t => ((t.voiceAt 0).note, (t.voiceAt 1).note, t.cursor)) =
      some (64#7, 62#7, 1#5) := by decide +kernel

/-- V2: NOTE_ON 62 finds its voice, which takes the new velocity; the cursor stays. -/
theorem test_noteOn_retriggers :
    (nextOf (exec (.noteOn 62#7 0x3F000000#32) two)).map (fun t => ((t.voiceAt 0).note, (t.voiceAt 1).vel, t.cursor)) =
      some (60#7, 0x3F000000#32, 0#5) := by decide +kernel

/-- V4: NOTE_OFF at TIMER 0 of a note held since then: RELEASED(0.0, 0). -/
theorem test_noteOff_releases :
    (nextOf (exec (.noteOff 60#7) two)).map (fun t => ((t.voiceAt 0).env, (t.voiceAt 0).level0, (t.voiceAt 1).env)) =
      some (.released, 0#32, .held) := by decide +kernel

/-- V3: a note no voice holds. -/
theorem test_noteOff_without_holder : nextOf (exec (.noteOff 64#7) two) = some two := by decide +kernel

/-- V6: the state is BYPASS and nothing else of the voice changes. -/
theorem test_bypassOn : (nextOf (exec (.dbgBypassOn 1#8) two)).map (fun t => t.voiceAt 1) =
    some { heldVoice 62#7 with env := .bypass } := by decide +kernel

/-- D10 and V9: the voice index POOL is malformed, code 6. -/
theorem test_bypassOn_outside_pool :
    (nextOf (exec (.dbgBypassOn 2#8) two)).map (fun t => (t.errs.err, t.errs.badCmd, t.errs.badReason)) =
      some (2#5, 0x10000002#32, 6#3) := by decide +kernel

/-- V8: out of BYPASS the voice is OFF. -/
theorem test_bypassOff : (nextOf (exec (.dbgBypassOff 0#8) pinned)).map (fun t => (t.voiceAt 0).env) = some .off := by
  decide +kernel

/-- R119: on a voice that is not in BYPASS it has no effect. -/
theorem test_bypassOff_of_held : nextOf (exec (.dbgBypassOff 1#8) two) = some two := by decide +kernel

/-- H1. -/
theorem test_busRead_id : (nextOf (exec (.busRead .b4 0#12) State.reset)).map (·.hostReads) = some [0x53480007#32] := by
  decide +kernel

/-- H2: a one-byte read. -/
theorem test_busRead_narrow :
    (nextOf (exec (.busRead .b1 0x009#12) State.reset)).map (fun t => (t.hostReads, t.errs.err, t.errs.busInfo)) =
      some ([0#32], 8#5, 0x00010009#32) := by decide +kernel

/-- H4: a misaligned write pushes nothing. -/
theorem test_busWrite_misaligned :
    (nextOf (exec (.busWrite .b4 0x02E#12 0x0100003C#64) State.reset)).map (fun t => (t.fifo, t.errs.busInfo)) =
      some ([], 0x0004102E#32) := by decide +kernel

/-- H15: VOICES = 40 latches MAX_VOICES. -/
theorem test_busWrite_start :
    (nextOf (exec (.busWrite .b4 0x004#12 1#64)
      { State.reset with cfg := { CfgRegs.reset with voices := 40#32 } })).map (fun t => (t.pool, t.runState)) =
      some (16#6, .running) := by decide +kernel

/-- R4: a frame in CONFIG with OUT_FMT = 2. -/
theorem test_render_silence :
    (nextOf (step (rendering { State.reset with cfg := { CfgRegs.reset with outFmt := .u16 } }))).map (·.sinkFrames) =
      some [{ left := .w16 0x8000#16, right := .w16 0x8000#16 }] := by decide +kernel

/-- V7, its second frame: (0.5, 0). -/
theorem test_render_pinned_voice :
    (nextOf (step (rendering pinned))).map (fun t => (t.sinkFrames, t.timer, (t.voiceAt 0).lfo)) =
      some ([{ left := .w32 0x3F000000#32, right := .w32 0x00000000#32 }], 2#64, 1#64) := by decide +kernel

/-- The words of the opcode table run as the first operation after reset. -/
theorem test_withFetchWord_event :
    (nextOf (step (State.reset.withFetchWord 32 0x0100003C))).map (fun t => ((t.voiceAt 0).note, t.cursor, t.pool)) =
      some (60#7, 1#5, 16#6) := by decide +kernel

theorem test_withFetchWord_bus :
    (nextOf (step (State.reset.withFetchWord 16 0x2000))).map (·.hostReads) = some [0x53480007#32] := by
  decide +kernel

/-! ### A state and operands for the hypotheses of each statement -/

theorem test_witness_decodeOfEncodeIsIdentity :
    (Instr.noteOn 127#7 0x3F800000#32).WellFormed = true ∧ (Instr.busWrite .b1 0x040#12 255#64).WellFormed = true := by
  decide +kernel

theorem test_witness_acceptedEventHasOneEncoding :
    decodeEvent 0x0100007F#32 0x3F800000#32 16 = .ok (.noteOn 127#7 0x3F800000#32) ∧
    decodeEvent 0x1000000F#32 0#32 16 = .ok (.dbgBypassOn 15#8) ∧
    decodeEvent 0x11000000#32 0#32 1 = .ok (.dbgBypassOff 0#8) := by decide +kernel

theorem test_witness_stepRunsDecodedOperation_bus :
    ({ running with inputs := [.bus 0x2000#16 0#64] } : State).inputs = .bus 0x2000#16 0#64 :: [] ∧
    decode (.bus 0x2000#16 0#64) = .ok (.busRead .b4 0#12) := by decide

theorem test_witness_stepRunsDecodedOperation_render :
    ({ running with inputs := [.render 3#32] } : State).inputs = .render 3#32 :: [] ∧ running.framesLeft = 0 ∧
    decode (.render 3#32) = .ok (.render 3#32) := by decide

/-- A request that comes while frames are owed. -/
theorem test_witness_stepRunsDecodedOperation_waits :
    let s := { running with framesLeft := 2, inputs := [.render 3#32] }
    s.inputs = .render 3#32 :: [] ∧ s.framesLeft ≠ 0 := by decide

theorem test_witness_stepRunsDecodedOperation_event :
    let s := { queued 0x0200003C#32 0#32 with inputs := [.render 0#32] }
    s.inputs = .render 0#32 :: [] ∧ s.framesLeft = 0 ∧ s.runState = .running ∧
    s.fifo = [{ cmd := 0x0200003C#32, data := 0#32 }] ∧
    decodeEvent 0x0200003C#32 0#32 s.pool.toNat = .ok (.noteOff 60#7) := by decide +kernel

theorem test_witness_renderIsDrainThenItsFrames :
    ({ running with inputs := [.render 3#32] } : State).inputs = [.render 3#32] ∧ running.framesLeft = 0 ∧
    (rendering running).framesNext = true := by decide

theorem test_witness_step_has_next : ∃ s', step (rendering running) = .next s' := ⟨_, rfl⟩

theorem test_witness_drainAppliesEventsInOrder :
    (queued 0x0200003C#32 0#32).runState = .running ∧
    (queued 0x0200003C#32 0#32).fifo = { cmd := 0x0200003C#32, data := 0#32 } :: [] ∧
    decodeEvent 0x0200003C#32 0#32 running.pool.toNat = .ok (.noteOff 60#7) ∧
    decodeEvent 0x010000C8#32 0#32 running.pool.toNat = .error .noteRange := by decide +kernel

theorem test_witness_drainAppliesEventsInOrder_empty : running.runState = .running ∧ running.fifo = [] := by decide

theorem test_witness_renderRequestDrainsTheFifo :
    (queued 0x0200003C#32 0#32).runState = .running ∧ State.reset.runState ≠ .running := by decide

theorem test_witness_noteOnRetriggersOrSteals :
    two.Shape ∧ two.runState = .running ∧ (two.voiceAt 0).env ≠ .bypass ∧
    pinned.Shape ∧ pinned.runState = .running ∧ (pinned.voiceAt 0).env = .bypass := by decide +kernel

theorem test_witness_noteOffReleasesHolders :
    1 < two.pool.toNat ∧ 1 < two.voices.length ∧ (two.voiceAt 1).noteValid = true ∧ (two.voiceAt 1).note = 62#7 ∧
    (two.voiceAt 1).env = .held ∧ ¬((two.voiceAt 0).note = 62#7) := by decide +kernel

theorem test_witness_bypass_on_pool_voice :
    (15#8).toNat < running.pool.toNat ∧ (15#8).toNat < running.voices.length ∧ (running.voiceAt 15).env ≠ .bypass ∧
    (0#8).toNat < pinned.pool.toNat ∧ (0#8).toNat < pinned.voices.length ∧ (pinned.voiceAt 0).env = .bypass := by
  decide +kernel

theorem test_witness_bypassOutsidePoolIsRecorded :
    running.pool.toNat ≤ (16#8).toNat ∧ running.pool.toNat ≤ (255#8).toNat ∧ State.reset.pool.toNat ≤ (0#8).toNat := by
  decide +kernel

theorem test_witness_malformedEventIsOnlyRecorded :
    decodeEvent 0x10000010#32 0#32 running.pool.toNat = .error .voiceRange ∧
    decodeEvent 0x010000C8#32 0#32 State.reset.pool.toNat = .error .noteRange := by decide +kernel

theorem test_witness_oneMoreNoteStealsTheFirstVoice :
    (freeTwo.Shape ∧ freeTwo.runState = .running) ∧
    threeNotes.length = freeTwo.pool.toNat + 1 ∧ (threeNotes.map Prod.fst).Nodup ∧
    threeNotes[1]? = some (62#7, 0x3F000000#32) ∧ threeNotes[2]? = some (127#7, 0#32) := by decide +kernel

theorem test_witness_oneMoreNoteStealsTheFirstVoice_free :
    ∀ p ∈ threeNotes, ∀ v < freeTwo.pool.toNat,
      ¬((freeTwo.voiceAt v).noteValid = true ∧ (freeTwo.voiceAt v).note = p.1) := by
  have h : ∀ v < 2, (freeTwo.voiceAt v).noteValid = false := by decide +kernel
  intro p _ v hv
  simp [h v hv]

theorem test_witness_offIsSilentAndBypassIsFull :
    Voice.reset.env = .off ∧ (pinned.voiceAt 0).env = .bypass := by decide +kernel

theorem test_witness_elapsedTimeRule :
    (7#64 ≠ 0xFFFFFFFFFFFFFFFF#64 ∧ (6#64).toNat < (7#64).toNat) ∧
    (7#64 ≠ 0xFFFFFFFFFFFFFFFF#64 ∧ (7#64).toNat ≤ (7#64).toNat) ∧
    (0xFFFFFFFFFFFFFFFE#64 ≠ 0xFFFFFFFFFFFFFFFF#64 ∧
      (0xFFFFFFFFFFFFFFFE#64).toNat ≤ (0xFFFFFFFFFFFFFFFF#64).toNat) := by decide

theorem test_witness_envelopeWorkedExamples :
    let c := { CfgRegs.reset with
      sampleRate := 4#32, attack := 0x3F800000#32, decay := 0x3F800000#32, sustain := 0x3F000000#32,
      release := 0x3F800000#32 }
    let r := { heldVoice 60#7 with env := .released, level0 := 0x3F000000#32, start := 12#64 }
    (c.sampleRate = 4#32 ∧ c.attack = 0x3F800000#32 ∧ c.decay = 0x3F800000#32 ∧ c.sustain = 0x3F000000#32 ∧
      (heldVoice 60#7).env = .held ∧ (heldVoice 60#7).level0 = 0#32 ∧ (heldVoice 60#7).start = 0#64) ∧
    (c.sampleRate = 4#32 ∧ c.release = 0x3F800000#32 ∧ r.env = .released ∧ r.level0 = 0x3F000000#32 ∧
      r.start = 12#64) := by decide

/-- S5, E2: elapsed = 1.0 = RELEASE. -/
theorem test_witness_releaseEndsAtExactlyZero :
    let c := { CfgRegs.reset with sampleRate := 4#32, release := 0x3F800000#32 }
    let r := { heldVoice 60#7 with env := .released, level0 := 0x3F000000#32, start := 12#64 }
    velocityLegal r.level0 = true ∧ r.env = .released ∧
    (fltLit 1).le ((elapsed c.sampleRate r.start 16#64).div (durEff c.release)) = true := by decide +kernel

theorem test_witness_transitionsKeepTheLevel :
    velocityLegal 0x3F800000#32 = true ∧ velocityLegal 0x80000000#32 = true ∧
    0xFFFFFFFFFFFFFFFE#64 ≠ 0xFFFFFFFFFFFFFFFF#64 := by decide +kernel

/-- No frequency: 0.0, −1.0, a NaN and +∞ (vector O6); a frequency: 440.0 and the least subnormal. -/
theorem test_witness_phaseIsAFraction :
    fltZero.lt (f32 0x00000000#32) = false ∧ fltZero.lt (f32 0xBF800000#32) = false ∧
    fltZero.lt (f32 0x7FC00000#32) = false ∧ (f32 0x7F800000#32).lt (.inf false) = false ∧
    (fltZero.lt (f32 0x43DC0000#32) = true ∧ (f32 0x43DC0000#32).lt (.inf false) = true) ∧
    (fltZero.lt (f32 0x00000001#32) = true ∧ (f32 0x00000001#32).lt (.inf false) = true) := by decide +kernel

theorem test_witness_levelsInUnit : two.LevelsInUnit ∧ heldVoice 60#7 ∈ two.voices ∧ pinned.LevelsInUnit := by
  decide +kernel

theorem test_witness_polygonStartsOnTheCircle :
    (nMin.le (fltLit 2) = true ∧ (fltLit 2).le nMax = true) ∧
    (nMin.le (fltLit 65536) = true ∧ (fltLit 65536).le nMax = true) := by decide +kernel

/-- The phases 0.0 and 0.875. -/
theorem test_witness_polygonStartsOnTheCircle_phase :
    Flt.IsFraction fltZero ∧ Flt.IsFraction (f32 0x3F600000#32) :=
  ⟨⟨0, by decide +kernel, by decide +kernel⟩, ⟨7 * 2 ^ 146, by decide +kernel, by decide +kernel⟩⟩

/-- 1.0, and the largest value below 2.0. -/
theorem test_witness_sincosBoundedExactPeriodic :
    ((fltLit 1).le (f32 0x3F800000#32) = true ∧ (f32 0x3F800000#32).lt (fltLit 2) = true) ∧
    ((fltLit 1).le (f32 0x3FFFFFFF#32) = true ∧ (f32 0x3FFFFFFF#32).lt (fltLit 2) = true) := by decide +kernel

/-- A value in [−1, 1] as a number. -/
theorem abs_toRat_le_one {x : Flt} (h : Laws.Bip x) : |x.toRat| ≤ 1 := by
  obtain ⟨s, m, rfl, hm⟩ := h
  have h2 : (m : ℚ) ≤ 2 ^ 149 := by
    have h3 : m ≤ 2 ^ 149 := hm
    exact_mod_cast h3
  have h4 : |(signedMag s m : ℚ)| = m := by cases s <;> simp [signedMag]
  rw [Flt.toRat, abs_div, h4, abs_of_nonneg (by positivity), div_le_one (by positivity)]
  exact h2

theorem abs_sub_le_two {q : ℚ} {y : ℝ} (hq : |q| ≤ 1) (hy : |y| ≤ 1) : |(q : ℝ) - y| ≤ 2 := by
  have h : |(q : ℝ)| ≤ 1 := by exact_mod_cast hq
  rw [abs_le] at h hy ⊢
  constructor <;> linarith

/-- A tolerance every SINCOS unit with SC1 meets, and a configuration in the CIRCLE waveform. -/
theorem test_witness_circleFollowsTheRealCircle : SincosWithin 2 ∧ pinned.cfg.waveSel = .circle :=
  ⟨fun _ _ _ => ⟨abs_sub_le_two (abs_toRat_le_one (Laws.sincos_bip _).1) (Real.abs_sin_le_one _),
    abs_sub_le_two (abs_toRat_le_one (Laws.sincos_bip _).2) (Real.abs_cos_le_one _)⟩, rfl⟩

theorem test_witness_cornerCountIsLegal : Voice.reset.lfo = 0#64 := rfl

/-- Vector O16: the sums 3.0, 1.0, NaN and +∞. -/
theorem test_witness_cornerCountIsLegal_sums :
    ((fltLit 2).le ((f32 0x40400000#32).add fltZero) = true ∧
      ((f32 0x40400000#32).add fltZero).le (fltLit 65536) = true) ∧
    ((f32 0x3F800000#32).add fltZero).lt (fltLit 2) = true ∧ ((f32 0x7FC00000#32).add fltZero).isNan = true ∧
    (fltLit 65536).lt ((f32 0x7F800000#32).add fltZero) = true := by decide +kernel

/-- Vector O17, its second value. -/
theorem test_witness_cornerCountIsLegal_example :
    let c := { CfgRegs.reset with
      sampleRate := 4#32, lfoRate := 0x3F800000#32, lfoDepth := 0x3F800000#32, corners := 0x40400000#32 }
    let x := { heldVoice 60#7 with lfo := 1#64 }
    c.sampleRate = 4#32 ∧ c.lfoRate = 0x3F800000#32 ∧ c.lfoDepth = 0x3F800000#32 ∧ x.lfo = 1#64 ∧
    c.corners = 0x40400000#32 := by decide

theorem test_witness_sampleCodeRange :
    f32 0x80000000#32 = .fin true 0 ∧ f32 0x7FC00000#32 = .nan ∧ (f32 0x3F000000#32).isNan = false := by
  decide +kernel

/-- Bounds 0.0 and 1.0: a NaN, below, above, both ends (with −0.0), and inside. -/
theorem test_witness_clampRule :
    fltZero.le (fltLit 1) = true ∧ (Flt.nan).isNan = true ∧ (f32 0xBE800000#32).lt fltZero = true ∧
    (fltLit 1).lt (f32 0x3F800001#32) = true ∧
    (fltZero.le (f32 0x80000000#32) = true ∧ (f32 0x80000000#32).le (fltLit 1) = true) ∧
    (fltZero.lt (f32 0x3F000000#32) = true ∧ (f32 0x3F000000#32).lt (fltLit 1) = true) ∧
    (clamp (f32 0x80000000#32) fltZero (fltLit 1)).eqv fltZero = true ∧
    (clamp (fltLit 1) fltZero (fltLit 1)).eqv (fltLit 1) = true := by decide +kernel

/-- Gains NaN and −1.0; durations NaN, just below DUR_EPS and DUR_EPS itself. -/
theorem test_witness_effectiveGainAndDuration :
    (f32 0x7FC00000#32).isFinite = false ∧ (f32 0xBF800000#32).isFinite = true ∧ (f32 0x7FC00000#32).isNan = true ∧
    (f32 0x357FFFFF#32).lt durEps = true ∧ durEps.le (f32 0x35800000#32) = true := by decide +kernel

theorem test_witness_aligned_offsets : (0x000#12).toNat % 4 = 0 ∧ (0xFFC#12).toNat % 4 = 0 := by decide

theorem test_witness_registerMapReads :
    0 < 128 ∧ 127 < 128 ∧ (0x03C#12).toNat = 0x03C ∧
    (0x070 ≤ (0x070#12).toNat ∧ (0x070#12).toNat ≤ 0x3FC ∧ (0x070#12).toNat % 4 = 0) ∧
    (0x070 ≤ (0x3FC#12).toNat ∧ (0x3FC#12).toNat ≤ 0x3FC) ∧
    (0xA00 ≤ (0xA00#12).toNat ∧ (0xA00#12).toNat % 4 = 0) ∧ 0xA00 ≤ (0xFFC#12).toNat := by decide

/-- The last voice of the reference machine, the first beyond it, and the last window. -/
theorem test_witness_voiceWindowReads :
    (15 < 32 ∧ 15 < State.reset.params.maxVoices) ∧ (16 < 32 ∧ State.reset.params.maxVoices ≤ 16) ∧
    (31 < 32 ∧ State.reset.params.maxVoices ≤ 31) := by decide +kernel

theorem test_witness_illegalAccessIsOnlyRecorded :
    ¬((BusSize.b8).bytes = 4 ∧ (0x018#12).toNat % 4 = 0) ∧ ¬((BusSize.b4).bytes = 4 ∧ (0x02E#12).toNat % 4 = 0) := by
  decide

theorem test_witness_startLatchesThePool :
    State.reset.params.Legal ∧ (1#64).getLsbD 1 = false ∧ (1#64).getLsbD 0 = true ∧ State.reset.runState = .config ∧
    (0#64).getLsbD 1 = false ∧ (0#64).getLsbD 0 = false ∧ running.runState ≠ .config := by decide +kernel

theorem test_witness_softResetIsReset : (3#64).getLsbD 1 = true := by decide

theorem test_witness_unlockedConfigWriteStores :
    State.reset.runState ≠ .running ∧ (4#64).toNat % 4 = 0 ∧ (5#64).toNat % 4 = 1 ∧ (2#64).toNat % 4 = 2 ∧
    (3#64).toNat % 4 = 3 := by decide

theorem test_witness_unlockedFreqWriteStores :
    127 < 128 ∧ State.reset.runState ≠ .running ∧ State.reset.freq.length = 128 := by decide +kernel

theorem test_witness_lockedWriteIsOnlyFlagged :
    running.runState = .running ∧
    ((0x040#12).toNat % 4 = 0 ∧ 0x040 ≤ (0x040#12).toNat ∧ (0x040#12).toNat ≤ 0x06C) ∧
    ((0x06C#12).toNat % 4 = 0 ∧ 0x040 ≤ (0x06C#12).toNat ∧ (0x06C#12).toNat ≤ 0x06C) ∧
    ((0x9FC#12).toNat % 4 = 0 ∧ 0x800 ≤ (0x9FC#12).toNat ∧ (0x9FC#12).toNat ≤ 0x9FC) := by decide

theorem test_witness_pushAppendsOrDropsNewest :
    State.reset.fifo.length < State.reset.params.evqDepth ∧
    ({ State.reset with params := { maxVoices := 16, evqDepth := 1 }, fifo := [{ cmd := 0#32, data := 0#32 }] } :
      State).params.evqDepth ≤ [({ cmd := 0#32, data := 0#32 } : Event)].length := by decide +kernel

theorem test_witness_readOnlyWritesAreIgnored :
    ((0x018#12).toNat % 4 = 0 ∧ (0x018#12).toNat ∈ [0x000, 0x008, 0x010, 0x014, 0x018]) ∧
    ((0x7FC#12).toNat % 4 = 0 ∧ 0x070 ≤ (0x7FC#12).toNat ∧ (0x7FC#12).toNat < 0x800) ∧
    ((0xA00#12).toNat % 4 = 0 ∧ 0xA00 ≤ (0xA00#12).toNat) := by decide

theorem test_witness_hostWritesLeaveVoicesAlone :
    ¬(BusSize.b4 = .b4 ∧ 0x004#12 = 0x004#12 ∧ (1#64).getLsbD 1 = true) ∧
    ¬(BusSize.b4 = .b4 ∧ 0x02C#12 = 0x004#12 ∧ (3#64).getLsbD 1 = true) := by decide

/-- The first and the last TIMER value of an unexhausted frame. -/
theorem test_witness_frameStepAdvancesTheCounters :
    (rendering running).framesNext = true ∧ running.runState = .running ∧ running.timer.toNat < 2 ^ 64 - 2 ∧
    (0xFFFFFFFFFFFFFFFD#64).toNat < 2 ^ 64 - 2 := by decide

/-- Whole pools, and the Engine's own turn first or not among the inputs. -/
theorem test_witness_frameStepAdvancesTheCounters_mix :
    two.pool.toNat ≤ two.voices.length ∧ State.reset.pool.toNat ≤ State.reset.voices.length ∧
    (rendering running).inputs = .engine :: [] ∧
    ({ rendering running with inputs := [.render 1#32] } : State).framesNext = true := by decide +kernel

/-- R154's example: the state of vector V7 at its second frame. -/
theorem test_witness_frameStepAdvancesTheCounters_example :
    let s := rendering pinned
    s.framesNext = true ∧ s.runState = .running ∧ s.pool = 1#6 ∧ s.voices ≠ [] ∧ (s.voiceAt 0).env = .bypass ∧
    (s.voiceAt 0).vel = 0x3F000000#32 ∧ s.cfg.waveSel = .circle ∧ s.cfg.sampleRate = 4#32 ∧
    s.freq.getD (s.voiceAt 0).note.toNat 0#32 = 0x3F800000#32 ∧ s.timer = 1#64 ∧
    s.cfg.masterGain = 0x3F800000#32 ∧ s.cfg.outFmt = .f32 := by decide +kernel

theorem test_witness_exhaustedCounterHalts :
    let s := rendering { running with timer := 0xFFFFFFFFFFFFFFFE#64 }
    s.framesNext = true ∧ s.runState = .running ∧ s.timer = 0xFFFFFFFFFFFFFFFE#64 := by decide

theorem test_witness_silenceWhileNotRunning :
    State.reset.runState ≠ .running ∧ (rendering State.reset).framesNext = true := by decide

theorem test_witness_timerMovesOnlyByFrames : (rendering running).timer ≠ 0xFFFFFFFFFFFFFFFF#64 := by decide

/-- A write to a locked register in a running block: it has a next state and is no reset. -/
theorem test_witness_configurationIsLockedWhileRunning :
    let s := { running with inputs := [.bus 0xA04C#16 0x3F000000#64] }
    s.runState = .running ∧ s.resetsNext = false ∧ ∃ s', step s = .next s' := ⟨rfl, rfl, _, rfl⟩

/-- START in CONFIG: the run state changes. -/
theorem test_witness_runStatesChangeAsListed :
    let s := { State.reset with inputs := [.bus 0xA004#16 1#64] }
    ∃ s', step s = .next s' ∧ s'.runState = .running ∧ s'.runState ≠ s.runState := ⟨_, rfl, rfl, by decide⟩

theorem test_witness_shape : two.Shape ∧ (rendering running).Shape ∧ State.reset.Shape := by decide +kernel

theorem test_witness_countersInOrder : two.CountersInOrder ∧ pinned.CountersInOrder := by decide +kernel

theorem test_witness_notesStayDistinct : two.Shape ∧ two.DormantOutsidePool ∧ two.NotesDistinct := by decide +kernel

/-- A halted block, its fault mark set, and a step of it that is no reset. -/
theorem test_witness_faultMarkMeansHalted :
    let s := rendering { running with runState := .halted, faultMark := true }
    s.MarkIffHalted ∧ s.Faulted ∧ s.resetsNext = false ∧ ∃ s', step s = .next s' := by
  refine ⟨by decide, by decide, rfl, _, rfl⟩

theorem test_witness_invariantsHoldAtReset :
    Config.reference.Legal ∧ ({ maxVoices := 32, evqDepth := 65535 } : Params).Legal ∧
    ({ maxVoices := 1, evqDepth := 1 } : Params).Legal := by decide

/-- The one refusal: a descriptor with SIZE 4. -/
theorem test_size_never_presented_is_refused :
    step { running with inputs := [.bus 0x4000#16 0#64] } = .refused .busSizeNeverPresented := rfl

end Sys2Proof.Tests
end

/-! SUPPORT. The scope (00_scope.md): the order and the clamp of R9 and R10, the SINCOS unit of R13, and what a step of
the machine runs (R4, R5, R16). -/

namespace Sys2Proof.Laws

open Sys2Proof.Machine

/-! ### The order of R9 -/

theorem flt_le_iff {x y : Flt} : x.le y = true ↔ x.isNan = false ∧ y.isNan = false ∧ x.place ≤ y.place := by
  simp [Flt.le, and_assoc]

theorem flt_lt_iff {x y : Flt} : x.lt y = true ↔ x.isNan = false ∧ y.isNan = false ∧ x.place < y.place := by
  simp [Flt.lt, and_assoc]

theorem flt_eqv_iff {x y : Flt} : x.eqv y = true ↔ x.isNan = false ∧ y.isNan = false ∧ x.place = y.place := by
  simp [Flt.eqv, and_assoc]

/-! ### clamp (R10) -/

/-- Everything a clamp can answer: the lower bound, the upper bound, or an argument strictly between them. -/
theorem clamp_cases {x lo hi : Flt} (h : lo.le hi = true) :
    (clamp x lo hi = lo ∧ (x.isNan = true ∨ x.le lo = true)) ∨
    (clamp x lo hi = hi ∧ lo.lt x = true ∧ hi.le x = true) ∨
    (clamp x lo hi = x ∧ lo.lt x = true ∧ x.lt hi = true) := by
  rw [flt_le_iff] at h
  obtain ⟨hlo, hhi, -⟩ := h
  unfold clamp
  split_ifs with hn hxl hxh
  · exact .inl ⟨rfl, .inl hn⟩
  · exact .inl ⟨rfl, .inr hxl⟩
  all_goals
    have hn : x.isNan = false := by simpa using hn
    have hlt : lo.lt x = true := by simpa [flt_le_iff, flt_lt_iff, hn, hlo] using hxl
  · exact .inr (.inl ⟨rfl, hlt, hxh⟩)
  · exact .inr (.inr ⟨rfl, hlt, by simpa [flt_le_iff, flt_lt_iff, hn, hhi] using hxh⟩)

theorem clamp_of_nan {x lo hi : Flt} (h : x.isNan = true) : clamp x lo hi = lo := by
  simp [clamp, h]

theorem clamp_of_le_lo {x lo hi : Flt} (h : x.le lo = true) : clamp x lo hi = lo := by
  simp [clamp, h]

theorem clamp_of_hi_lt {x lo hi : Flt} (h : lo.le hi = true) (hx : hi.lt x = true) : clamp x lo hi = hi := by
  obtain ⟨hlo, hhi, hle⟩ := flt_le_iff.mp h
  obtain ⟨-, hn, hlt⟩ := flt_lt_iff.mp hx
  rw [clamp, if_neg (by simp [hn]), if_neg (by rw [flt_le_iff]; omega),
    if_pos (flt_le_iff.mpr ⟨hhi, hn, hlt.le⟩)]

/-- Between the bounds the result has the argument's value. -/
theorem clamp_eqv_of_between {x lo hi : Flt} (hl : lo.le x = true) (hh : x.le hi = true) :
    (clamp x lo hi).eqv x = true := by
  obtain ⟨hlo, hx, hlx⟩ := flt_le_iff.mp hl
  obtain ⟨-, hhi, hxh⟩ := flt_le_iff.mp hh
  rw [flt_eqv_iff]
  rcases clamp_cases (x := x) (flt_le_iff.mpr ⟨hlo, hhi, hlx.trans hxh⟩) with
    ⟨hc, hn | hle⟩ | ⟨hc, -, hle⟩ | ⟨hc, -, -⟩ <;> rw [hc]
  · simp [hx] at hn
  · obtain ⟨-, -, hxl⟩ := flt_le_iff.mp hle
    exact ⟨hlo, hx, le_antisymm hlx hxl⟩
  · obtain ⟨-, -, hhx⟩ := flt_le_iff.mp hle
    exact ⟨hhi, hx, le_antisymm hhx hxh⟩
  · exact ⟨hx, hx, rfl⟩

/-- Strictly between the bounds the result is the argument itself. -/
theorem clamp_of_strictly_between {x lo hi : Flt} (hl : lo.lt x = true) (hh : x.lt hi = true) :
    clamp x lo hi = x := by
  obtain ⟨-, hn, hlt⟩ := flt_lt_iff.mp hl
  obtain ⟨-, -, hlt'⟩ := flt_lt_iff.mp hh
  rw [clamp, if_neg (by simp [hn]), if_neg (by rw [flt_le_iff]; omega), if_neg (by rw [flt_le_iff]; omega)]

/-- A result equal to the lower bound is that bound's literal, unless the bounds are equal (R10). -/
theorem clamp_eqv_lo {x lo hi : Flt} (h : lo.le hi = true) (he : (clamp x lo hi).eqv lo = true) :
    clamp x lo hi = lo ∨ (clamp x lo hi = hi ∧ hi.eqv lo = true) := by
  rcases clamp_cases (x := x) h with ⟨hc, -⟩ | ⟨hc, -, -⟩ | ⟨hc, hlt, -⟩
  · exact .inl hc
  · exact .inr ⟨hc, hc ▸ he⟩
  · rw [hc, flt_eqv_iff] at he
    rw [flt_lt_iff] at hlt
    omega

/-- A result equal to the upper bound is that bound's literal, unless the bounds are equal (R10). -/
theorem clamp_eqv_hi {x lo hi : Flt} (h : lo.le hi = true) (he : (clamp x lo hi).eqv hi = true) :
    clamp x lo hi = hi ∨ (clamp x lo hi = lo ∧ lo.eqv hi = true) := by
  rcases clamp_cases (x := x) h with ⟨hc, -⟩ | ⟨hc, -, -⟩ | ⟨hc, -, hlt⟩
  · exact .inr ⟨hc, hc ▸ he⟩
  · exact .inl hc
  · rw [hc, flt_eqv_iff] at he
    rw [flt_lt_iff] at hlt
    omega

/-! ### SINCOS (R13) -/

theorem Bip.isFinite {x : Flt} (h : Bip x) : x.isFinite = true := by
  obtain ⟨s, m, rfl, -⟩ := h
  rfl

/-- SC2 of R13: two words whose turn is taken to the same quarter give the exact pair of that quarter. -/
theorem sincos_of_quarters {a b : Word} {n : Nat} {p : Flt × Flt} (ha : wrapTurn (f32 a) = fltQuarters n)
    (hb : wrapTurn (f32 b) = fltQuarters n) (hp : quarterTurn (fltQuarters n) = some p) :
    ∀ t ∈ [a, b], sincos (f32 t) = p := by
  simp [sincos, ha, hb, hp]

/-- SINCOS depends on its argument through the turn it is taken to only. -/
theorem sincos_congr {t u : Flt} (h : wrapTurn t = wrapTurn u) : sincos t = sincos u := by
  rw [sincos, h, sincos]

theorem wrapTurn_of_lt_one {m : Nat} (h : m < fltUnit) : wrapTurn (.fin false m) = .fin false m := by
  have hle : (fltLit 1).le (.fin false m) = false := by
    simp [Flt.le, Flt.isNan, Flt.place, fltLit_one, signedMag, h]
  simp [wrapTurn, hle]

/-- The values in [1, 2) are the finite values whose magnitude is there. -/
theorem fin_of_mem_one_two {x : Flt} (h1 : (fltLit 1).le x = true) (h2 : x.lt (fltLit 2) = true) :
    ∃ m, x = .fin false m ∧ fltUnit ≤ m ∧ m < 2 * fltUnit := by
  have hu := fltUnit_pos
  rw [flt_le_iff, fltLit_one] at h1
  rw [flt_lt_iff, fltLit_eq] at h2
  obtain ⟨-, hx, h1⟩ := h1
  obtain ⟨-, -, h2⟩ := h2
  rcases x with _ | s | ⟨s, m⟩
  · simp [Flt.isNan] at hx
  · cases s <;> simp [Flt.place, signedMag, fltOverflow] at h1 h2 <;> omega
  · cases s <;> simp [Flt.place, signedMag] at h1 h2
    · exact ⟨m, rfl, by omega, by omega⟩
    · omega

/-- `m − 1.0` for m in [1, 2) has a 24-bit significand again. -/
theorem sig_sub_unit {m : Nat} (hs : Sig m) (h1 : fltUnit ≤ m) (h2 : m < 2 * fltUnit) : Sig (m - fltUnit) := by
  have hlog : m.log2 = 149 := by
    have hm : m ≠ 0 := by have := fltUnit_pos; omega
    have hlo : 149 ≤ m.log2 := (Nat.le_log2 hm).mpr h1
    have hhi : m.log2 < 150 := (Nat.log2_lt hm).mpr (lt_of_lt_of_eq h2 (by decide))
    omega
  obtain ⟨c, hc⟩ := ulpExp_dvd hs
  rw [ulpExp, hlog] at hc
  unfold fltUnit at *
  exact ⟨c - 2 ^ 23, 126, by omega, by omega⟩

/-- The subtraction of SC3 is exact (R13). -/
theorem sub_one_exact {m : Nat} (hs : Sig m) (h1 : fltUnit ≤ m) (h2 : m < 2 * fltUnit) :
    (Flt.fin false m).sub (fltLit 1) = .fin false (m - fltUnit) := by
  have hz : signedMag false m + signedMag (!false) fltUnit = ((m - fltUnit : Nat) : Int) := by
    simp only [signedMag, Bool.not_false, Bool.false_eq_true, if_true, if_false]
    omega
  have hr : roundMag (m - fltUnit) 1 = m - fltUnit := by
    simpa using roundMag_exact one_pos (sig_sub_unit hs h1 h2)
  have ho := fltUnit_lt_overflow
  rw [Flt.sub, fltLit_one, Flt.neg, add_fin (by rw [hz, Int.natAbs_natCast, hr]; omega), hz,
    Int.natAbs_natCast, hr]
  split_ifs with h0
  · have : m - fltUnit = 0 := by exact_mod_cast h0
    rw [this, Bool.false_and]
  · rw [decide_eq_false (by omega)]

/-- SC3 of R13: an argument in [1, 2) gives the pair of the argument one turn down. -/
theorem sincos_sub_turn {x : Flt} (hg : Good x) (h1 : (fltLit 1).le x = true) (h2 : x.lt (fltLit 2) = true) :
    sincos x = sincos (x.sub (fltLit 1)) := by
  have hw : wrapTurn x = x.sub (fltLit 1) := by simp [wrapTurn, h1, h2]
  obtain ⟨m, rfl, hm1, hm2⟩ := fin_of_mem_one_two h1 h2
  refine sincos_congr ?_
  rw [hw, sub_one_exact hg hm1 hm2, wrapTurn_of_lt_one (by omega)]

end Sys2Proof.Laws

namespace Sys2Proof.Machine

/-! ### Every operation and every step but one has a next state (R16, R87) -/

theorem exec_next (i : Instr) (s : State) : ∃ t, exec i s = .next t := by
  cases i <;> exact ⟨_, rfl⟩

theorem State.present_of_decode_ok {s : State} {w : Words} {i : Instr} (h : decode w = .ok i) :
    s.present w = exec i s := by
  simp [State.present, h]

/-- The SIZE codes that are never presented (R87). -/
theorem size_of_descSize_eq_none {desc : BitVec 16} (h : descSize desc = none) :
    4 ≤ (desc.extractLsb' 12 3).toNat := by
  unfold descSize at h
  by_contra hlt
  have hsize : (desc.extractLsb' 12 3).toNat < 4 := by omega
  interval_cases (desc.extractLsb' 12 3).toNat <;> cases h

/-- A bus transaction at the head of the order is what is presented (R5). -/
theorem step_bus {s : State} {desc : BitVec 16} {wdata : BitVec 64} {rest : List Input}
    (h : s.inputs = .bus desc wdata :: rest) :
    step s = ({ s with inputs := rest } : State).present (.bus desc wdata) := by
  simp [step, State.sequence, h]

/-- A request at the head of the order is presented when no frame is owed (R152). -/
theorem step_render {s : State} {frames : Word} {rest : List Input}
    (h : s.inputs = .render frames :: rest) (h0 : s.framesLeft = 0) :
    step s = ({ s with inputs := rest } : State).present (.render frames) := by
  simp [step, State.sequence, h, h0]

/-- A request that comes while frames are owed waits, and the Engine takes its turn (R4). -/
theorem step_render_waits {s : State} {frames : Word} {rest : List Input}
    (h : s.inputs = .render frames :: rest) (h0 : s.framesLeft ≠ 0) : step s = .next s.engineTurn := by
  simp [step, State.sequence, h, h0]

@[simp] theorem State.engineTurn_inputs (s : State) : s.engineTurn.inputs = s.inputs := by
  rcases s.engineTurn_cases with ⟨-, h⟩ | ⟨-, h⟩ <;> simp [h]

/-- A step on a bus transaction has a next state, unless its SIZE is never presented. -/
theorem step_bus_next_or_refused {s : State} {desc : BitVec 16} {wdata : BitVec 64} {rest : List Input}
    (h : s.inputs = .bus desc wdata :: rest) :
    (∃ t, step s = .next t) ∨
      (step s = .refused .busSizeNeverPresented ∧ 4 ≤ (desc.extractLsb' 12 3).toNat) := by
  rw [step_bus h]
  rcases decodeBus_cases desc wdata with ⟨size, -, ⟨-, hd⟩ | ⟨-, hd⟩⟩ | ⟨hs, hd⟩
  · exact .inl (State.present_of_decode_ok hd ▸ exec_next _ _)
  · exact .inl (State.present_of_decode_ok hd ▸ exec_next _ _)
  · exact .inr ⟨by simp [State.present, hd], size_of_descSize_eq_none hs⟩

/-! ### The parameters (R6) -/

theorem Move.params {s t : State} (h : Move s t) : t.params = s.params := by
  cases h
  case advance => exact s.advance_params
  all_goals rfl

/-! ### What a step runs (R4, R5, R145) -/

/-- The drain of a RENDER(0) runs the one event queued (R145, R153). -/
theorem exec_render_zero_event {s : State} {e : Event} {i : Instr} (h0 : s.framesLeft = 0)
    (hr : s.runState = .running) (hf : s.fifo = [e]) (hd : decodeEvent e.cmd e.data s.pool.toNat = .ok i) :
    exec (.render 0#32) s = exec i { s with fifo := [] } := by
  have hs : ({ s with framesLeft := (0#32).toNat } : State) = s := by
    cases s
    simp_all
  have he : exec i { s with fifo := [] } = .next (State.applyEvent { s with fifo := [] } e) := State.exec_event hd
  rw [exec_render, hs, State.drain_running hr, hf, he]
  rfl

end Sys2Proof.Machine

namespace Sys2Proof.Scope

open Sys2Proof.Laws Sys2Proof.Machine

/-! ### The obligations of 00_scope.md -/

/-- Settles O25. SC1 is `sincos_bip`, SC2 the table of `quarterTurn` at the four quarters, SC3 `sincos_sub_turn`. -/
theorem sincosBoundedExactPeriodic : Obligations.SincosBoundedExactPeriodic := by
  unfold Obligations.SincosBoundedExactPeriodic
  refine ⟨fun t => ?_, ?_, ?_, ?_, ?_, fun w => ?_⟩
  · obtain ⟨hs, hc⟩ := sincos_bip t
    exact ⟨hs.isFinite, hc.isFinite, inBipolarUnit_iff.mpr hs, inBipolarUnit_iff.mpr hc⟩
  · exact sincos_of_quarters (n := 0) (by decide +kernel) (by decide +kernel) (by decide +kernel)
  · exact sincos_of_quarters (n := 1) (by decide +kernel) (by decide +kernel) (by decide +kernel)
  · exact sincos_of_quarters (n := 2) (by decide +kernel) (by decide +kernel) (by decide +kernel)
  · exact sincos_of_quarters (n := 3) (by decide +kernel) (by decide +kernel) (by decide +kernel)
  · exact sincos_sub_turn (good_f32 w)

/-- Settles O54, by what stands first in the order of the agents. -/
theorem everyOperationHasANextState : Obligations.EveryOperationHasANextState := by
  unfold Obligations.EveryOperationHasANextState
  refine ⟨exec_next, fun s => ?_⟩
  rcases hi : s.inputs with _ | ⟨input, rest⟩
  · exact .inl ⟨s.engineTurn, by simp [step, State.sequence, hi]⟩
  cases input with
  | bus desc wdata =>
    rcases step_bus_next_or_refused hi with hn | ⟨hr, hsize⟩
    · exact .inl hn
    · exact .inr ⟨hr, desc, wdata, rest, rfl, hsize⟩
  | render frames =>
    left
    by_cases h0 : s.framesLeft = 0
    · rw [step_render hi h0, State.present_of_decode_ok rfl]
      exact exec_next _ _
    · exact ⟨_, step_render_waits hi h0⟩
  | engine => exact .inl ⟨({ s with inputs := rest } : State).engineTurn, by simp [step, State.sequence, hi]⟩
  | reset => exact .inl ⟨({ s with inputs := rest } : State).softReset, by simp [step, State.sequence, hi]⟩

/-- Settles O55: no elementary move touches the parameters. -/
theorem parametersNeverChange : Obligations.ParametersNeverChange := by
  unfold Obligations.ParametersNeverChange
  intro s s' hstep
  exact kept_by_step (P := fun t => t.params = s.params) (fun _ _ hp hm => hm.params.trans hp) rfl hstep

/-- Settles O5. The first two clauses are `State.present` after the input is taken; the last goes through the drain. -/
theorem stepRunsDecodedOperation : Obligations.StepRunsDecodedOperation := by
  unfold Obligations.StepRunsDecodedOperation
  refine ⟨fun s desc wdata rest i hi hd => ?_, fun s frames rest i hi h0 hd => ?_,
    fun s frames rest hi h0 => ⟨step_render_waits hi h0, by rw [State.engineTurn_inputs, hi]⟩,
    fun s e rest i hi h0 hr hf hd => ?_⟩
  · rw [step_bus hi, State.present_of_decode_ok hd]
  · rw [step_render hi h0, State.present_of_decode_ok hd]
  · rw [step_render hi h0, State.present_of_decode_ok rfl]
    exact exec_render_zero_event h0 hr hf hd

/-- Settles O30, clause by clause of R10. -/
theorem clampRule : Obligations.ClampRule := by
  unfold Obligations.ClampRule
  refine ⟨fun x lo hi h => ⟨clamp_of_nan, fun hlt => clamp_of_le_lo ?_, clamp_of_hi_lt h,
    fun hl hh => ⟨clamp_eqv_of_between hl hh, clamp_of_strictly_between⟩, clamp_eqv_lo h, clamp_eqv_hi h⟩, ?_⟩
  · obtain ⟨hx, hlo, hp⟩ := flt_lt_iff.mp hlt
    exact flt_le_iff.mpr ⟨hx, hlo, hp.le⟩
  · exact (clamp_of_le_lo (by decide +kernel)).trans (by decide +kernel)

end Sys2Proof.Scope

/-! SUPPORT. The state (10_state.md): the words of a voice window (R48, R49), what a Host write can touch (R47), what
a step does to TIMER and to the run state (R53, R54), the sizes every elementary move keeps (R30, R31, R47, R51, R52),
and the frequency table (R51). -/

namespace Sys2Proof.Machine

/-! ### The words of a voice window (R48, R49, R179) -/

/-- A word put together from a low part and a multiple of a power of two above it. -/
theorem or_toNat_of_disjoint {x y : Word} {i k : Nat} (hx : x.toNat < 2 ^ i) (hy : y.toNat = k * 2 ^ i) :
    (x ||| y).toNat = x.toNat + k * 2 ^ i := by
  rw [BitVec.toNat_or, hy, Nat.mul_comm, Nat.or_comm, ← Nat.two_pow_add_eq_or_of_lt hx, Nat.add_comm]

/-- VSTATE as a number: its fields do not overlap (R48). -/
theorem vstateWord_toNat (x : Voice) (free inPool : Bool) :
    (vstateWord x free inPool).toNat = x.env.code.toNat + 4 * x.noteValid.toNat + 8 * free.toNat +
      256 * x.note.toNat + 65536 * inPool.toNat := by
  have hcode : (x.env.code.setWidth 32).toNat = x.env.code.toNat := by
    cases x.env <;> rfl
  have hnote : (x.note.setWidth 32 <<< 8).toNat = x.note.toNat * 2 ^ 8 := by
    have := x.note.isLt
    rw [BitVec.toNat_shiftLeft, BitVec.toNat_setWidth, Nat.shiftLeft_eq]
    omega
  have hc := x.env.code.isLt
  have hn := x.note.isLt
  have hv := x.noteValid.toNat_lt
  have hf := free.toNat_lt
  have h1 := or_toNat_of_disjoint (hcode.trans_lt hc) (flagBit_toNat x.noteValid (by norm_num : 2 < 32))
  have h2 := or_toNat_of_disjoint (by omega) (flagBit_toNat free (by norm_num : 3 < 32))
    (x := x.env.code.setWidth 32 ||| flagBit x.noteValid 2)
  have h3 := or_toNat_of_disjoint (by omega) hnote
    (x := x.env.code.setWidth 32 ||| flagBit x.noteValid 2 ||| flagBit free 3)
  have h4 := or_toNat_of_disjoint (by omega) (flagBit_toNat inPool (by norm_num : 16 < 32))
    (x := x.env.code.setWidth 32 ||| flagBit x.noteValid 2 ||| flagBit free 3 ||| x.note.setWidth 32 <<< 8)
  rw [vstateWord, h4, h3, h2, h1, hcode]
  ring

/-- Word k of window v is what the offset 0x400 + 32 v + 4 k reads (R179). -/
theorem State.readWord_window (s : State) {v k : Nat} (hv : v < 32) (hk : k < 8) :
    s.readWord (BitVec.ofNat 12 (0x400 + 0x20 * v + 4 * k)) = s.windowWord v (winWordAt k) := by
  rw [State.readWord, regAt_window hv hk, State.readReg]

/-- A window from MAX_VOICES on is reserved (R46). -/
theorem State.windowWord_of_ge {s : State} {v : Nat} (h : s.params.maxVoices ≤ v) (w : WinWord) :
    s.windowWord v w = 0#32 := if_pos h

/-- VSTATE of a voice the block has, with the free predicate of R121 written out. -/
theorem State.windowWord_vstate {s : State} {v : Nat} (h : v < s.params.maxVoices) :
    (s.windowWord v .vstate).toNat = (s.voiceAt v).env.code.toNat + 4 * (s.voiceAt v).noteValid.toNat +
      8 * (decide ((s.voiceAt v).env ≠ .bypass) && (envLevel s.cfg (s.voiceAt v) s.timer).eqv fltZero).toNat +
      256 * (s.voiceAt v).note.toNat + 65536 * (decide (v < s.pool.toNat)).toNat := by
  rw [State.windowWord, if_neg (by omega)]
  exact vstateWord_toNat _ _ _

/-! ### The effective values (R36, R37) -/

theorem gainEff_of_finite {w : Word} (h : (f32 w).isFinite = true) : gainEff w = f32 w := if_pos h

theorem gainEff_of_not_finite {w : Word} (h : (f32 w).isFinite = false) : gainEff w = fltZero :=
  if_neg (by simp [h])

theorem durEff_of_nan {w : Word} (h : (f32 w).isNan = true) : durEff w = durEps := by
  simp [durEff, h]

theorem durEff_of_lt {w : Word} (h : (f32 w).lt durEps = true) : durEff w = durEps := by
  simp [durEff, h]

theorem durEff_of_ge {w : Word} (h : durEps.le (f32 w) = true) : durEff w = f32 w := by
  obtain ⟨-, hn, hle⟩ := Laws.flt_le_iff.mp h
  have hlt : (f32 w).lt durEps = false := by
    rw [Bool.eq_false_iff, Ne, Laws.flt_lt_iff]
    omega
  simp [durEff, hn, hlt]

/-! ### A Host write (R47, R171) -/

/-- A legal write that names CTRL stands at its one offset. -/
theorem eq_ctrl_of_legal {size : BusSize} {off : BitVec 12} (hl : busLegal size off = true)
    (hr : regAt off = .ctrl) : size = .b4 ∧ off = 0x004#12 := by
  obtain ⟨hs, ho⟩ := busLegal_iff.mp hl
  refine ⟨?_, regAt_eq_ctrl hr ho⟩
  cases size <;> first | rfl | simp [BusSize.bytes] at hs

/-- A write to CTRL with bit 1 set is a reset, whatever bit 0 holds (R174). -/
theorem State.afterWrite_srst {s : State} {wdata : BitVec 64} (h : wdata.getLsbD 1 = true) :
    s.afterWrite .b4 0x004#12 wdata = s.softReset := by
  have hv : (wdata.setWidth 32).getLsbD 1 = true := by simpa using h
  exact if_pos hv

/-- Everything a write that is no reset can do: START, or a change of the registers of the Host, with entries pushed
behind those queued. -/
theorem State.afterWrite_cases (s : State) {size : BusSize} {off : BitVec 12} {wdata : BitVec 64}
    (hn : ¬(size = .b4 ∧ off = 0x004#12 ∧ wdata.getLsbD 1 = true)) :
    (size = .b4 ∧ off = 0x004#12 ∧ wdata.getLsbD 0 = true ∧ wdata.getLsbD 1 = false ∧ s.runState = .config ∧
      s.afterWrite size off wdata = s.start (poolFor s.cfg.voices s.params.maxVoices)) ∨
    ∃ errs data cfg freq pushed, s.afterWrite size off wdata =
      { s with errs := errs, evData := data, cfg := cfg, freq := freq, fifo := s.fifo ++ pushed } := by
  have hsame : ∀ errs data cfg freq, { s with errs := errs, evData := data, cfg := cfg, freq := freq } =
      { s with errs := errs, evData := data, cfg := cfg, freq := freq, fifo := s.fifo ++ [] } := by simp
  unfold State.afterWrite
  split_ifs with hl
  · rcases s.writeReg_cases (regAt off) (wdata.setWidth 32) with
      h | ⟨hr, h1, -⟩ | ⟨hr, h1, h0, hc, h⟩ | ⟨e, h⟩ | h | ⟨-, h⟩ | ⟨-, c, h⟩ | ⟨-, n, h⟩ <;>
      simp only [State.writeWord]
    · exact .inr ⟨_, _, _, _, _, h.trans (hsame s.errs s.evData s.cfg s.freq)⟩
    · obtain ⟨hs, ho⟩ := eq_ctrl_of_legal hl hr
      exact absurd ⟨hs, ho, by simpa using h1⟩ hn
    · obtain ⟨hs, ho⟩ := eq_ctrl_of_legal hl hr
      exact .inl ⟨hs, ho, by simpa using h0, by simpa using h1, hc, h⟩
    · exact .inr ⟨_, _, _, _, _, h.trans (hsame e s.evData s.cfg s.freq)⟩
    · exact .inr ⟨_, _, _, _, _, h.trans (hsame s.errs _ s.cfg s.freq)⟩
    · exact .inr ⟨_, _, _, _, _, h⟩
    · exact .inr ⟨_, _, _, _, _, h.trans (hsame s.errs s.evData c s.freq)⟩
    · exact .inr ⟨_, _, _, _, _, h.trans (hsame s.errs s.evData s.cfg _)⟩
  · rw [s.raise_of_ne (by simp)]
    exact .inr ⟨_, _, _, _, _, hsame _ s.evData s.cfg s.freq⟩

/-! ### What a step does to TIMER and to the run state (R53, R54) -/

/-- A descriptor is 0xA004 when it is a write of four bytes to CTRL (R87). -/
theorem desc_eq_ctrl_iff {desc : BitVec 16} {size : BusSize} (hs : descSize desc = some size)
    (hw : descIsWrite desc = true) : desc = 0xA004#16 ↔ size = .b4 ∧ descOffset desc = 0x004#12 := by
  constructor
  · rintro rfl
    cases hs
    exact ⟨rfl, rfl⟩
  · rintro ⟨rfl, ho⟩
    rw [desc_of_fields hs, hw, ho]
    rfl

/-- The data of a four-byte write keeps its low bits. -/
theorem busData_b4_getLsbD (wdata : BitVec 64) {i : Nat} (h : i < 32) :
    (busData .b4 wdata).getLsbD i = wdata.getLsbD i := by
  simp [busData, BusSize.bytes, h]
  omega

/-- A frame step is no reset. -/
theorem State.resetsNext_of_framesNext {s : State} (h : s.framesNext = true) : s.resetsNext = false := by
  unfold State.resetsNext
  rcases hi : s.inputs with _ | ⟨input, rest⟩
  · rfl
  · cases input <;> simp [State.framesNext, hi] at h ⊢

/-- The run state with what START and the halt change beside it, and TIMER. -/
structure SameRun (s t : State) : Prop where
  runState : t.runState = s.runState
  faultMark : t.faultMark = s.faultMark
  timer : t.timer = s.timer
  pool : t.pool = s.pool

theorem sameRun_raise (s : State) {c : ErrCause} (h : c ≠ .timerExh) : SameRun s (s.raise c) := by
  rw [s.raise_of_ne h]
  exact ⟨rfl, rfl, rfl, rfl⟩

theorem sameRun_afterRead (s : State) (size : BusSize) (off : BitVec 12) : SameRun s (s.afterRead size off) := by
  unfold State.afterRead
  split_ifs
  · exact ⟨rfl, rfl, rfl, rfl⟩
  · obtain ⟨hr, hf, ht, hp⟩ := sameRun_raise s (c := .bus off false size) (by simp)
    exact ⟨hr, hf, ht, hp⟩

theorem sameRun_drain (s : State) : SameRun s s.drain := by
  by_cases h : s.runState = .running
  · have hd := State.drain_frame h
    exact ⟨hd.runState, hd.faultMark, hd.timer, hd.pool⟩
  · rw [State.drain_of_not_running h]
    exact ⟨rfl, rfl, rfl, rfl⟩

theorem State.advance_of_exhausted {s : State} (h : s.timer + 1#64 = Config.sentinel) :
    s.advance = s.raise .timerExh := if_pos h

theorem State.advance_of_not_exhausted {s : State} (h : s.timer + 1#64 ≠ Config.sentinel) :
    s.advance = ({ s with timer := s.timer + 1#64 } : State).mapPool fun x => { x with lfo := x.lfo + 1#64 } :=
  if_neg h

/-- A frame leaves the run as it is, or advances TIMER, or exhausts it and halts (R104, R157, R158). -/
theorem State.frame_cases (s : State) :
    SameRun s s.frame ∨
    (s.runState = .running ∧ s.frame.runState = .running ∧ s.frame.faultMark = s.faultMark ∧
      s.frame.timer = s.timer + 1#64) ∨
    (s.runState = .running ∧ s.timer + 1#64 = Config.sentinel ∧ s.frame.runState = .halted ∧
      s.frame.faultMark = true ∧ s.frame.timer = s.timer) := by
  by_cases hr : s.runState = .running
  · rw [State.frame_running hr]
    by_cases ht : s.timer + 1#64 = Config.sentinel
    · rw [State.advance_of_exhausted (s := s.emit _) ht]
      exact .inr (.inr ⟨hr, ht, rfl, rfl, rfl⟩)
    · rw [State.advance_of_not_exhausted (s := s.emit _) ht]
      exact .inr (.inl ⟨hr, hr, rfl, rfl⟩)
  · rw [State.frame_not_running hr]
    exact .inl ⟨rfl, rfl, rfl, rfl⟩

/-- What a step does to the run: a reset, a frame step, START, or nothing. -/
theorem step_run_cases {s s' : State} (h : step s = .next s') :
    (s.resetsNext = true ∧ ∃ ins, s' = ({ s with inputs := ins } : State).softReset) ∨
    (s.resetsNext = false ∧ s.framesNext = true ∧
      ∃ ins n, s' = ({ s with inputs := ins, framesLeft := n } : State).frame) ∨
    (s.resetsNext = false ∧ s.runState = .config ∧ ∃ wdata rest, s.inputs = .bus 0xA004#16 wdata :: rest ∧
      wdata.getLsbD 0 = true ∧ wdata.getLsbD 1 = false ∧
      s' = ({ s with inputs := rest } : State).start (poolFor s.cfg.voices s.params.maxVoices)) ∨
    (s.resetsNext = false ∧ SameRun s s') := by
  rcases step_cases h with ⟨-, -, ⟨ins, rfl⟩, hi⟩ | ⟨hf, -, ins, rfl⟩ | ⟨rest, hi, rfl⟩ |
    ⟨desc, wdata, rest, size, hi, hs, hw, rfl⟩ | ⟨desc, wdata, rest, size, hi, hs, hw, rfl⟩ |
    ⟨frames, rest, hi, -, rfl⟩
  · have hr : s.resetsNext = false := by
      rcases hi with hi | ⟨rest, hi⟩ <;> simp [State.resetsNext, hi]
    exact .inr (.inr (.inr ⟨hr, rfl, rfl, rfl, rfl⟩))
  · exact .inr (.inl ⟨State.resetsNext_of_framesNext hf, hf, ins, _, rfl⟩)
  · exact .inl ⟨by simp [State.resetsNext, hi], rest, rfl⟩
  · have hd : desc ≠ 0xA004#16 := by
      rintro rfl
      cases hw
    obtain ⟨hrun, hm, ht, hp⟩ := sameRun_afterRead { s with inputs := rest } size (descOffset desc)
    exact .inr (.inr (.inr ⟨by simp [State.resetsNext, hi, hd], hrun, hm, ht, hp⟩))
  · have hres : s.resetsNext = true ↔ size = .b4 ∧ descOffset desc = 0x004#12 ∧ wdata.getLsbD 1 = true := by
      simp [State.resetsNext, hi, desc_eq_ctrl_iff hs hw, and_assoc]
    by_cases hr : s.resetsNext = true
    · obtain ⟨rfl, ho, h1⟩ := hres.mp hr
      rw [ho, State.afterWrite_srst ((busData_b4_getLsbD wdata (by norm_num)).trans h1)]
      exact .inl ⟨hr, rest, rfl⟩
    · have hr' : s.resetsNext = false := by simpa using hr
      have hn : ¬(size = .b4 ∧ descOffset desc = 0x004#12 ∧ (busData size wdata).getLsbD 1 = true) := by
        rintro ⟨rfl, ho, h1⟩
        exact hr (hres.mpr ⟨rfl, ho, (busData_b4_getLsbD wdata (by norm_num)).symm.trans h1⟩)
      rcases State.afterWrite_cases { s with inputs := rest } hn with
        ⟨rfl, ho, h0, h1, hc, ha⟩ | ⟨errs, data, cfg, freq, pushed, ha⟩
      · rw [busData_b4_getLsbD wdata (by norm_num)] at h0 h1
        obtain rfl := (desc_eq_ctrl_iff hs hw).mpr ⟨rfl, ho⟩
        exact .inr (.inr (.inl ⟨hr', hc, wdata, rest, hi, h0, h1, ha⟩))
      · rw [ha]
        exact .inr (.inr (.inr ⟨hr', rfl, rfl, rfl, rfl⟩))
  · obtain ⟨hrun, hm, ht, hp⟩ := sameRun_drain { s with inputs := rest, framesLeft := frames.toNat }
    exact .inr (.inr (.inr ⟨by simp [State.resetsNext, hi], hrun, hm, ht, hp⟩))

/-! ### The sizes and the ranges (R30, R31, R47, R51, R52) -/

/-- The pool START latches has 1 to MAX_VOICES voices (R31, R35). -/
theorem poolFor_range {p : Params} (h : p.Legal) (voices : Word) :
    1 ≤ poolFor voices p.maxVoices ∧ poolFor voices p.maxVoices ≤ p.maxVoices := by
  unfold poolFor
  split_ifs <;> omega

theorem State.initial_shape {p : Params} (h : p.Legal) : (State.initial p).Shape :=
  ⟨h, List.length_replicate, rfl, Nat.zero_le _, Nat.zero_le _, by simp [State.initial], by simp [State.initial]⟩

/-- An update that leaves the sizes, POOL, CURSOR and the parameters leaves the shape, in CONFIG or out of it. -/
theorem State.Shape.of_same_sizes {s t : State} (h : s.Shape) (hp : t.params = s.params)
    (hv : t.voices.length = s.voices.length) (hf : t.freq.length = s.freq.length)
    (hq : t.fifo.length ≤ s.params.evqDepth) (hpool : t.pool = s.pool)
    (hr : t.runState = .config ↔ s.runState = .config) (hc : t.cursor.toNat < max s.pool.toNat 1) : t.Shape := by
  obtain ⟨hlegal, hvoices, hfreq, -, hle, hconfig, -⟩ := h
  exact ⟨hp ▸ hlegal, by rw [hv, hp, hvoices], hf.trans hfreq, hp ▸ hq, by rwa [hpool, hp],
    by rw [hr, hconfig, hpool], hpool ▸ hc⟩

/-- A NOTE_ON keeps CURSOR below POOL: a hit leaves it, and a steal takes its successor modulo POOL (R30, R141). -/
theorem State.Shape.noteOn {s : State} (h : s.Shape) (hr : s.runState = .running) (n : BitVec 7) (vel : Word) :
    (s.noteOn n vel).Shape := by
  have hnot : s.runState ≠ .config := by simp [hr]
  have hcur : (s.noteOn n vel).cursor.toNat < s.pool.toNat := by
    rw [State.noteOn_cursor]
    split_ifs
    · exact h.cursor_lt hnot
    · exact (State.nextCursor_toNat h hnot).trans_lt (Nat.mod_lt _ (h.pool_pos hnot))
  obtain ⟨-, -, -, hq, -, -, -⟩ := id h
  exact h.of_same_sizes rfl (by simp) rfl hq rfl Iff.rfl (by omega)

/-- The end of a frame leaves the sizes; the halt leaves CONFIG as far away as RUNNING. -/
theorem State.Shape.advance {s : State} (h : s.Shape) (hr : s.runState = .running) : s.advance.Shape := by
  obtain ⟨-, -, -, hq, -, -, hc⟩ := id h
  by_cases ht : s.timer + 1#64 = Config.sentinel
  · rw [State.advance_of_exhausted ht]
    exact h.of_same_sizes rfl rfl rfl hq rfl (by simp [State.raise_timerExh, hr]) hc
  · rw [State.advance_of_not_exhausted ht]
    exact h.of_same_sizes rfl (State.mapPool_length _ _) rfl hq rfl Iff.rfl hc

/-- START moves POOL from 0 into 1 .. MAX_VOICES, and CURSOR is 0 then (R31, R173). -/
theorem State.Shape.start {s : State} (h : s.Shape) (hr : s.runState = .config) :
    (s.start (poolFor s.cfg.voices s.params.maxVoices)).Shape := by
  obtain ⟨hlegal, hvoices, hfreq, hq, hle, hconfig, hc⟩ := h
  obtain ⟨h1, h2⟩ := poolFor_range hlegal s.cfg.voices
  have hn : (BitVec.ofNat 6 (poolFor s.cfg.voices s.params.maxVoices)).toNat =
      poolFor s.cfg.voices s.params.maxVoices := by
    rw [BitVec.toNat_ofNat]
    exact Nat.mod_eq_of_lt (by omega)
  have h0 : s.pool.toNat = 0 := by rw [hconfig.mp hr]; rfl
  refine ⟨hlegal, hvoices, hfreq, hq, by rw [State.start_pool, hn]; exact h2, ?_, ?_⟩
  · refine iff_of_false (by simp) fun hp => ?_
    rw [State.start_pool] at hp
    rw [hp] at hn
    exact absurd hn.symm (by simpa using Nat.ne_of_gt h1)
  · rw [State.start_pool, hn, State.start_cursor]
    omega

/-- Every elementary move keeps the sizes and the ranges. -/
theorem State.Shape.move {s t : State} (h : s.Shape) (hm : Move s t) : t.Shape := by
  obtain ⟨hlegal, -, -, hq, -, -, hc⟩ := id h
  cases hm with
  | agents | errors | evData | config => exact h
  | push e hl => exact h.of_same_sizes rfl rfl rfl (by simpa using hl) rfl Iff.rfl hc
  | clearFifo => exact h.of_same_sizes rfl rfl rfl (Nat.zero_le _) rfl Iff.rfl hc
  | noteOn n vel hr => exact h.noteOn hr n vel
  | noteOff => exact h.of_same_sizes rfl (State.mapPool_length _ _) rfl hq rfl Iff.rfl hc
  | bypassOn | bypassOff => exact h.of_same_sizes rfl List.length_set rfl hq rfl Iff.rfl hc
  | advance hr => exact h.advance hr
  | freq => exact h.of_same_sizes rfl rfl List.length_set hq rfl Iff.rfl hc
  | start hr => exact h.start hr
  | softReset => exact State.initial_shape hlegal

/-! ### The voices at reset (R56) -/

theorem State.mem_initial_voices {p : Params} {x : Voice} (h : x ∈ (State.initial p).voices) : x = Voice.reset :=
  List.eq_of_mem_replicate h

theorem State.initial_countersInOrder (p : Params) : (State.initial p).CountersInOrder := by
  refine ⟨by simp [State.initial, Config.sentinel], fun x hx => ?_⟩
  obtain rfl := State.mem_initial_voices hx
  exact ⟨.inl rfl, by simp [Voice.reset], BitVec.le_refl _⟩

theorem State.initial_dormantOutsidePool (p : Params) : (State.initial p).DormantOutsidePool :=
  fun _ hx => State.mem_initial_voices (List.mem_of_mem_drop hx)

/-- Before START the pool is empty. -/
theorem State.initial_notesDistinct (p : Params) : (State.initial p).NotesDistinct :=
  List.Pairwise.nil

theorem State.initial_levelsInUnit (p : Params) : (State.initial p).LevelsInUnit := by
  intro x hx
  rw [State.mem_initial_voices hx]
  decide +kernel

/-! ### The frequency table (R51) -/

end Sys2Proof.Machine

namespace Sys2Proof

/-- The magnitude of a finite value, in units of 2^-149; 0 for the others. -/
def Flt.mag : Flt → Nat
  | .nan => 0
  | .inf _ => 0
  | .fin _ m => m

end Sys2Proof

namespace Sys2Proof.Machine

/-- With m the magnitude of the word and u its last place, the value is positive and (m ± u/2)^12 stand on either side
of 440^12 × 2^(n − 69), all in whole numbers, so that it can be decided for one entry of the table. -/
abbrev NearestToEqualTemperament (n : Nat) (w : Word) : Prop :=
  let m := (f32 w).mag
  f32 w = .fin false m ∧
  (2 * m - 2 ^ ulpExp m) ^ 12 * 2 ^ 69 ≤ 440 ^ 12 * 2 ^ n * (2 ^ 150) ^ 12 ∧
  440 ^ 12 * 2 ^ n * (2 ^ 150) ^ 12 ≤ (2 * m + 2 ^ ulpExp m) ^ 12 * 2 ^ 69

/-- The table has no rule but its 128 entries; each is checked. -/
theorem freqReset_nearest : ∀ n < 128, NearestToEqualTemperament n (freqResetTable.getD n 0#32) := by
  decide +kernel

end Sys2Proof.Machine

namespace Sys2Proof.StateClaims

open Sys2Proof.Machine

/-- Settles O35: each word is read by `State.readWord_window`, VSTATE is `vstateWord_toNat`, and the counters are put
together from their two words. -/
theorem voiceWindowReads : Obligations.VoiceWindowReads := by
  unfold Obligations.VoiceWindowReads
  intro s v hv
  refine ⟨fun h => ?_, fun h k hk => (s.readWord_window hv hk).trans (State.windowWord_of_ge h _)⟩
  have rd : ∀ k < 8, s.readWord (BitVec.ofNat 12 (0x400 + 0x20 * v + 4 * k)) = s.windowWord v (winWordAt k) :=
    fun k hk => s.readWord_window hv hk
  have hnot : ¬s.params.maxVoices ≤ v := by omega
  have startLo := (rd 2 (by norm_num)).trans (if_neg hnot)
  have startHi := (rd 3 (by norm_num)).trans (if_neg hnot)
  have lfoLo := (rd 5 (by norm_num)).trans (if_neg hnot)
  have lfoHi := (rd 6 (by norm_num)).trans (if_neg hnot)
  exact ⟨(congrArg BitVec.toNat (rd 0 (by norm_num))).trans (State.windowWord_vstate h),
    (rd 1 (by norm_num)).trans (if_neg hnot),
    (congrArg₂ HAppend.hAppend startHi startLo).trans (count_words _),
    (rd 4 (by norm_num)).trans (if_neg hnot),
    (congrArg₂ HAppend.hAppend lfoHi lfoLo).trans (count_words _),
    (rd 7 (by norm_num)).trans (if_neg hnot)⟩

/-- Settles O47: START and the other writes of `State.afterWrite_cases` touch nothing of the Engine's. -/
theorem hostWritesLeaveVoicesAlone : Obligations.HostWritesLeaveVoicesAlone := by
  unfold Obligations.HostWritesLeaveVoicesAlone
  intro s size off wdata hn
  refine ⟨_, exec_busWrite s size off wdata, ?_⟩
  rcases s.afterWrite_cases hn with ⟨-, -, -, -, -, h⟩ | ⟨errs, data, cfg, freq, pushed, h⟩ <;> rw [h]
  · exact ⟨rfl, rfl, rfl, rfl, rfl, rfl, rfl, rfl, rfl, List.prefix_rfl⟩
  · exact ⟨rfl, rfl, rfl, rfl, rfl, rfl, rfl, rfl, rfl, List.prefix_append _ _⟩

/-- Settles O51, by what a step does to the run; off the sentinel the increment of a frame does not wrap. -/
theorem timerMovesOnlyByFrames : Obligations.TimerMovesOnlyByFrames := by
  unfold Obligations.TimerMovesOnlyByFrames
  intro s s' hne hstep
  have kept : s.resetsNext = false → s'.timer = s.timer → s.resetsNext = false ∧ s.timer.toNat ≤ s'.timer.toNat ∧
      (s'.timer = s.timer ∨
        (s.framesNext = true ∧ s.runState = .running ∧ s'.timer.toNat = s.timer.toNat + 1)) :=
    fun hr ht => ⟨hr, ht ▸ le_rfl, .inl ht⟩
  rcases step_run_cases hstep with ⟨hr, ins, rfl⟩ | ⟨hr, hf, ins, n, rfl⟩ | ⟨hr, -, _, _, -, -, -, rfl⟩ | ⟨hr, h⟩
  · exact .inl ⟨hr, rfl⟩
  · rcases State.frame_cases { s with inputs := ins, framesLeft := n } with h | ⟨hrun, -, -, ht⟩ | ⟨-, -, -, -, ht⟩
    · exact .inr (kept hr h.timer)
    · have hsucc : (s.timer + 1#64).toNat = s.timer.toNat + 1 := by
        bv_omega
      rw [ht]
      exact .inr ⟨hr, by rw [hsucc]; omega, .inr ⟨hf, hrun, hsucc⟩⟩
    · exact .inr (kept hr ht)
  · exact .inr (kept hr rfl)
  · exact .inr (kept hr h.timer)

/-- Settles O53, by what a step does to the run. -/
theorem runStatesChangeAsListed : Obligations.RunStatesChangeAsListed := by
  unfold Obligations.RunStatesChangeAsListed
  intro s s' hstep
  rcases step_run_cases hstep with
    ⟨hr, ins, rfl⟩ | ⟨-, hf, ins, n, rfl⟩ | ⟨-, hc, wdata, rest, hi, h0, h1, rfl⟩ | ⟨-, h⟩
  · exact .inr (.inr (.inr ⟨hr, rfl⟩))
  · rcases State.frame_cases { s with inputs := ins, framesLeft := n } with
      h | ⟨hrun, hrun', -, -⟩ | ⟨hrun, ht, hhalt, -, -⟩
    · exact .inl h.runState
    · exact .inl (hrun'.trans hrun.symm)
    · exact .inr (.inr (.inl ⟨hrun, hhalt, hf, (BitVec.eq_sub_iff_add_eq).mpr ht⟩))
  · exact .inr (.inl ⟨hc, rfl, rfl, wdata, rest, hi, h0, h1⟩)
  · exact .inl h.runState

/-- Settles O56: every elementary move keeps the shape. -/
theorem shapeIsKept : Obligations.ShapeIsKept := by
  unfold Obligations.ShapeIsKept
  intro s s' hs hstep
  exact kept_by_step (fun _ _ h hm => h.move hm) hs hstep

/-- Settles O31: one lemma per case of the two values; the places and the reset values are computed. -/
theorem effectiveGainAndDuration : Obligations.EffectiveGainAndDuration := by
  unfold Obligations.EffectiveGainAndDuration
  exact ⟨fun _ => gainEff_of_not_finite, fun _ => gainEff_of_finite, fun _ => durEff_of_nan, fun _ => durEff_of_lt,
    fun _ => durEff_of_ge, by decide +kernel, rfl, rfl, rfl, rfl, durEff_of_lt (by decide +kernel)⟩

/-- Settles O39: the magnitude of each entry is the value asked for. -/
theorem resetFrequenciesAreEquallyTempered : Obligations.ResetFrequenciesAreEquallyTempered := by
  unfold Obligations.ResetFrequenciesAreEquallyTempered
  exact ⟨rfl, fun n hn => ⟨_, freqReset_nearest n hn⟩⟩

/-- Settles O60: every voice has its reset value and the pool is empty. -/
theorem invariantsHoldAtReset : Obligations.InvariantsHoldAtReset := by
  unfold Obligations.InvariantsHoldAtReset
  intro p h
  exact ⟨State.initial_shape h, State.initial_countersInOrder p, State.initial_dormantOutsidePool p,
    State.initial_notesDistinct p, State.initial_levelsInUnit p,
    by simp [State.MarkIffHalted, State.initial]⟩

end Sys2Proof.StateClaims

/-! SUPPORT. The memory (20_memory.md): the serialised output stream (R63), reads without a side effect (R66), and the
lock on the configuration of a running block (R74, R216). -/

namespace Sys2Proof.Machine

/-! ### The serialised output stream (R63) -/

/-- The two bytes of a 16-bit sample, read least significant first in front of a number n. -/
theorem Sample.bytes_w16_foldr (w : BitVec 16) (n : Nat) :
    (Sample.w16 w).bytes.foldr (fun x n => x.toNat + 256 * n) n = w.toNat + 2 ^ 16 * n := by
  have h := w.isLt
  simp only [Sample.bytes, List.foldr_cons, List.foldr_nil, BitVec.extractLsb'_toNat, Nat.shiftRight_eq_div_pow]
  omega

/-- The four bytes of a 32-bit sample, read least significant first in front of a number n. -/
theorem Sample.bytes_w32_foldr (w : Word) (n : Nat) :
    (Sample.w32 w).bytes.foldr (fun x n => x.toNat + 256 * n) n = w.toNat + 2 ^ 32 * n := by
  have h := w.isLt
  simp only [Sample.bytes, List.foldr_cons, List.foldr_nil, BitVec.extractLsb'_toNat, Nat.shiftRight_eq_div_pow]
  omega

/-! ### Reads (R66) -/

/-- What the Host has read before stands in no register. -/
@[simp] theorem State.readReg_returnRead (s : State) (w : Word) (r : Reg) :
    (s.returnRead w).readReg r = s.readReg r := by
  cases r <;> rfl

@[simp] theorem State.readWord_returnRead (s : State) (w : Word) (off : BitVec 12) :
    (s.returnRead w).readWord off = s.readWord off :=
  State.readReg_returnRead s w _

/-- A legal read returns the word and leaves all else (R170). -/
theorem exec_busRead_legal (s : State) {off : BitVec 12} (h : off.toNat % 4 = 0) :
    exec (.busRead .b4 off) s = .next (s.returnRead (s.readWord off)) := by
  rw [exec_busRead, State.afterRead, if_pos (busLegal_b4 h)]

/-! ### The configuration of a running block (R74, R216) -/

/-- What is locked while the block runs: the configuration registers, FREQ and the latched POOL (R31, R74). -/
structure SameConfig (s t : State) : Prop where
  cfg : t.cfg = s.cfg
  freq : t.freq = s.freq
  pool : t.pool = s.pool

theorem SameConfig.refl (s : State) : SameConfig s s := ⟨rfl, rfl, rfl⟩

/-- What the agents hold is no part of the configuration. -/
theorem SameConfig.of_agents {s t : State} {ins : List Input} {n : Nat}
    (h : SameConfig { s with inputs := ins, framesLeft := n } t) : SameConfig s t :=
  ⟨h.cfg, h.freq, h.pool⟩

theorem sameConfig_frame (s : State) : SameConfig s s.frame :=
  ⟨s.frame_cfg, s.frame_freq, s.frame_pool⟩

theorem sameConfig_afterRead (s : State) (size : BusSize) (off : BitVec 12) :
    SameConfig s (s.afterRead size off) := by
  unfold State.afterRead
  split_ifs <;> exact ⟨rfl, rfl, rfl⟩

theorem sameConfig_drain {s : State} (h : s.runState = .running) : SameConfig s s.drain :=
  have hd := State.drain_frame h
  ⟨hd.cfg, hd.freq, hd.pool⟩

/-- A write to a running block is SRST, or it leaves the configuration: START, the configuration registers and FREQ act
out of RUNNING only (R173, R176, R177). -/
theorem State.afterWrite_running {s : State} (h : s.runState = .running) (size : BusSize) (off : BitVec 12)
    (wdata : BitVec 64) : SameConfig s (s.afterWrite size off wdata) ∨ s.afterWrite size off wdata = s.softReset := by
  unfold State.afterWrite State.writeWord
  split_ifs
  · rcases s.writeReg_cases (regAt off) (wdata.setWidth 32) with
      hw | ⟨-, -, hw⟩ | ⟨-, -, -, hc, -⟩ | ⟨e, hw⟩ | hw | ⟨-, hw⟩ | ⟨hr, -⟩ | ⟨hr, -⟩
    · exact .inl (hw.symm ▸ SameConfig.refl s)
    · exact .inr hw
    · exact absurd (h.symm.trans hc) (by simp)
    · exact .inl (hw.symm ▸ ⟨rfl, rfl, rfl⟩)
    · exact .inl (hw.symm ▸ ⟨rfl, rfl, rfl⟩)
    · exact .inl (hw.symm ▸ ⟨rfl, rfl, rfl⟩)
    · exact absurd h hr
    · exact absurd h hr
  · exact .inl ⟨rfl, rfl, rfl⟩

/-- A step of a running block leaves the configuration or leads to CONFIG. -/
theorem step_running_sameConfig {s s' : State} (hr : s.runState = .running) (h : step s = .next s') :
    SameConfig s s' ∨ s'.runState = .config := by
  rcases step_cases h with ⟨-, -, ⟨ins, rfl⟩, -⟩ | ⟨-, -, ins, rfl⟩ | ⟨rest, -, rfl⟩ |
    ⟨desc, wdata, rest, size, -, -, -, rfl⟩ | ⟨desc, wdata, rest, size, -, -, -, rfl⟩ | ⟨frames, rest, -, -, rfl⟩
  · exact .inl ⟨rfl, rfl, rfl⟩
  · exact .inl (sameConfig_frame _).of_agents
  · exact .inr rfl
  · exact .inl (sameConfig_afterRead _ size _).of_agents
  · rcases State.afterWrite_running (s := { s with inputs := rest }) hr size (descOffset desc)
      (busData size wdata) with hsame | hreset
    · exact .inl hsame.of_agents
    · exact .inr (by rw [hreset, State.softReset_runState])
  · exact .inl (sameConfig_drain (s := { s with inputs := rest, framesLeft := frames.toNat }) hr).of_agents

end Sys2Proof.Machine

namespace Sys2Proof.MemoryClaims

open Sys2Proof.Machine

/-- Settles O52: a step that changes the configuration leads to CONFIG (`step_running_sameConfig`), and from RUNNING
only a reset leads there (O53). -/
theorem configurationIsLockedWhileRunning : Obligations.ConfigurationIsLockedWhileRunning := by
  unfold Obligations.ConfigurationIsLockedWhileRunning
  intro s s' hrun hstep hreset
  have hne : s'.runState ≠ .config := by
    rcases StateClaims.runStatesChangeAsListed s s' hstep with h | ⟨h, -⟩ | ⟨-, h, -⟩ | ⟨h, -⟩
    · simp [h, hrun]
    · simp [hrun] at h
    · simp [h]
    · simp [hreset] at h
  obtain ⟨hcfg, hfreq, hpool⟩ := (step_running_sameConfig hrun hstep).resolve_right hne
  exact ⟨hcfg, hfreq, hpool⟩

/-- Settles O32: the bytes of the left word are read in front of those of the right. -/
theorem streamIsLittleEndian : Obligations.StreamIsLittleEndian := by
  unfold Obligations.StreamIsLittleEndian
  refine ⟨fun a b => ⟨rfl, ?_⟩, fun a b => ⟨rfl, ?_⟩⟩
  · rw [Frame.bytes, List.foldr_append, Sample.bytes_w32_foldr, Sample.bytes_w32_foldr, Nat.mul_zero, Nat.add_zero]
  · rw [Frame.bytes, List.foldr_append, Sample.bytes_w16_foldr, Sample.bytes_w16_foldr, Nat.mul_zero, Nat.add_zero]

/-- Settles O33: the second read is the first one again, in the state the first one left. -/
theorem readsHaveNoSideEffects : Obligations.ReadsHaveNoSideEffects := by
  unfold Obligations.ReadsHaveNoSideEffects
  intro s off h
  refine ⟨exec_busRead_legal s h, fun t ht => ?_⟩
  obtain rfl : s.returnRead (s.readWord off) = t := by
    rw [exec_busRead_legal s h] at ht
    cases ht
    rfl
  refine ⟨State.readWord_returnRead s _ off, ?_⟩
  rw [exec_busRead_legal _ h, State.readWord_returnRead]
  simp [State.returnRead]

end Sys2Proof.MemoryClaims

/-! SUPPORT. The encoding (30_encoding.md): which fields make an event acceptable (R81–R86), what the words of an operation
decode to (R84, R87, R88), and the record of an event that is not accepted (R193). -/

namespace Sys2Proof

open Sys2Proof.Laws

/-! ### The operands of an event (R82, R83) -/

theorem velocityLegal_iff_inUnit {w : Word} : velocityLegal w = true ↔ Flt.InUnit (f32 w) :=
  velocityLegal_iff.trans inUnit_iff.symm

/-- A note number as ARG is below 128. -/
theorem note_arg_lt (n : BitVec 7) : (n.setWidth 8).toNat < 128 := by
  rw [BitVec.toNat_setWidth_of_le (by norm_num)]
  exact n.isLt

/-- A note number is read back from the ARG made of it. -/
theorem note_of_arg (n : BitVec 7) : BitVec.ofNat 7 (n.setWidth 8).toNat = n := by
  rw [BitVec.toNat_setWidth_of_le (by norm_num), BitVec.ofNat_toNat, BitVec.setWidth_eq]

/-- An ARG below 128 is made of the note number read from it. -/
theorem arg_of_note {arg : BitVec 8} (h : arg.toNat < 128) : (BitVec.ofNat 7 arg.toNat).setWidth 8 = arg := by
  apply BitVec.eq_of_toNat_eq
  rw [BitVec.toNat_setWidth_of_le (by norm_num), BitVec.toNat_ofNat, Nat.mod_eq_of_lt h]

/-- A CMD word with ARG at its low end (R81). -/
theorem cmdWord_eq_or (op arg : BitVec 8) : cmdWord op arg = (op ++ 0#24) ||| arg.setWidth 32 := by
  apply BitVec.eq_of_toNat_eq
  have harg := arg.isLt
  have hcmd : (cmdWord op arg).toNat = op.toNat * 2 ^ 24 + arg.toNat := by
    simpa [cmdWord] using cmd_toNat op arg 0#16
  rw [hcmd, BitVec.toNat_or, BitVec.toNat_setWidth_of_le (by norm_num), append_toNat, BitVec.toNat_ofNat,
    Nat.zero_mod, Nat.add_zero, Nat.mul_comm, Nat.two_pow_add_eq_or_of_lt (by omega)]

end Sys2Proof

namespace Sys2Proof.EncodingClaims

/-- Settles O3: the extractors of R81 and R83 give the fields back, and the rest is `decodeEvent` itself. -/
theorem legalityCheckInOrder : Obligations.LegalityCheckInOrder := by
  unfold Obligations.LegalityCheckInOrder
  intro op rsv arg data pool
  simp only [decodeEvent, cmdOp_append, cmdRsv_append, cmdArg_append, cmdNote_append, bit7_iff, decide_eq_true_eq,
    ← Bool.not_eq_true, velocityLegal_iff_inUnit]

end Sys2Proof.EncodingClaims

namespace Sys2Proof

/-! ### Events that are accepted (R84, R86) -/

theorem decodeEvent_noteOn (n : BitVec 7) {vel : Word} (h : velocityLegal vel = true) (pool : Nat) :
    decodeEvent (cmdWord 0x01#8 (n.setWidth 8)) vel pool = .ok (.noteOn n vel) := by
  have hvel := velocityLegal_iff_inUnit.mp h
  have hnote := note_arg_lt n
  rw [cmdWord, EncodingClaims.legalityCheckInOrder, if_neg (by simp), if_pos rfl, if_neg (by omega),
    if_neg (not_not_intro hvel), note_of_arg]

theorem decodeEvent_noteOff (n : BitVec 7) (pool : Nat) :
    decodeEvent (cmdWord 0x02#8 (n.setWidth 8)) 0#32 pool = .ok (.noteOff n) := by
  have hnote := note_arg_lt n
  rw [cmdWord, EncodingClaims.legalityCheckInOrder, if_neg (by simp), if_neg (by simp), if_pos rfl,
    if_neg (by omega), if_neg (by simp), note_of_arg]

theorem decodeEvent_dbgBypassOn {v : BitVec 8} {pool : Nat} (h : v.toNat < pool) :
    decodeEvent (cmdWord 0x10#8 v) 0#32 pool = .ok (.dbgBypassOn v) := by
  rw [cmdWord, EncodingClaims.legalityCheckInOrder, if_neg (by simp), if_neg (by simp), if_neg (by simp),
    if_pos (.inl rfl), if_neg (by simp), if_neg (by omega), if_pos rfl]

theorem decodeEvent_dbgBypassOff {v : BitVec 8} {pool : Nat} (h : v.toNat < pool) :
    decodeEvent (cmdWord 0x11#8 v) 0#32 pool = .ok (.dbgBypassOff v) := by
  rw [cmdWord, EncodingClaims.legalityCheckInOrder, if_neg (by simp), if_neg (by simp), if_neg (by simp),
    if_pos (.inr rfl), if_neg (by simp), if_neg (by omega), if_neg (by simp)]

/-- What the decoder does with an event that is accepted in a pool of any size (R85, R145). -/
theorem decode_event_of_ok {cmd data : Word} {i : Instr} (h : decodeEvent cmd data anyVoice = .ok i) :
    decode (.event cmd data) = .ok i := by
  simp [decode, h]

/-! ### Bus transactions (R87) -/

/-- Write data of no more bits than its width gives is kept whole. -/
theorem busData_of_lt {size : BusSize} {wdata : BitVec 64} (h : wdata.toNat < 2 ^ (8 * size.bytes)) :
    busData size wdata = wdata := by
  apply BitVec.eq_of_toNat_eq
  rw [busData, BitVec.toNat_setWidth, BitVec.toNat_setWidth, Nat.mod_eq_of_lt h, Nat.mod_eq_of_lt wdata.isLt]

theorem decode_busRead (size : BusSize) (off : BitVec 12) (wdata : BitVec 64) :
    decode (.bus (busDesc false size off) wdata) = .ok (.busRead size off) := by
  simp [decode, decodeBus, descSize_busDesc, descIsWrite_busDesc, descOffset_busDesc]

theorem decode_busWrite {size : BusSize} (off : BitVec 12) {wdata : BitVec 64}
    (h : wdata.toNat < 2 ^ (8 * size.bytes)) :
    decode (.bus (busDesc true size off) wdata) = .ok (.busWrite size off wdata) := by
  simp [decode, decodeBus, descSize_busDesc, descIsWrite_busDesc, descOffset_busDesc, busData_of_lt h]

end Sys2Proof

namespace Sys2Proof.Machine

/-! ### The record of a malformed event (R193) -/

/-- EV_BAD is set, the event counted and its CMD word and code recorded; nothing else changes (R191, R193). -/
theorem State.raise_evBad (s : State) (cmd : Word) (code : BitVec 3) :
    s.raise (.evBad cmd code) = { s with errs := { s.errs with
      err := s.errs.err ||| 2#5,
      badCount := BitVec.ofNat 32 (min (s.errs.badCount.toNat + 1) (2 ^ 32 - 1)),
      badCmd := cmd, badReason := code } } := by
  rw [← satInc32_eq]
  rfl

theorem exec_dbgBypassOn_outside {s : State} {v : BitVec 8} (h : s.pool.toNat ≤ v.toNat) :
    exec (.dbgBypassOn v) s = .next (s.raise (.evBad (cmdWord 0x10#8 v) 6#3)) :=
  congrArg Host.Outcome.next (if_neg h.not_gt)

theorem exec_dbgBypassOff_outside {s : State} {v : BitVec 8} (h : s.pool.toNat ≤ v.toNat) :
    exec (.dbgBypassOff v) s = .next (s.raise (.evBad (cmdWord 0x11#8 v) 6#3)) :=
  congrArg Host.Outcome.next (if_neg h.not_gt)

end Sys2Proof.Machine

namespace Sys2Proof.EncodingClaims

open Sys2Proof.Machine

/-! ### The obligations of 30_encoding.md -/

/-- Settles O1, one lemma per row of the encoding; an index of 8 bits is below `anyVoice`. -/
theorem decodeOfEncodeIsIdentity : Obligations.DecodeOfEncodeIsIdentity := by
  unfold Obligations.DecodeOfEncodeIsIdentity
  intro i hwf
  cases i with
  | noteOn n vel => exact decode_event_of_ok (decodeEvent_noteOn n hwf anyVoice)
  | noteOff n => exact decode_event_of_ok (decodeEvent_noteOff n anyVoice)
  | dbgBypassOn v => exact decode_event_of_ok (decodeEvent_dbgBypassOn v.isLt)
  | dbgBypassOff v => exact decode_event_of_ok (decodeEvent_dbgBypassOff v.isLt)
  | busRead size off => exact decode_busRead size off 0#64
  | busWrite size off wdata => exact decode_busWrite off (of_decide_eq_true hwf)
  | render frames => rfl

/-- Settles O2: in each of the four accepting ends of the check chain (O3) the checks passed fix every field. -/
theorem acceptedEventHasOneEncoding : Obligations.AcceptedEventHasOneEncoding := by
  unfold Obligations.AcceptedEventHasOneEncoding
  intro cmd data pool i h
  obtain ⟨op, rsv, arg, rfl⟩ : ∃ op rsv arg, cmd = op ++ rsv ++ arg := ⟨_, _, _, (cmd_of_fields cmd).symm⟩
  rw [legalityCheckInOrder] at h
  split_ifs at h with hrsv hon hnote hvel hoff hnote hdata hbypass hdata hpool hop <;> cases h
  all_goals obtain rfl := not_not.mp hrsv
  · subst hon
    refine ⟨?_, velocityLegal_iff_inUnit.mpr hvel, by simp⟩
    rw [encode, arg_of_note (by omega), cmdWord]
  · obtain rfl := not_not.mp hdata
    subst hoff
    refine ⟨?_, rfl, by simp⟩
    rw [encode, arg_of_note (by omega), cmdWord]
  · obtain rfl := not_not.mp hdata
    subst hop
    exact ⟨rfl, rfl, by simpa using hpool⟩
  · obtain rfl := not_not.mp hdata
    obtain rfl := hbypass.resolve_left hop
    exact ⟨rfl, rfl, by simpa using hpool⟩

/-- Settles O4: each pair of words is the encoding of its operation. -/
theorem writtenWordsDecode : Obligations.WrittenWordsDecode := by
  unfold Obligations.WrittenWordsDecode
  exact ⟨decodeEvent_noteOn 60#7 (by decide +kernel) 16, decodeEvent_noteOff 60#7 16,
    decodeEvent_dbgBypassOn (v := 15#8) (by decide), decodeEvent_dbgBypassOff (v := 3#8) (by decide),
    decode_busRead .b4 0x018#12 0#64, decode_busWrite (size := .b4) 0x8F0#12 (by decide),
    decode_busRead .b1 0x009#12 0#64, rfl⟩

/-- Settles O13: the index fails the one check left to the operation, and the record is that of R193. -/
theorem bypassOutsidePoolIsRecorded : Obligations.BypassOutsidePoolIsRecorded := by
  unfold Obligations.BypassOutsidePoolIsRecorded
  intro s v hpool
  rw [exec_dbgBypassOn_outside hpool, exec_dbgBypassOff_outside hpool, State.raise_evBad, State.raise_evBad,
    cmdWord_eq_or, cmdWord_eq_or]
  exact ⟨rfl, rfl⟩

end Sys2Proof.EncodingClaims

/-! SUPPORT. The sample counter (40_sample_timer.md): elapsed time (R103), the frame that exhausts TIMER (R104), and the
order of the counters, which every elementary move keeps (R106). -/

namespace Sys2Proof.Machine

/-! ### Elapsed time (R103) -/

theorem elapsed_of_sentinel (sr : Word) {start now : Count} (h : start = Config.sentinel) :
    elapsed sr start now = .inf false :=
  if_pos h

/-- Before the start no time has passed. -/
theorem elapsed_of_lt (sr : Word) {start now : Count} (hne : start ≠ Config.sentinel)
    (h : now.toNat < start.toNat) : elapsed sr start now = fltZero :=
  (if_neg hne).trans (if_pos (BitVec.lt_def.mpr h))

/-- From the start on the counts are subtracted without a borrow. -/
theorem elapsed_of_le (sr : Word) {start now : Count} (hne : start ≠ Config.sentinel)
    (h : start.toNat ≤ now.toNat) :
    elapsed sr start now = (fltOfNat (now.toNat - start.toNat)).div (fltOfNat (srEff sr)) := by
  have hlt : ¬now < start := fun hlt => Nat.not_lt.mpr h (BitVec.lt_def.mp hlt)
  rw [← BitVec.toNat_sub_of_le (BitVec.le_def.mpr h)]
  exact (if_neg hne).trans (if_neg hlt)

/-! ### The frame at the last count (R104, R196) -/

/-- The frame that exhausts TIMER is emitted, and the block halts. -/
theorem State.frame_of_exhausted {s : State} (hr : s.runState = .running) (ht : s.timer + 1#64 = Config.sentinel) :
    s.frame = (s.emit s.renderedFrame).raise .timerExh := by
  rw [State.frame_running hr]
  exact State.advance_of_exhausted (s := s.emit _) ht

/-! ### The order of the counters (R102, R106) -/

/-- What R106 says of one voice at the count `now`; `State.countersInOrder_iff` ties it to the model's invariant. -/
structure Voice.InOrder (now : Count) (x : Voice) : Prop where
  start : x.start = Config.sentinel ∨ x.start ≤ now
  started : x.env = .held ∨ x.env = .released → x.start ≠ Config.sentinel
  lfo : x.lfo ≤ now

theorem State.countersInOrder_iff {s : State} :
    s.CountersInOrder ↔ s.timer ≠ Config.sentinel ∧ ∀ x ∈ s.voices, x.InOrder s.timer :=
  and_congr_right fun _ => forall₂_congr fun _ _ =>
    ⟨fun ⟨hs, hst, hl⟩ => ⟨hs, hst, hl⟩, fun ⟨hs, hst, hl⟩ => ⟨hs, hst, hl⟩⟩

theorem Voice.inOrder_reset (now : Count) : Voice.reset.InOrder now :=
  ⟨.inl rfl, by simp [Voice.reset], Nat.zero_le _⟩

theorem State.CountersInOrder.voiceAt {s : State} (h : s.CountersInOrder) (v : Nat) :
    (s.voiceAt v).InOrder s.timer := by
  rcases lt_or_ge v s.voices.length with hv | hv
  · exact (State.countersInOrder_iff.mp h).2 _ (State.voiceAt_mem hv)
  · rw [State.voiceAt_of_ge hv]
    exact Voice.inOrder_reset _

/-- A NOTE_ON starts the envelope at `now`, but for a voice in BYPASS, and the LFO at 0 (R105, R116). -/
theorem Voice.InOrder.strike {now : Count} {x : Voice} (h : x.InOrder now) (hnow : now ≠ Config.sentinel)
    (c : CfgRegs) (n : BitVec 7) (vel : Word) : (x.strike c now n vel).InOrder now := by
  by_cases hb : x.env = .bypass
  · obtain ⟨henv, -, hstart⟩ := Voice.strike_bypass (c := c) (now := now) (n := n) (vel := vel) hb
    exact ⟨hstart ▸ h.start, by simp [henv], Nat.zero_le _⟩
  · obtain ⟨-, -, hstart⟩ := Voice.strike_held (c := c) (now := now) (n := n) (vel := vel) hb
    exact ⟨.inr (BitVec.le_of_eq hstart), fun _ => hstart.trans_ne hnow, Nat.zero_le _⟩

/-- A release starts the envelope at `now`, in HELD only (R117). -/
theorem Voice.InOrder.releaseKey {now : Count} {x : Voice} (h : x.InOrder now) (hnow : now ≠ Config.sentinel)
    (c : CfgRegs) : (x.releaseKey c now).InOrder now := by
  unfold Voice.releaseKey
  split
  · exact ⟨.inr (BitVec.le_refl now), fun _ => hnow, h.lfo⟩
  · exact h

theorem Voice.InOrder.bypassOn {now : Count} {x : Voice} (h : x.InOrder now) : x.bypassOn.InOrder now :=
  ⟨h.start, by simp [Voice.bypassOn], h.lfo⟩

theorem Voice.InOrder.bypassOff {now : Count} {x : Voice} (h : x.InOrder now) : x.bypassOff.InOrder now := by
  unfold Voice.bypassOff
  split
  · exact ⟨h.start, by simp, h.lfo⟩
  · exact h

/-- Off the sentinel the increment of a count does not wrap. -/
theorem toNat_add_one_of_ne_sentinel {now : Count} (h : now ≠ Config.sentinel) :
    (now + 1#64).toNat = now.toNat + 1 := by
  unfold Config.sentinel at h
  bv_omega

/-- A voice outside the pool at the end of a frame. -/
theorem Voice.InOrder.later {now : Count} {x : Voice} (h : x.InOrder now) (hnow : now ≠ Config.sentinel) :
    x.InOrder (now + 1#64) := by
  have hle : now ≤ now + 1#64 := by
    rw [BitVec.le_def, toNat_add_one_of_ne_sentinel hnow]
    omega
  exact ⟨h.start.imp_right (BitVec.le_trans · hle), h.started, BitVec.le_trans h.lfo hle⟩

/-- A pool voice at the end of a frame: its LFO counter moves on with TIMER (R105). -/
theorem Voice.InOrder.tick {now : Count} {x : Voice} (h : x.InOrder now) (hnow : now ≠ Config.sentinel) :
    ({ x with lfo := x.lfo + 1#64 } : Voice).InOrder (now + 1#64) := by
  obtain ⟨hstart, hstarted, -⟩ := h.later hnow
  have hlfo : x.lfo + 1#64 ≤ now + 1#64 := by
    have hle := BitVec.le_def.mp h.lfo
    have hsucc := toNat_add_one_of_ne_sentinel hnow
    bv_omega
  exact ⟨hstart, hstarted, hlfo⟩

theorem State.CountersInOrder.setVoice {s : State} (h : s.CountersInOrder) (v : Nat) {x : Voice}
    (hx : x.InOrder s.timer) : (s.setVoice v x).CountersInOrder := by
  obtain ⟨ht, hv⟩ := State.countersInOrder_iff.mp h
  refine State.countersInOrder_iff.mpr ⟨ht, fun y hy => ?_⟩
  rcases List.mem_or_eq_of_mem_set hy with hy | rfl
  · exact hv y hy
  · exact hx

theorem State.CountersInOrder.noteOff {s : State} (h : s.CountersInOrder) (n : BitVec 7) :
    (s.noteOff n).CountersInOrder := by
  obtain ⟨ht, hv⟩ := State.countersInOrder_iff.mp h
  refine State.countersInOrder_iff.mpr ⟨ht, fun x hx => ?_⟩
  rcases State.mem_mapPool hx with ⟨y, hy, rfl⟩ | hx
  · split_ifs
    · exact (hv y hy).releaseKey ht s.cfg
    · exact hv y hy
  · exact hv x hx

/-- The end of a frame moves TIMER and the LFO counters on together, unless TIMER would become the sentinel (R104). -/
theorem State.CountersInOrder.advance {s : State} (h : s.CountersInOrder) : s.advance.CountersInOrder := by
  obtain ⟨ht, hv⟩ := State.countersInOrder_iff.mp h
  by_cases hlast : s.timer + 1#64 = Config.sentinel
  · rw [State.advance_of_exhausted hlast]
    exact h
  · rw [State.advance_of_not_exhausted hlast]
    refine State.countersInOrder_iff.mpr ⟨hlast, fun x hx => ?_⟩
    rcases State.mem_mapPool hx with ⟨y, hy, rfl⟩ | hx
    · exact (hv y hy).tick ht
    · exact (hv x hx).later ht

/-- Every elementary move keeps the counters in order. -/
theorem State.CountersInOrder.move {s t : State} (h : s.CountersInOrder) (hm : Move s t) : t.CountersInOrder := by
  obtain ⟨ht, -⟩ := id h
  cases hm with
  | agents | errors | evData | push | clearFifo | config | freq | start => exact h
  | noteOn n vel => exact h.setVoice (s.chosen n) ((h.voiceAt _).strike ht s.cfg n vel)
  | noteOff n => exact h.noteOff n
  | bypassOn v => exact h.setVoice v.toNat (h.voiceAt _).bypassOn
  | bypassOff v => exact h.setVoice v.toNat (h.voiceAt _).bypassOff
  | advance => exact h.advance
  | softReset => exact State.initial_countersInOrder s.params

end Sys2Proof.Machine

namespace Sys2Proof.TimerClaims

open Sys2Proof.Machine

/-! ### The obligations of 40_sample_timer.md -/

/-- Settles O57: every elementary move keeps the counters in order. -/
theorem countersStayInOrder : Obligations.CountersStayInOrder := by
  unfold Obligations.CountersStayInOrder
  intro s s' h hstep
  exact kept_by_step (fun _ _ h hm => h.move hm) h hstep

/-- Settles O17: one lemma per case of R103; the example is computed. -/
theorem elapsedTimeRule : Obligations.ElapsedTimeRule := by
  unfold Obligations.ElapsedTimeRule
  exact ⟨fun sr _ _ => ⟨elapsed_of_sentinel sr, elapsed_of_lt sr, elapsed_of_le sr⟩, by decide +kernel⟩

/-- Settles O49: the frame step is the one of `step_frame`, and it exhausts TIMER (`State.frame_of_exhausted`). -/
theorem exhaustedCounterHalts : Obligations.ExhaustedCounterHalts := by
  unfold Obligations.ExhaustedCounterHalts
  intro s hf hr ht
  obtain ⟨ins, hstep, hpos, hengine, hother⟩ := step_frame hf
  have hlast : s.timer + 1#64 = Config.sentinel := by rw [ht]; rfl
  rw [State.frame_of_exhausted (s := { s with inputs := ins, framesLeft := s.framesLeft - 1 }) hr hlast] at hstep
  exact ⟨_, hstep, rfl, rfl, rfl, rfl, Nat.sub_add_cancel hpos, hengine, hother, rfl⟩

end Sys2Proof.TimerClaims

/-! SUPPORT. The envelope (41_envelope.md): the level in each state (R112–R115), the transitions and what they leave of the
level (R116–R119, R123), and the levels in [0, 1], which every elementary move keeps (R123 (c)). -/

namespace Sys2Proof.Machine

open Sys2Proof.Laws

/-! ### The level in each state (R112–R115) -/

section
variable {c : CfgRegs} {x : Voice} {now : Count}

theorem envLevel_off (h : x.env = .off) : envLevel c x now = fltZero := by
  simp [envLevel, h]

theorem envLevel_bypass (h : x.env = .bypass) : envLevel c x now = fltLit 1 := by
  simp [envLevel, h]

theorem envLevel_held (h : x.env = .held) :
    envLevel c x now = heldLevel (f32 x.level0) (elapsed c.sampleRate x.start now) (durEff c.attack)
      (durEff c.decay) (sustainEff c.sustain) := by
  simp [envLevel, h]

theorem envLevel_released (h : x.env = .released) :
    envLevel c x now = releasedLevel (f32 x.level0) (elapsed c.sampleRate x.start now) (durEff c.release) := by
  simp [envLevel, h]

end

/-- Past its end a release is over, and exactly so (R123 (b)). -/
theorem releasedLevel_of_ended {l e r : Flt} (hl : Unit01 l) (h : (fltLit 1).le (e.div r) = true) :
    releasedLevel l e r = fltZero := by
  rw [releasedLevel, clamp01_of_ge_one h, lerp_one_zero hl]

/-- At elapsed time zero the level is level1 (R114). -/
theorem releasedLevel_at_zero {l : Flt} (hl : Pos01 l) (release : Word) :
    releasedLevel l fltZero (durEff release) = l := by
  rw [releasedLevel, zero_div_dur (durEff_form release), clamp01_zero, lerp_at_zero hl pos01_zero.unit01.bip]

/-- At its own start an envelope sounds at the level it stored, in HELD and in RELEASED (R123 (a), (d)). -/
theorem envLevel_at_start {c : CfgRegs} {x : Voice} {l : Flt} (hx : x.env = .held ∨ x.env = .released)
    (hstart : x.start ≠ Config.sentinel) (hl : Pos01 l) (hlevel : x.level0 = bits l) :
    envLevel c x x.start = l := by
  rcases hx with hx | hx
  · rw [envLevel_held hx, elapsed_self hstart, hlevel, f32_bits_pos01 hl]
    exact heldLevel_at_zero hl (durEff_form _) (durEff_form _) (sustainEff_unit01 _)
  · rw [envLevel_released hx, elapsed_self hstart, hlevel, f32_bits_pos01 hl]
    exact releasedLevel_at_zero hl _

/-! ### The transitions (R116–R119) -/

section
variable {c : CfgRegs} {now : Count} {x : Voice}

theorem Voice.hold_bypass (h : x.env = .bypass) : x.hold c now = x := by
  simp [Voice.hold, h]

theorem Voice.hold_of_ne_bypass (h : x.env ≠ .bypass) :
    x.hold c now = { x with env := .held, level0 := bits (envLevel c x now), start := now } := by
  unfold Voice.hold
  split
  · exact absurd ‹_› h
  · rfl

theorem Voice.releaseKey_held (h : x.env = .held) :
    x.releaseKey c now = { x with env := .released, level0 := bits (envLevel c x now), start := now } := by
  simp [Voice.releaseKey, h]

theorem Voice.releaseKey_of_ne_held (h : x.env ≠ .held) : x.releaseKey c now = x := by
  unfold Voice.releaseKey
  split
  · exact absurd ‹_› h
  · rfl

theorem Voice.bypassOff_bypass (h : x.env = .bypass) : x.bypassOff = { x with env := .off } := by
  simp [Voice.bypassOff, h]

theorem Voice.bypassOff_of_ne_bypass (h : x.env ≠ .bypass) : x.bypassOff = x := by
  unfold Voice.bypassOff
  split
  · exact absurd ‹_› h
  · rfl

/-- A hold starts from the level that sounds (R123 (a)). -/
theorem envLevel_hold (h : velocityLegal x.level0 = true) (hnow : now ≠ Config.sentinel) :
    envLevel c (x.hold c now) now = envLevel c x now := by
  by_cases hb : x.env = .bypass
  · rw [Voice.hold_bypass hb]
  · rw [Voice.hold_of_ne_bypass hb]
    exact envLevel_at_start (.inl rfl) hnow (envLevel_pos01 h) rfl

/-- A release starts from the level that sounds (R123 (a)). -/
theorem envLevel_releaseKey (h : velocityLegal x.level0 = true) (hnow : now ≠ Config.sentinel) :
    envLevel c (x.releaseKey c now) now = envLevel c x now := by
  by_cases hx : x.env = .held
  · rw [Voice.releaseKey_held hx]
    exact envLevel_at_start (.inr rfl) hnow (envLevel_pos01 h) rfl
  · rw [Voice.releaseKey_of_ne_held hx]

/-- A hold stores a level in [0, 1] again. -/
theorem Voice.velocityLegal_hold (h : velocityLegal x.level0 = true) : velocityLegal (x.hold c now).level0 = true := by
  by_cases hb : x.env = .bypass
  · rwa [Voice.hold_bypass hb]
  · rw [Voice.hold_of_ne_bypass hb]
    exact velocityLegal_envLevel h

end

/-! ### The bypass events on a pool voice (R143, R144) -/

theorem exec_dbgBypassOn_pool {s : State} {v : BitVec 8} (h : v.toNat < s.pool.toNat) :
    exec (.dbgBypassOn v) s = .next (s.setVoice v.toNat (s.voiceAt v.toNat).bypassOn) :=
  congrArg Host.Outcome.next (if_pos h)

theorem exec_dbgBypassOff_pool {s : State} {v : BitVec 8} (h : v.toNat < s.pool.toNat) :
    exec (.dbgBypassOff v) s = .next (s.setVoice v.toNat (s.voiceAt v.toNat).bypassOff) :=
  congrArg Host.Outcome.next (if_pos h)

theorem State.voiceAt_setVoice_same {s : State} {v : Nat} (h : v < s.voices.length) (x : Voice) :
    (s.setVoice v x).voiceAt v = x := by
  rw [State.voiceAt_setVoice, if_pos ⟨rfl, h⟩]

theorem State.voiceAt_setVoice_other (s : State) {u v : Nat} (h : u ≠ v) (x : Voice) :
    (s.setVoice v x).voiceAt u = s.voiceAt u := by
  rw [State.voiceAt_setVoice, if_neg fun hu => h hu.1]

/-! ### Levels and velocities in [0, 1] (R47, R123 (c)) -/

/-- What R47 says of the stored level and the velocity of one voice; `State.levelsInUnit_iff` ties it to the model's
invariant. -/
structure Voice.InUnit (x : Voice) : Prop where
  level0 : velocityLegal x.level0 = true
  vel : velocityLegal x.vel = true

theorem State.levelsInUnit_iff {s : State} : s.LevelsInUnit ↔ ∀ x ∈ s.voices, x.InUnit :=
  forall₂_congr fun _ _ => ⟨fun ⟨hl, hv⟩ => ⟨hl, hv⟩, fun ⟨hl, hv⟩ => ⟨hl, hv⟩⟩

theorem Voice.inUnit_reset : Voice.reset.InUnit := ⟨by decide +kernel, by decide +kernel⟩

theorem State.LevelsInUnit.voiceAt {s : State} (h : s.LevelsInUnit) (v : Nat) : (s.voiceAt v).InUnit := by
  rcases lt_or_ge v s.voices.length with hv | hv
  · exact State.levelsInUnit_iff.mp h _ (State.voiceAt_mem hv)
  · rw [State.voiceAt_of_ge hv]
    exact Voice.inUnit_reset

/-- A NOTE_ON stores the level that sounds, but for a voice in BYPASS, and the velocity of the event (R116, R141). -/
theorem Voice.InUnit.strike {x : Voice} (h : x.InUnit) {vel : Word} (hvel : velocityLegal vel = true) (c : CfgRegs)
    (now : Count) (n : BitVec 7) : (x.strike c now n vel).InUnit := by
  refine ⟨?_, by rwa [Voice.strike_vel]⟩
  by_cases hb : x.env = .bypass
  · obtain ⟨-, hlevel, -⟩ := Voice.strike_bypass (c := c) (now := now) (n := n) (vel := vel) hb
    rw [hlevel]
    exact h.level0
  · obtain ⟨-, hlevel, -⟩ := Voice.strike_held (c := c) (now := now) (n := n) (vel := vel) hb
    rw [hlevel]
    exact velocityLegal_envLevel h.level0

/-- A release stores the level that sounds, in HELD only (R117). -/
theorem Voice.InUnit.releaseKey {x : Voice} (h : x.InUnit) (c : CfgRegs) (now : Count) :
    (x.releaseKey c now).InUnit := by
  by_cases hx : x.env = .held
  · rw [Voice.releaseKey_held hx]
    exact ⟨velocityLegal_envLevel h.level0, h.vel⟩
  · rwa [Voice.releaseKey_of_ne_held hx]

theorem Voice.InUnit.bypassOff {x : Voice} (h : x.InUnit) : x.bypassOff.InUnit := by
  by_cases hb : x.env = .bypass
  · rw [Voice.bypassOff_bypass hb]
    exact ⟨h.level0, h.vel⟩
  · rwa [Voice.bypassOff_of_ne_bypass hb]

theorem State.LevelsInUnit.setVoice {s : State} (h : s.LevelsInUnit) (v : Nat) {x : Voice} (hx : x.InUnit) :
    (s.setVoice v x).LevelsInUnit := by
  refine State.levelsInUnit_iff.mpr fun y hy => ?_
  rcases List.mem_or_eq_of_mem_set hy with hy | rfl
  · exact State.levelsInUnit_iff.mp h y hy
  · exact hx

theorem State.LevelsInUnit.mapPool {s : State} (h : s.LevelsInUnit) {f : Voice → Voice}
    (hf : ∀ x : Voice, x.InUnit → (f x).InUnit) : (s.mapPool f).LevelsInUnit := by
  have hv := State.levelsInUnit_iff.mp h
  refine State.levelsInUnit_iff.mpr fun x hx => ?_
  rcases State.mem_mapPool hx with ⟨y, hy, rfl⟩ | hx
  · exact hf y (hv y hy)
  · exact hv x hx

theorem State.LevelsInUnit.noteOff {s : State} (h : s.LevelsInUnit) (n : BitVec 7) : (s.noteOff n).LevelsInUnit := by
  refine h.mapPool fun x hx => ?_
  split_ifs
  · exact hx.releaseKey s.cfg s.timer
  · exact hx

/-- The end of a frame moves counters only (R157). -/
theorem State.LevelsInUnit.advance {s : State} (h : s.LevelsInUnit) : s.advance.LevelsInUnit := by
  by_cases hlast : s.timer + 1#64 = Config.sentinel
  · rw [State.advance_of_exhausted hlast]
    exact h
  · rw [State.advance_of_not_exhausted hlast]
    exact State.LevelsInUnit.mapPool (s := { s with timer := s.timer + 1#64 }) h fun _ hx => ⟨hx.level0, hx.vel⟩

/-- Every elementary move keeps the stored levels and the velocities in [0, 1]. -/
theorem State.LevelsInUnit.move {s t : State} (h : s.LevelsInUnit) (hm : Move s t) : t.LevelsInUnit := by
  cases hm with
  | agents | errors | evData | push | clearFifo | config | freq | start => exact h
  | noteOn n vel hr hvel => exact h.setVoice (s.chosen n) ((h.voiceAt _).strike hvel s.cfg s.timer n)
  | noteOff n => exact h.noteOff n
  | bypassOn v => exact h.setVoice v.toNat ⟨(h.voiceAt _).level0, (h.voiceAt _).vel⟩
  | bypassOff v => exact h.setVoice v.toNat (h.voiceAt _).bypassOff
  | advance => exact h.advance
  | softReset => exact State.initial_levelsInUnit s.params

end Sys2Proof.Machine

namespace Sys2Proof.EnvelopeClaims

open Sys2Proof.Laws Sys2Proof.Machine

/-! ### The obligations of 41_envelope.md -/

/-- Settles O21: every elementary move keeps the invariant, and under it every level is one of `Pos01`. -/
theorem levelsStayInUnit : Obligations.LevelsStayInUnit := by
  unfold Obligations.LevelsStayInUnit
  refine ⟨fun s s' h hstep => kept_by_step (fun _ _ h hm => h.move hm) h hstep, fun s x now h hx => ?_⟩
  obtain ⟨hlevel, -⟩ := State.levelsInUnit_iff.mp h x hx
  exact inUnit_iff.mpr (envLevel_pos01 hlevel).unit01

/-- Settles O19: the elapsed fraction is clamped to 1.0, where the interpolation into 0.0 is exact. -/
theorem releaseEndsAtExactlyZero : Obligations.ReleaseEndsAtExactlyZero := by
  unfold Obligations.ReleaseEndsAtExactlyZero
  intro c x now hlevel hx hended
  rw [envLevel_released hx]
  exact releasedLevel_of_ended (velocityLegal_iff.mp hlevel) hended

/-- Settles O20: each transition starts an envelope now, from the level that sounds (`envLevel_at_start`). -/
theorem transitionsKeepTheLevel : Obligations.TransitionsKeepTheLevel := by
  unfold Obligations.TransitionsKeepTheLevel
  intro c x now hlevel hnow
  exact ⟨envLevel_hold hlevel hnow, envLevel_releaseKey hlevel hnow,
    envLevel_hold (Voice.velocityLegal_hold hlevel) hnow⟩

/-- Settles O11: the event writes its own voice, and only the state of that voice. -/
theorem bypassOnPinsTheVoice : Obligations.BypassOnPinsTheVoice := by
  unfold Obligations.BypassOnPinsTheVoice
  intro s v hpool hlen
  have hv := State.voiceAt_setVoice_same hlen (s.voiceAt v.toNat).bypassOn
  refine ⟨congrArg (Words.event · 0#32) (cmdWord_eq_or 0x10#8 v), _, exec_dbgBypassOn_pool hpool, hv, fun now => ?_,
    fun u hu => State.voiceAt_setVoice_other s hu _, rfl⟩
  rw [hv]
  exact envLevel_bypass rfl

/-- Settles O12, by the two cases of R119 for the voice the event writes. -/
theorem bypassOffFreesTheVoice : Obligations.BypassOffFreesTheVoice := by
  unfold Obligations.BypassOffFreesTheVoice
  intro s v hpool hlen
  have hv := State.voiceAt_setVoice_same hlen (s.voiceAt v.toNat).bypassOff
  exact ⟨congrArg (Words.event · 0#32) (cmdWord_eq_or 0x11#8 v), _, exec_dbgBypassOff_pool hpool,
    fun hb => hv.trans (Voice.bypassOff_bypass hb), fun hb => hv.trans (Voice.bypassOff_of_ne_bypass hb),
    fun u hu => State.voiceAt_setVoice_other s hu _, rfl⟩

/-- Settles O16: a voice is in OFF after reset. -/
theorem offIsSilentAndBypassIsFull : Obligations.OffIsSilentAndBypassIsFull := by
  unfold Obligations.OffIsSilentAndBypassIsFull
  exact fun _ _ _ => ⟨envLevel_off, envLevel_off rfl, envLevel_bypass⟩

/-- Settles O18: R113 and R114 are `heldLevel` and `releasedLevel`, and each example is computed on its own numbers. -/
theorem envelopeWorkedExamples : Obligations.EnvelopeWorkedExamples := by
  unfold Obligations.EnvelopeWorkedExamples
  refine ⟨fun c x now hx => envLevel_held hx, fun c x now hx => envLevel_released hx, ?_, ?_⟩
  · intro c x hsr hattack hdecay hsustain hx hlevel hstart
    rw [envLevel_held hx, hsr, hattack, hdecay, hsustain, hlevel, hstart]
    decide +kernel
  · intro c x hsr hrelease hx hlevel hstart
    rw [envLevel_released hx, hsr, hrelease, hlevel, hstart]
    decide +kernel

end Sys2Proof.EnvelopeClaims

/-! SUPPORT. The oscillator (42_oscillator.md): the phase in its two cases (R130), the polygon at its start (R132), the
corner count between its bounds (R133) and the CIRCLE waveform (R131, R135). -/

namespace Sys2Proof.Laws

open Sys2Proof.Machine

/-! ### Finite values of positive sign -/

theorem fin_le_fin {m n : Nat} : (Flt.fin false m).le (.fin false n) = true ↔ m ≤ n := by
  simp [flt_le_iff, Flt.isNan, Flt.place, signedMag]

theorem fin_lt_fin {m n : Nat} : (Flt.fin false m).lt (.fin false n) = true ↔ m < n := by
  simp [flt_lt_iff, Flt.isNan, Flt.place, signedMag]

theorem mul_zero_left {s s' : Bool} {m : Nat} : (Flt.fin s 0).mul (.fin s' m) = .fin (s ^^ s') 0 := by
  rw [← mul_zero_right (s := s) (s' := s') (m := m)]
  simp only [Flt.mul, Nat.zero_mul, Nat.mul_zero]

/-! ### The phase (R130) -/

section
variable {sr : Word} {f : Flt} {c : Count}

/-- A frequency that R130 takes is a finite value above zero. -/
theorem frequency_form (h0 : fltZero.lt f = true) (h1 : f.lt (.inf false) = true) :
    ∃ m, f = .fin false m ∧ 0 < m := by
  obtain ⟨-, hn, hpos⟩ := flt_lt_iff.mp h0
  rcases f with _ | s | ⟨s, m⟩
  · simp [Flt.isNan] at hn
  · cases s
    · simp [flt_lt_iff] at h1
    · simp [Flt.place, signedMag, fltZero] at hpos
      omega
  · cases s
    · exact ⟨m, rfl, fin_lt_fin.mp h0⟩
    · simp [Flt.place, signedMag, fltZero] at hpos
      omega

theorem phase_of_not_frequency (h : ¬(fltZero.lt f = true ∧ f.lt (.inf false) = true)) : phase sr f c = fltZero := by
  rw [phase, if_pos (by simpa only [Bool.not_eq_true', ← Bool.not_eq_true, Bool.and_eq_true] using h)]

theorem phase_of_frequency (h0 : fltZero.lt f = true) (h1 : f.lt (.inf false) = true) :
    let p := ((fltOfNat (c.toNat % periodSamples sr f)).mul f).div (fltOfNat (srEff sr))
    phase sr f c = if (fltLit 1).le p then fltZero else p := by
  simp [phase, h0, h1]

/-- The period is the whole part of sample rate over frequency, held between 1 and 2^64 − 1. -/
theorem periodSamples_cases (h0 : fltZero.lt f = true) (h1 : f.lt (.inf false) = true) :
    ((fltOfNat (srEff sr)).div f = .inf false ∧ periodSamples sr f = 2 ^ 64 - 1) ∨
    ∃ mag, (fltOfNat (srEff sr)).div f = .fin false mag ∧
      periodSamples sr f = max 1 (min (mag / fltUnit) (2 ^ 64 - 1)) := by
  obtain ⟨m, rfl, hm⟩ := frequency_form h0 h1
  obtain ⟨d, hd, -⟩ := srEff_fin sr
  have hq : NonnegOrInf ((fltOfNat (srEff sr)).div (.fin false m)) := hd ▸ div_nonneg hm.ne'
  obtain hq | ⟨mag, hq⟩ := hq
  · exact .inl ⟨hq, by rw [periodSamples, hq]; rfl⟩
  · exact .inr ⟨mag, hq, by rw [periodSamples, hq]; rfl⟩

/-- At count 0 every phase is +0.0. -/
theorem phase_at_zero : phase sr f 0#64 = fltZero := by
  by_cases h : fltZero.lt f = true ∧ f.lt (.inf false) = true
  · obtain ⟨h0, h1⟩ := h
    have hp := phase_of_frequency (sr := sr) (c := 0#64) h0 h1
    obtain ⟨m, rfl, -⟩ := frequency_form h0 h1
    obtain ⟨d, hd, hdu⟩ := srEff_fin sr
    have hd0 : d ≠ 0 := by have := fltUnit_pos; omega
    simp only [BitVec.toNat_ofNat, Nat.zero_mod, fltOfNat_zero, mul_zero_left, Bool.xor_false, hd,
      zero_div_fin hd0, ite_self] at hp
    exact hp
  · exact phase_of_not_frequency h

theorem phase_pos01 : Pos01 (phase sr f c) := by
  obtain ⟨m, hm, hlt⟩ := phase_fraction sr f c
  have hs : Good (phase sr f c) := good_phase sr f c
  rw [hm] at hs ⊢
  exact ⟨m, rfl, hlt.le, hs⟩

/-- The phases lie in the domain of SINCOS (R13). -/
theorem phase_range : fltZero.le (phase sr f c) = true ∧ (phase sr f c).lt (fltLit 2) = true := by
  obtain ⟨m, hm, hlt⟩ := phase_fraction sr f c
  rw [hm]
  exact ⟨fin_le_fin.mpr m.zero_le, fin_lt_fin.mpr (by omega)⟩

end

/-! ### The waveforms (R131, R132, R135) -/

/-- SC2 of R13 at zero. -/
theorem sincos_zero : sincos fltZero = (fltZero, fltLit 1) := by decide +kernel

theorem oscOut_circle {c : CfgRegs} {freq : List Word} {x : Voice} {t : Count} (h : c.waveSel = .circle) :
    oscOut c freq x t = sincos (phase c.sampleRate (freqOf freq x.note) t) := by
  simp [oscOut, h, circle]

/-- The first edge starts with progress +0.0 at the angle +0.0, where the interpolation is exact. -/
theorem polygon_at_zero {n : Nat} (h2 : 2 * fltUnit ≤ n) (hx : n ≤ 65536 * fltUnit) :
    polygon (.fin false n) fltZero = circle fltZero := by
  obtain ⟨s, hs, hs1, -⟩ := one_div_corner h2 hx
  have hq : fltZero.div (.fin false s) = fltZero := zero_div_fin (by omega)
  have hk : fltFloor fltZero = fltZero := by decide +kernel
  have hpr : fltZero.sub fltZero = fltZero := sub_zero_pos01 pos01_zero
  have ha : fltZero.mul (.fin false s) = fltZero := mul_zero_left
  obtain ⟨hb1, hb2⟩ := sincos_bip ((fltZero.add (fltLit 1)).mul (.fin false s))
  simp only [polygon, lerpPair, circle, hs, hq, hk, hpr, ha, sincos_zero, lerp_at_zero pos01_zero hb1,
    lerp_at_zero pos01_one hb2]

/-! ### The corner count (R133) -/

/-- A legal corner count is taken as it is. -/
theorem clamp_corner_of_between {x : Flt} (h1 : nMin.le x = true) (h2 : x.le nMax = true) :
    clamp x nMin nMax = x := by
  obtain ⟨m, rfl, hlo, hhi⟩ := corner_of_le h1 h2
  rcases clamp_cases (x := .fin false m) (lo := nMin) (hi := nMax) (by decide +kernel) with
    ⟨hc, hn | hle⟩ | ⟨hc, -, hle⟩ | ⟨hc, -, -⟩
  · cases hn
  · rw [hc, le_antisymm (fin_le_fin.mp hle) hlo]
    rfl
  · rw [hc, le_antisymm hhi (fin_le_fin.mp hle)]
    rfl
  · exact hc

/-- A corner count is finite and lies in [2, 65536]. -/
theorem cornerCount_range (c : CfgRegs) (x : Voice) :
    (cornerCount c x).isFinite = true ∧ nMin.le (cornerCount c x) = true ∧ (cornerCount c x).le nMax = true := by
  obtain ⟨m, hm, hlo, hhi⟩ := clamp_corner ((f32 c.corners).add (lfoValue c x))
  rw [cornerCount, hm]
  exact ⟨rfl, fin_le_fin.mpr hlo, fin_le_fin.mpr hhi⟩

end Sys2Proof.Laws

namespace Sys2Proof.OscillatorClaims

open Sys2Proof.Laws Sys2Proof.Machine

/-! ### The obligations of 42_oscillator.md -/

/-- Settles O24, which is `oscOut_bip`. -/
theorem oscillatorStaysInUnitSquare : Obligations.OscillatorStaysInUnitSquare := by
  unfold Obligations.OscillatorStaysInUnitSquare
  intro c freq x t
  obtain ⟨hs, hc⟩ := oscOut_bip c freq x t
  exact ⟨hs.isFinite, hc.isFinite, inBipolarUnit_iff.mpr hs, inBipolarUnit_iff.mpr hc⟩

/-- Settles O26: a phase is the value of a word in the domain of SINCOS, where the premise speaks of it. -/
theorem circleFollowsTheRealCircle : Obligations.CircleFollowsTheRealCircle := by
  unfold Obligations.CircleFollowsTheRealCircle
  intro tol c freq x t htol hwave
  have h := htol (bits (phase c.sampleRate (freqOf freq x.note) t))
  rw [f32_bits_pos01 phase_pos01] at h
  rw [oscOut_circle hwave]
  obtain ⟨hlo, hhi⟩ := phase_range (sr := c.sampleRate) (f := freqOf freq x.note) (c := t)
  exact h hlo hhi

/-- Settles O22: the period is the one of `periodSamples_cases`, and the examples are computed. -/
theorem phaseIsAFraction : Obligations.PhaseIsAFraction := by
  unfold Obligations.PhaseIsAFraction
  refine ⟨phase_fraction, fun _ _ _ => phase_of_not_frequency, fun sr f c h0 h1 => ?_, ?_, ?_⟩
  · exact ⟨periodSamples sr f, periodSamples_cases h0 h1, phase_of_frequency h0 h1⟩
  · decide +kernel
  · decide +kernel

/-- Settles O27: the clauses of R133 are those of the clamp, and the LFO starts at `sincos_zero`. -/
theorem cornerCountIsLegal : Obligations.CornerCountIsLegal := by
  unfold Obligations.CornerCountIsLegal
  refine ⟨fun c x => ⟨rfl, fun hlfo => ?_, clamp_of_nan, fun hlt => clamp_of_le_lo ?_,
    clamp_of_hi_lt (by decide +kernel), clamp_corner_of_between, cornerCount_range c x⟩, ?_⟩
  · rw [lfoValue, hlfo, phase_at_zero, sincos_zero]
  · obtain ⟨hx, hlo, hp⟩ := flt_lt_iff.mp hlt
    exact flt_le_iff.mpr ⟨hx, hlo, hp.le⟩
  · intro c x hsr hrate hdepth hlfo
    have hl : lfoValue c x = f32 0x3F800000#32 := by
      rw [lfoValue, hsr, hrate, hdepth, hlfo]
      decide +kernel
    refine ⟨hl, fun hcorners => ?_⟩
    rw [cornerCount, hl, hcorners]
    decide +kernel

/-- Settles O23: the quotient of phase and step is finite (`progress_pos01`), so its whole part is the corner's
number. -/
theorem polygonStartsOnTheCircle : Obligations.PolygonStartsOnTheCircle := by
  unfold Obligations.PolygonStartsOnTheCircle
  refine ⟨fun n h1 h2 => ?_, fun n p h1 h2 hp => ?_, ?_, ?_⟩
  · obtain ⟨m, rfl, hlo, hhi⟩ := corner_of_le h1 h2
    exact ⟨polygon_at_zero hlo hhi, sincos_zero⟩
  · obtain ⟨n, rfl, hlo, hhi⟩ := corner_of_le h1 h2
    obtain ⟨p, rfl, hlt⟩ := hp
    obtain ⟨s, hs, hs1, -⟩ := one_div_corner hlo hhi
    obtain ⟨q, hq, -⟩ := progress_pos01 hlt.le hs1
    rw [← hs] at hq
    refine ⟨q, q / fltUnit, hq, Nat.div_mul_le_self q fltUnit,
      Nat.lt_mul_of_div_lt (Nat.lt_succ_self _) fltUnit_pos, ?_⟩
    simp only [polygon, lerpPair, lerp, hq, fltFloor]
    rfl
  · decide +kernel
  · decide +kernel

end Sys2Proof.OscillatorClaims

/-! SUPPORT. The voice pool (43_voice_pool.md): the voice a NOTE_ON takes (R141), the notes of the pool and the voices outside
it, which every elementary move keeps (R50, R146 (a)), and a run of NOTE_ONs for fresh notes (R146 (b)). -/

namespace Sys2Proof.Machine

/-! ### The note a voice holds -/

@[simp] theorem Voice.holds_reset (n : BitVec 7) : Voice.reset.holds n = false := rfl

theorem Voice.holds_eq_false_iff {n : BitVec 7} {x : Voice} :
    x.holds n = false ↔ ¬(x.noteValid = true ∧ x.note = n) := by
  rw [← Voice.holds_iff, Bool.not_eq_true]

/-- A struck voice holds the note of the event, and no other. -/
theorem Voice.holds_strike {c : CfgRegs} {now : Count} {n m : BitVec 7} {vel : Word} {x : Voice} :
    (x.strike c now n vel).holds m = true ↔ n = m := by
  simp [Voice.holds_iff]

@[simp] theorem Voice.holds_releaseKey (c : CfgRegs) (now : Count) (x : Voice) (n : BitVec 7) :
    (x.releaseKey c now).holds n = x.holds n := by
  by_cases hx : x.env = .held
  · rw [Voice.releaseKey_held hx]
    rfl
  · rw [Voice.releaseKey_of_ne_held hx]

@[simp] theorem Voice.holds_bypassOff (x : Voice) (n : BitVec 7) : x.bypassOff.holds n = x.holds n := by
  by_cases hb : x.env = .bypass
  · rw [Voice.bypassOff_bypass hb]
    rfl
  · rw [Voice.bypassOff_of_ne_bypass hb]

/-! ### The voice a NOTE_ON takes (R141) -/

/-- A CMD word with a note number as its ARG (R81, R83). -/
theorem cmdWord_note (op : BitVec 8) (n : BitVec 7) :
    cmdWord op (n.setWidth 8) = (op ++ 0#24) ||| n.setWidth 32 := by
  have hn : (n.setWidth 8).setWidth 32 = n.setWidth 32 := by
    apply BitVec.eq_of_toNat_eq
    iterate 3 rw [BitVec.toNat_setWidth_of_le (by norm_num)]
  rw [cmdWord_eq_or, hn]

section
variable {s : State} {n : BitVec 7}

theorem State.chosen_of_hit {v : Nat} (h : s.hit n = some v) : s.chosen n = v := by
  simp [State.chosen, h]

/-- Where no pool voice holds the note a NOTE_ON takes the voice at CURSOR and advances CURSOR. -/
theorem State.noteOn_steals (hs : s.Shape) (hr : s.runState ≠ .config)
    (h : ∀ u < s.pool.toNat, (s.voiceAt u).holds n = false) (vel : Word) :
    s.chosen n = s.cursor.toNat ∧ (s.noteOn n vel).cursor.toNat = (s.cursor.toNat + 1) % s.pool.toNat := by
  have hno : s.hit n = none := (State.hit_none hs.pool_le).mpr h
  refine ⟨by simp [State.chosen, hno], ?_⟩
  rw [State.noteOn_cursor, hno]
  exact State.nextCursor_toNat hs hr

/-- The two ways a NOTE_ON takes its voice: a re-trigger leaves CURSOR, a steal advances it. -/
theorem State.noteOn_cases (hs : s.Shape) (hr : s.runState ≠ .config) (vel : Word) :
    ((s.voiceAt (s.chosen n)).holds n = true ∧ (∀ u < s.chosen n, (s.voiceAt u).holds n = false) ∧
      (s.noteOn n vel).cursor = s.cursor) ∨
    ((∀ u < s.pool.toNat, (s.voiceAt u).holds n = false) ∧ s.chosen n = s.cursor.toNat ∧
      (s.noteOn n vel).cursor.toNat = (s.cursor.toNat + 1) % s.pool.toNat) := by
  rcases hh : s.hit n with _ | v
  · have hfree := (State.hit_none hs.pool_le).mp hh
    exact .inr ⟨hfree, State.noteOn_steals hs hr hfree vel⟩
  · obtain ⟨-, hv, hlow⟩ := State.hit_some hs.pool_le hh
    rw [State.chosen_of_hit hh]
    exact .inl ⟨hv, hlow, by simp [hh]⟩

/-- The voice a NOTE_ON takes is struck. -/
theorem State.voiceAt_noteOn_chosen (hs : s.Shape) (hr : s.runState ≠ .config) (vel : Word) :
    (s.noteOn n vel).voiceAt (s.chosen n) = (s.voiceAt (s.chosen n)).strike s.cfg s.timer n vel := by
  rw [State.voiceAt_noteOn, if_pos ⟨rfl, (State.chosen_lt hs hr n).trans_le hs.pool_le⟩]

/-- Every other voice is left as it was. -/
theorem State.voiceAt_noteOn_other {u : Nat} (h : u ≠ s.chosen n) (vel : Word) :
    (s.noteOn n vel).voiceAt u = s.voiceAt u := by
  rw [State.voiceAt_noteOn, if_neg fun hu => h hu.1]

end

/-! ### The voices NOTE_OFF releases (R142) -/

section
variable {s : State} {n : BitVec 7} {v : Nat}

theorem State.voiceAt_noteOff_holder (hp : v < s.pool.toNat) (hl : v < s.voices.length)
    (hn : (s.voiceAt v).holds n = true) (hx : (s.voiceAt v).env = .held) :
    (s.noteOff n).voiceAt v = { s.voiceAt v with
      env := .released, level0 := bits (envLevel s.cfg (s.voiceAt v) s.timer), start := s.timer } := by
  rw [State.noteOff_eq, State.voiceAt_mapPool, if_pos ⟨hp, hl⟩, if_pos hn, Voice.releaseKey_held hx]

/-- A voice outside the pool, one that does not hold the note, and one that is not HELD are left as they were. -/
theorem State.voiceAt_noteOff_other
    (h : ¬(v < s.pool.toNat ∧ v < s.voices.length ∧ (s.voiceAt v).holds n = true ∧ (s.voiceAt v).env = .held)) :
    (s.noteOff n).voiceAt v = s.voiceAt v := by
  rw [State.noteOff_eq, State.voiceAt_mapPool]
  split_ifs with hv hn
  · exact Voice.releaseKey_of_ne_held fun hx => h ⟨hv.1, hv.2, hn, hx⟩
  · rfl
  · rfl

end

/-! ### Distinct notes in the pool, dormant voices outside it (R50, R146 (a)) -/

/-- The two invariants of the voice file, said of the voices by number; `State.poolSound_iff` ties them to the model's. A
dormant voice holds no note, so the second clause needs no bound on the numbers. -/
structure State.PoolSound (s : State) : Prop where
  dormant : ∀ v, s.pool.toNat ≤ v → s.voiceAt v = Voice.reset
  distinct : ∀ n u v, (s.voiceAt u).holds n = true → (s.voiceAt v).holds n = true → u = v

theorem State.dormantOutsidePool_iff {s : State} :
    s.DormantOutsidePool ↔ ∀ v, s.pool.toNat ≤ v → s.voiceAt v = Voice.reset := by
  constructor
  · intro h v hv
    rcases lt_or_ge v s.voices.length with hl | hl
    · refine h _ (List.mem_drop_iff_getElem.mpr ⟨v - s.pool.toNat, by omega, ?_⟩)
      simp [State.voiceAt_eq hl, Nat.add_sub_cancel' hv]
    · exact State.voiceAt_of_ge hl
  · intro h x hx
    obtain ⟨i, hi, rfl⟩ := List.mem_drop_iff_getElem.mp hx
    rw [← State.voiceAt_eq]
    exact h _ (Nat.le_add_right _ _)

theorem State.notesDistinct_iff {s : State} (hp : s.pool.toNat ≤ s.voices.length) :
    s.NotesDistinct ↔ ∀ n, ∀ u < s.pool.toNat, ∀ v < s.pool.toNat,
      (s.voiceAt u).holds n = true → (s.voiceAt v).holds n = true → u = v := by
  have hlen := State.poolVoices_length hp
  unfold State.NotesDistinct
  rw [List.pairwise_iff_getElem]
  constructor
  · intro h n u hu v hv hnu hnv
    by_contra hne
    wlog hlt : u < v generalizing u v
    · exact this v hv u hu hnv hnu (Ne.symm hne) (by omega)
    have hdistinct := h u v (hlen ▸ hu) (hlen ▸ hv) hlt
    rw [State.poolVoices_getElem, State.poolVoices_getElem] at hdistinct
    obtain ⟨hu1, hu2⟩ := Voice.holds_iff.mp hnu
    obtain ⟨hv1, hv2⟩ := Voice.holds_iff.mp hnv
    exact hdistinct ⟨hu1, hv1, hu2.trans hv2.symm⟩
  · intro h u v hu hv hlt
    rw [State.poolVoices_getElem, State.poolVoices_getElem]
    rintro ⟨hu1, hv1, heq⟩
    exact hlt.ne (h _ u (hlen ▸ hu) v (hlen ▸ hv) (Voice.holds_iff.mpr ⟨hu1, rfl⟩)
      (Voice.holds_iff.mpr ⟨hv1, heq.symm⟩))

/-- A voice that holds a note lies in the pool. -/
theorem State.lt_pool_of_holds {s : State} (h : ∀ v, s.pool.toNat ≤ v → s.voiceAt v = Voice.reset) {n : BitVec 7}
    {v : Nat} (hv : (s.voiceAt v).holds n = true) : v < s.pool.toNat := by
  by_contra hge
  rw [h v (Nat.le_of_not_lt hge), Voice.holds_reset] at hv
  cases hv

theorem State.poolSound_iff {s : State} (hp : s.pool.toNat ≤ s.voices.length) :
    s.PoolSound ↔ s.DormantOutsidePool ∧ s.NotesDistinct := by
  rw [State.dormantOutsidePool_iff, State.notesDistinct_iff hp]
  constructor
  · exact fun h => ⟨h.dormant, fun n u _ v _ => h.distinct n u v⟩
  · exact fun ⟨hd, hn⟩ => ⟨hd, fun n u v hu hv =>
      hn n u (State.lt_pool_of_holds hd hu) v (State.lt_pool_of_holds hd hv) hu hv⟩

/-- An update that leaves POOL, the voices outside the pool and the note of every voice. -/
theorem State.PoolSound.of_same_notes {s t : State} (h : s.PoolSound) (hp : t.pool = s.pool)
    (hout : ∀ v, s.pool.toNat ≤ v → t.voiceAt v = s.voiceAt v)
    (hnote : ∀ v n, (t.voiceAt v).holds n = (s.voiceAt v).holds n) : t.PoolSound where
  dormant v hv := by
    rw [hp] at hv
    exact (hout v hv).trans (h.dormant v hv)
  distinct n u v hu hv := by
    rw [hnote] at hu hv
    exact h.distinct n u v hu hv

theorem State.PoolSound.mapPool {s : State} (h : s.PoolSound) {f : Voice → Voice}
    (hf : ∀ x n, (f x).holds n = x.holds n) : (s.mapPool f).PoolSound := by
  refine h.of_same_notes rfl (fun v hv => ?_) fun v n => ?_
  · rw [State.voiceAt_mapPool, if_neg fun hlt => Nat.not_lt.mpr hv hlt.1]
  · rw [State.voiceAt_mapPool]
    split_ifs
    · exact hf _ n
    · rfl

theorem State.PoolSound.setVoice {s : State} (h : s.PoolSound) {v : Nat} (hv : v < s.pool.toNat) {x : Voice}
    (hx : ∀ n, x.holds n = (s.voiceAt v).holds n) : (s.setVoice v x).PoolSound := by
  refine h.of_same_notes rfl (fun u hu => State.voiceAt_setVoice_other s (hv.trans_le hu).ne' x) fun u n => ?_
  rw [State.voiceAt_setVoice]
  split_ifs with hu
  · rw [hx, hu.1]
  · rfl

/-- Where notes are distinct, the one voice that holds the note is the one its NOTE_ON takes. -/
theorem State.PoolSound.eq_chosen {s : State} (h : s.PoolSound) (hs : s.Shape) {n : BitVec 7} {v : Nat}
    (hv : (s.voiceAt v).holds n = true) : v = s.chosen n := by
  rcases hh : s.hit n with _ | c
  · have hfree := (State.hit_none hs.pool_le).mp hh v (State.lt_pool_of_holds h.dormant hv)
    rw [hfree] at hv
    cases hv
  · obtain ⟨-, hc, -⟩ := State.hit_some hs.pool_le hh
    exact (h.distinct n v c hv hc).trans (State.chosen_of_hit hh).symm

/-- After a NOTE_ON the voice it took is the only one with the note; every other note is where it was. -/
theorem State.PoolSound.holds_noteOn {s : State} (h : s.PoolSound) (hs : s.Shape) (hr : s.runState ≠ .config)
    {n m : BitVec 7} {vel : Word} {u : Nat} (hu : ((s.noteOn n vel).voiceAt u).holds m = true) :
    if n = m then u = s.chosen n else (s.voiceAt u).holds m = true := by
  by_cases huc : u = s.chosen n
  · rw [huc, State.voiceAt_noteOn_chosen hs hr] at hu
    rwa [if_pos (Voice.holds_strike.mp hu)]
  · rw [State.voiceAt_noteOn_other huc] at hu
    rwa [if_neg]
    rintro rfl
    exact huc (h.eq_chosen hs hu)

theorem State.PoolSound.noteOn {s : State} (h : s.PoolSound) (hs : s.Shape) (hr : s.runState ≠ .config) (n : BitVec 7)
    (vel : Word) : (s.noteOn n vel).PoolSound := by
  refine ⟨fun u hu => ?_, fun m u v hu hv => ?_⟩
  · have hne : u ≠ s.chosen n := ((State.chosen_lt hs hr n).trans_le hu).ne'
    exact (State.voiceAt_noteOn_other hne vel).trans (h.dormant u hu)
  · have hu' := h.holds_noteOn hs hr hu
    have hv' := h.holds_noteOn hs hr hv
    split_ifs at hu' hv'
    · exact hu'.trans hv'.symm
    · exact h.distinct m u v hu' hv'

theorem State.PoolSound.noteOff {s : State} (h : s.PoolSound) (n : BitVec 7) : (s.noteOff n).PoolSound := by
  refine h.mapPool fun x m => ?_
  split_ifs
  · exact Voice.holds_releaseKey s.cfg s.timer x m
  · rfl

/-- The end of a frame moves counters only (R157). -/
theorem State.PoolSound.advance {s : State} (h : s.PoolSound) : s.advance.PoolSound := by
  by_cases hlast : s.timer + 1#64 = Config.sentinel
  · rw [State.advance_of_exhausted hlast]
    exact ⟨h.dormant, h.distinct⟩
  · rw [State.advance_of_not_exhausted hlast]
    exact State.PoolSound.mapPool (s := { s with timer := s.timer + 1#64 }) ⟨h.dormant, h.distinct⟩ fun _ _ => rfl

/-- Where every voice is dormant the voice file is sound, whatever POOL is. -/
theorem State.PoolSound.of_all_reset {s : State} (h : ∀ v, s.voiceAt v = Voice.reset) : s.PoolSound := by
  refine ⟨fun v _ => h v, fun n u v hu _ => ?_⟩
  rw [h u, Voice.holds_reset] at hu
  cases hu

/-- Before START the pool is empty, so START finds every voice dormant (R31, R50). -/
theorem State.PoolSound.start {s : State} (h : s.PoolSound) (hs : s.Shape) (hr : s.runState = .config) (k : Nat) :
    (s.start k).PoolSound := by
  obtain ⟨-, -, -, -, -, hconfig, -⟩ := hs
  refine .of_all_reset fun v => h.dormant v ?_
  rw [hconfig.mp hr]
  exact Nat.zero_le v

theorem State.voiceAt_softReset (s : State) (v : Nat) : s.softReset.voiceAt v = Voice.reset := by
  rcases lt_or_ge v s.softReset.voices.length with hv | hv
  · exact State.mem_initial_voices (p := s.params) (State.voiceAt_mem hv)
  · exact State.voiceAt_of_ge hv

/-- Every elementary move keeps the notes distinct and the voices outside the pool dormant. -/
theorem State.PoolSound.move {s t : State} (h : s.PoolSound) (hs : s.Shape) (hm : Move s t) : t.PoolSound := by
  cases hm with
  | agents | errors | evData | push | clearFifo | config | freq => exact ⟨h.dormant, h.distinct⟩
  | noteOn n vel hr => exact h.noteOn hs (by simp [hr]) n vel
  | noteOff n => exact h.noteOff n
  | bypassOn v hr hv => exact h.setVoice hv fun _ => rfl
  | bypassOff v hr hv => exact h.setVoice hv (Voice.holds_bypassOff _)
  | advance => exact h.advance
  | start hr => exact h.start hs hr _
  | softReset => exact .of_all_reset s.voiceAt_softReset

/-! ### A run of NOTE_ONs for fresh notes (R146 (b)) -/

/-- Distinct notes that no pool voice holds. -/
structure State.Fresh (s : State) (notes : List (BitVec 7 × Word)) : Prop where
  nodup : (notes.map Prod.fst).Nodup
  unheld : ∀ p ∈ notes, ∀ v < s.pool.toNat, (s.voiceAt v).holds p.1 = false

section
variable {s : State} {p : BitVec 7 × Word} {notes : List (BitVec 7 × Word)}

/-- A fresh note takes the voice at CURSOR. -/
theorem State.Fresh.chosen (h : s.Fresh (p :: notes)) (hs : s.Shape) (hr : s.runState ≠ .config) :
    s.chosen p.1 = s.cursor.toNat :=
  (State.noteOn_steals hs hr (h.unheld p List.mem_cons_self) p.2).1

/-- The place `k` after the new CURSOR is the place `k + 1` after the old one. -/
theorem State.Fresh.place (h : s.Fresh (p :: notes)) (hs : s.Shape) (hr : s.runState ≠ .config) (k : Nat) :
    ((s.noteOn p.1 p.2).cursor.toNat + k) % s.pool.toNat = (s.cursor.toNat + (k + 1)) % s.pool.toNat := by
  obtain ⟨-, hcur⟩ := State.noteOn_steals hs hr (h.unheld p List.mem_cons_self) p.2
  rw [hcur, Nat.mod_add_mod, Nat.add_assoc, Nat.add_comm 1 k]

/-- The notes after the first stay fresh when the first is played. -/
theorem State.Fresh.tail (h : s.Fresh (p :: notes)) (hs : s.Shape) (hr : s.runState ≠ .config) :
    (s.noteOn p.1 p.2).Fresh notes := by
  obtain ⟨hp, hnodup⟩ := List.nodup_cons.mp h.nodup
  refine ⟨hnodup, fun q hq v hv => ?_⟩
  by_cases hvc : v = s.chosen p.1
  · rw [hvc, State.voiceAt_noteOn_chosen hs hr, Bool.eq_false_iff]
    intro hheld
    exact hp (Voice.holds_strike.mp hheld ▸ List.mem_map_of_mem hq)
  · rw [State.voiceAt_noteOn_other hvc]
    exact h.unheld q (List.mem_cons_of_mem p hq) v hv

end

/-- NOTE_ONs for the notes of a list, one after another. -/
def State.noteOns (notes : List (BitVec 7 × Word)) (s : State) : State :=
  notes.foldl (fun u p => u.noteOn p.1 p.2) s

theorem State.noteOns_cons (p : BitVec 7 × Word) (ps : List (BitVec 7 × Word)) (s : State) :
    s.noteOns (p :: ps) = (s.noteOn p.1 p.2).noteOns ps := rfl

theorem State.noteOns_sizes (notes : List (BitVec 7 × Word)) (s : State) :
    (s.noteOns notes).pool = s.pool ∧ (s.noteOns notes).voices.length = s.voices.length := by
  induction notes generalizing s with
  | nil => exact ⟨rfl, rfl⟩
  | cons p ps ih =>
    obtain ⟨hpool, hvoices⟩ := ih (s.noteOn p.1 p.2)
    exact ⟨hpool, hvoices.trans (by simp)⟩

/-- Fewer than N places on from a place of a ring of N is another place. -/
theorem add_mod_ne_self {c k N : Nat} (hc : c < N) (hk : 0 < k) (hkN : k < N) : (c + k) % N ≠ c := by
  intro h
  have hdvd : N ∣ k := Nat.add_modEq_left_iff.mp (h.trans (Nat.mod_eq_of_lt hc).symm)
  exact Nat.not_le.mpr hkN (Nat.le_of_dvd hk hdvd)

/-- Up to N fresh notes take the voices from CURSOR on, one each, and leave the others alone. -/
theorem State.Fresh.noteOns {notes : List (BitVec 7 × Word)} {s : State} (h : s.Fresh notes) (hs : s.Shape)
    (hr : s.runState = .running) (hlen : notes.length ≤ s.pool.toNat) :
    (∀ k p, notes[k]? = some p →
      ((s.noteOns notes).voiceAt ((s.cursor.toNat + k) % s.pool.toNat)).holds p.1 = true) ∧
    (∀ v, (∀ k < notes.length, v ≠ (s.cursor.toNat + k) % s.pool.toNat) →
      (s.noteOns notes).voiceAt v = s.voiceAt v) := by
  induction notes generalizing s with
  | nil => exact ⟨by simp, fun _ _ => rfl⟩
  | cons p ps ih =>
    have hnot : s.runState ≠ .config := by simp [hr]
    have hc := hs.cursor_lt hnot
    rw [List.length_cons] at hlen
    obtain ⟨htaken, hleft⟩ := ih (h.tail hs hnot) (hs.noteOn hr p.1 p.2) hr (Nat.le_of_succ_le hlen)
    simp only [State.noteOn_pool, h.place hs hnot] at htaken hleft
    rw [State.noteOns_cons]
    refine ⟨fun k q hq => ?_, fun v hv => ?_⟩
    · cases k with
      | zero =>
        obtain rfl : p = q := by simpa using hq
        rw [Nat.add_zero, Nat.mod_eq_of_lt hc, hleft _ fun k hk =>
          (add_mod_ne_self hc (Nat.succ_pos k) (by omega)).symm, ← h.chosen hs hnot,
          State.voiceAt_noteOn_chosen hs hnot]
        exact Voice.holds_strike.mpr rfl
      | succ k => exact htaken k q (by simpa using hq)
    · have hv0 : v ≠ s.chosen p.1 := by
        rw [h.chosen hs hnot]
        simpa [Nat.mod_eq_of_lt hc] using hv 0 (Nat.succ_pos _)
      rw [hleft v fun k hk => hv (k + 1) (Nat.succ_lt_succ hk)]
      exact State.voiceAt_noteOn_other hv0 p.2

end Sys2Proof.Machine

namespace Sys2Proof.PoolClaims

open Sys2Proof.Machine

/-! ### The obligations of 43_voice_pool.md -/

/-- Settles O58: every elementary move keeps the shape and the soundness of the voice file together. -/
theorem notesStayDistinct : Obligations.NotesStayDistinct := by
  unfold Obligations.NotesStayDistinct
  intro s s' ⟨hs, hpool⟩ hstep
  obtain ⟨hs', hpool'⟩ := kept_by_step (P := fun u => u.Shape ∧ u.PoolSound)
    (fun _ _ ⟨hs, h⟩ hm => ⟨hs.move hm, h.move hs hm⟩) ⟨hs, (State.poolSound_iff hs.pool_le).mpr hpool⟩ hstep
  exact (State.poolSound_iff hs'.pool_le).mp hpool'

/-- Settles O9, by the two ways a NOTE_ON takes its voice (`State.noteOn_cases`). -/
theorem noteOnRetriggersOrSteals : Obligations.NoteOnRetriggersOrSteals := by
  unfold Obligations.NoteOnRetriggersOrSteals
  intro s n vel hs hr
  have hnot : s.runState ≠ .config := by simp [hr]
  refine ⟨congrArg (Words.event · vel) (cmdWord_note 0x01#8 n), _, s.chosen n, rfl, State.chosen_lt hs hnot n, ?_, ?_⟩
  · rcases State.noteOn_cases (n := n) hs hnot vel with ⟨hv, hlow, hcur⟩ | ⟨hfree, hv, hcur⟩
    · obtain ⟨hvalid, hnote⟩ := Voice.holds_iff.mp hv
      exact .inl ⟨hvalid, hnote, fun u hu => Voice.holds_eq_false_iff.mp (hlow u hu), hcur⟩
    · exact .inr ⟨fun u hu => Voice.holds_eq_false_iff.mp (hfree u hu), hv, hcur⟩
  · rw [State.voiceAt_noteOn_chosen hs hnot]
    exact ⟨Voice.strike_note .., Voice.strike_noteValid .., Voice.strike_vel .., Voice.strike_lfo ..,
      Voice.strike_bypass, Voice.strike_held, fun u hu => State.voiceAt_noteOn_other hu vel, rfl⟩

/-- Settles O10: the voices of the pool that hold the note in HELD, and the others. -/
theorem noteOffReleasesHolders : Obligations.NoteOffReleasesHolders := by
  unfold Obligations.NoteOffReleasesHolders
  intro s n
  refine ⟨congrArg (Words.event · 0#32) (cmdWord_note 0x02#8 n), s.noteOff n, rfl, fun v hp hl hvalid hnote hx => ?_,
    fun v hv => ?_, rfl⟩
  · exact State.voiceAt_noteOff_holder hp hl (Voice.holds_iff.mpr ⟨hvalid, hnote⟩) hx
  · refine State.voiceAt_noteOff_other fun ⟨hp, hl, hn, hx⟩ => hv ?_
    obtain ⟨hvalid, hnote⟩ := Voice.holds_iff.mp hn
    exact ⟨hp, hl, hvalid, hnote, hx⟩

/-- Settles O15: after the first note CURSOR is one place on, and the N notes that follow go once around the pool, the
last of them to the voice the first one took. -/
theorem oneMoreNoteStealsTheFirstVoice : Obligations.OneMoreNoteStealsTheFirstVoice := by
  unfold Obligations.OneMoreNoteStealsTheFirstVoice
  intro s notes hs hr hlen hnodup hfree
  obtain ⟨hpool, hvoices⟩ := State.noteOns_sizes notes s
  refine ⟨hpool, hvoices, ?_⟩
  obtain ⟨p, ps, rfl⟩ := List.exists_cons_of_length_eq_add_one hlen
  have hnot : s.runState ≠ .config := by simp [hr]
  have hfresh : s.Fresh (p :: ps) := ⟨hnodup, fun q hq v hv => Voice.holds_eq_false_iff.mpr (hfree q hq v hv)⟩
  obtain ⟨htaken, -⟩ := (hfresh.tail hs hnot).noteOns (hs.noteOn hr p.1 p.2) hr (Nat.le_of_succ_le_succ hlen.le)
  simp only [State.noteOn_pool, hfresh.place hs hnot] at htaken
  refine ⟨fun k hk _ q hq => ?_, fun q hq => ?_⟩
  · obtain ⟨k, rfl⟩ := Nat.exists_eq_add_one.mpr hk
    exact (Voice.holds_iff.mp (htaken k q hq)).symm
  · obtain ⟨k, hk⟩ := Nat.exists_eq_add_one.mpr (hs.pool_pos hnot)
    have h := htaken k q (by rwa [hk] at hq)
    rw [← hk, Nat.add_mod_right, Nat.mod_eq_of_lt (hs.cursor_lt hnot)] at h
    exact (Voice.holds_iff.mp h).symm

end Sys2Proof.PoolClaims

/-! SUPPORT. The event channel and the render loop (44_event_channel_render.md): a push (R150, R192), the drain entry by entry
(R153), the frames a RENDER owes (R152), the frame (R154–R158), and the conversion of its samples (R156). -/

namespace Sys2Proof.Machine

/-! ### The frame before the last count (R154, R157) -/

/-- A frame of a running block before the last count: the frame at TIMER, then TIMER and the pool's LFO counters. -/
theorem State.frame_of_not_exhausted {s : State} (hr : s.runState = .running) (ht : s.timer + 1#64 ≠ Config.sentinel) :
    s.frame = { s with
      sinkFrames := s.sinkFrames ++ [s.renderedFrame], timer := s.timer + 1#64,
      voices := (s.mapPool fun x => { x with lfo := x.lfo + 1#64 }).voices } := by
  rw [State.frame_running hr]
  exact State.advance_of_not_exhausted (s := s.emit _) ht

/-! ### The frames a RENDER owes (R152) -/

/-- The state with `n` frames owed; neither a drain nor a frame reads how many there are. -/
def State.owing (n : Nat) (s : State) : State := { s with framesLeft := n }

theorem State.owing_of_eq {s : State} {n : Nat} (h : s.framesLeft = n) : s.owing n = s := by
  subst h
  rfl

theorem State.applyEvent_owing (s : State) (n : Nat) (e : Event) :
    (s.owing n).applyEvent e = (s.applyEvent e).owing n := by
  rcases h : decodeEvent e.cmd e.data s.pool.toNat with why | i
  · rw [State.applyEvent_error (s := s.owing n) h, State.applyEvent_error h]
    rfl
  · simp only [State.applyEvent, State.owing, h]
    rcases decodeEvent_cases h with ⟨_, rfl, -⟩ | ⟨_, rfl⟩ | ⟨_, rfl, -⟩ | ⟨_, rfl, -⟩ <;> rfl

theorem State.drain_owing (s : State) (n : Nat) : (s.owing n).drain = s.drain.owing n := by
  by_cases hr : s.runState = .running
  · rw [State.drain_running hr, State.drain_running (s := s.owing n) hr]
    exact List.foldl_hom (init := { s with fifo := [] }) (State.owing n) fun t e => t.applyEvent_owing n e
  · rw [State.drain_of_not_running hr, State.drain_of_not_running (s := s.owing n) hr]

theorem State.frame_owing (s : State) (n : Nat) : (s.owing n).frame = s.frame.owing n := by
  by_cases hr : s.runState = .running
  · by_cases ht : s.timer + 1#64 = Config.sentinel
    · rw [State.frame_of_exhausted hr ht, State.frame_of_exhausted (s := s.owing n) hr ht]
      rfl
    · rw [State.frame_of_not_exhausted hr ht, State.frame_of_not_exhausted (s := s.owing n) hr ht]
      rfl
  · rw [State.frame_not_running hr, State.frame_not_running (s := s.owing n) hr]
    rfl

/-- A run of the machine goes on from the state its first step leaves. -/
theorem run_succ {s t : State} (h : step s = .next t) (k : Nat) :
    Host.Core.run core (k + 1) s = Host.Core.run core k t := by
  have hcore : core.step s = .next t := h
  simp [Host.Core.run, hcore]

/-- With nothing presented the Engine delivers the frames it owes, one a step. -/
theorem run_owed_frames (k : Nat) : ∀ s : State, s.inputs = [] →
    Host.Core.run core k (s.owing k) = .next (State.frame^[k] (s.owing 0)) := by
  induction k with
  | zero => exact fun _ _ => rfl
  | succ k ih =>
    intro s hi
    have hstep : step (s.owing (k + 1)) = .next (s.frame.owing k) := by
      rw [← State.frame_owing]
      simp [step, State.sequence, State.owing, hi, State.engineTurn]
    rw [run_succ hstep, ih s.frame (by rw [State.frame_inputs, hi]), Function.iterate_succ_apply, State.frame_owing]

/-! ### The Sink's account -/

/-- The frames the next step adds to those owed: those of a request that is taken (R152). -/
def State.framesAsked (s : State) : Nat :=
  match s.inputs with
  | .render frames :: _ => if s.framesLeft = 0 then frames.toNat else 0
  | _ => 0

theorem State.framesAsked_of_owed {s : State} (h : 0 < s.framesLeft) : s.framesAsked = 0 := by
  unfold State.framesAsked
  split
  · exact if_neg h.ne'
  · rfl

/-- The order of the agents, with what the Sink is owed and what it has. -/
structure SameSink (s t : State) : Prop where
  inputs : t.inputs = s.inputs
  framesLeft : t.framesLeft = s.framesLeft
  sinkFrames : t.sinkFrames = s.sinkFrames

theorem sameSink_afterRead (s : State) (size : BusSize) (off : BitVec 12) : SameSink s (s.afterRead size off) := by
  unfold State.afterRead
  split_ifs <;> exact ⟨rfl, rfl, rfl⟩

theorem sameSink_afterWrite (s : State) (size : BusSize) (off : BitVec 12) (wdata : BitVec 64) :
    SameSink s (s.afterWrite size off wdata) := by
  unfold State.afterWrite
  split_ifs
  · rcases s.writeReg_cases (regAt off) (wdata.setWidth 32) with
      h | ⟨-, -, h⟩ | ⟨-, -, -, -, h⟩ | ⟨_, h⟩ | h | ⟨-, h⟩ | ⟨-, _, h⟩ | ⟨-, _, h⟩ <;>
    · rw [State.writeWord, h]
      exact ⟨rfl, rfl, rfl⟩
  · exact ⟨rfl, rfl, rfl⟩

theorem sameSink_drain (s : State) : SameSink s s.drain := by
  by_cases hr : s.runState = .running
  · have h := State.drain_frame hr
    exact ⟨h.inputs, h.framesLeft, h.sinkFrames⟩
  · rw [State.drain_of_not_running hr]
    exact ⟨rfl, rfl, rfl⟩

/-- No frame is lost and none is added: the frames owed and delivered change by those a request asks for. -/
theorem step_frames_conserved {s s' : State} (h : step s = .next s') :
    s'.framesLeft + s'.sinkFrames.length = s.framesLeft + s.sinkFrames.length + s.framesAsked := by
  rcases step_cases h with ⟨-, -, ⟨ins, rfl⟩, hi⟩ | ⟨-, hpos, ins, rfl⟩ | ⟨rest, hi, rfl⟩ |
    ⟨desc, wdata, rest, size, hi, -, -, rfl⟩ | ⟨desc, wdata, rest, size, hi, -, -, rfl⟩ | ⟨frames, rest, hi, h0, rfl⟩
  · rcases hi with hi | ⟨rest, hi⟩ <;> simp [State.framesAsked, hi]
  · simp [State.framesAsked_of_owed hpos]
    omega
  · simp [State.framesAsked, hi]
  · obtain ⟨-, hl, hs⟩ := sameSink_afterRead { s with inputs := rest } size (descOffset desc)
    simp [State.framesAsked, hi, hl, hs]
  · obtain ⟨-, hl, hs⟩ := sameSink_afterWrite { s with inputs := rest } size (descOffset desc) (busData size wdata)
    simp [State.framesAsked, hi, hl, hs]
  · obtain ⟨-, hl, hs⟩ := sameSink_drain { s with inputs := rest, framesLeft := frames.toNat }
    simp [State.framesAsked, hi, hl, hs, h0, Nat.add_comm]

/-- A frame step delivers one frame, in every run state. -/
theorem step_frame_delivers_one {s s' : State} (h : step s = .next s') (hf : s.framesNext = true) :
    s'.sinkFrames.length = s.sinkFrames.length + 1 := by
  obtain ⟨ins, hstep, -⟩ := step_frame hf
  obtain rfl := Host.Outcome.next.inj (h.symm.trans hstep)
  simp

/-! ### The drain, entry by entry (R153) -/

theorem State.fifo_of_eq {s : State} {es : List Event} (h : s.fifo = es) : ({ s with fifo := es } : State) = s := by
  subst h
  rfl

theorem State.drain_of_empty {s : State} (h : s.fifo = []) : s.drain = s := by
  by_cases hr : s.runState = .running
  · rw [State.drain_running hr, h]
    exact State.fifo_of_eq h
  · exact State.drain_of_not_running hr

/-- The entry at the head is applied first, and the rest is drained after it. -/
theorem State.drain_cons {s u : State} {e : Event} {es : List Event} (hr : s.runState = .running)
    (hf : s.fifo = e :: es) (hu : State.applyEvent { s with fifo := [] } e = u) :
    s.drain = ({ u with fifo := es } : State).drain := by
  have h : SameButVoices { s with fifo := [] } u := hu ▸ sameButVoices_applyEvent _ e
  have hru : ({ u with fifo := es } : State).runState = .running := h.runState.trans hr
  rw [State.drain_running hr, hf, List.foldl_cons, hu, State.drain_running hru]
  exact congrArg (es.foldl State.applyEvent) (State.fifo_of_eq h.fifo).symm

/-- The frame of a drain, written as a record. -/
theorem SameButVoices.eq {s t : State} (h : SameButVoices s t) :
    t = { s with voices := t.voices, cursor := t.cursor, errs := t.errs } := by
  obtain ⟨hparams, hrun, hmark, htimer, hpool, hdata, hcfg, hfreq, hfifo, hinputs, hleft, hsink, hreads, -⟩ := h
  rw [← hparams, ← hrun, ← hmark, ← htimer, ← hpool, ← hdata, ← hcfg, ← hfreq, ← hfifo, ← hinputs, ← hleft, ← hsink,
    ← hreads]

/-! ### The push (R150, R192) -/

/-- A write to EV_CMD is the push of its word. -/
theorem exec_busWrite_evCmd (s : State) (wdata : BitVec 64) :
    exec (.busWrite .b4 0x02C#12 wdata) s = .next (s.push (wdata.setWidth 32)) := rfl

theorem State.push_of_room {s : State} (h : s.fifo.length < s.params.evqDepth) (w : Word) :
    s.push w = { s with fifo := s.fifo ++ [{ cmd := w, data := s.evData }] } :=
  if_pos h

theorem State.push_of_full {s : State} (h : s.params.evqDepth ≤ s.fifo.length) (w : Word) :
    s.push w = { s with errs := { s.errs with
      err := s.errs.err ||| 1#5,
      dropCount := BitVec.ofNat 32 (min (s.errs.dropCount.toNat + 1) (2 ^ 32 - 1)) } } := by
  rw [← satInc32_eq]
  exact if_neg h.not_gt

/-! ### The frame step and the mix (R154, R155) -/

/-- A frame step of a running block before the last count (R154, R157). -/
theorem step_frame_of_not_exhausted {s : State} (hf : s.framesNext = true) (hr : s.runState = .running)
    (ht : s.timer + 1#64 ≠ Config.sentinel) :
    ∃ ins, step s = .next { s with
        inputs := ins, framesLeft := s.framesLeft - 1, sinkFrames := s.sinkFrames ++ [s.renderedFrame],
        timer := s.timer + 1#64, voices := (s.mapPool fun x => { x with lfo := x.lfo + 1#64 }).voices } ∧
      0 < s.framesLeft ∧ (∀ rest, s.inputs = .engine :: rest → ins = rest) ∧
      ((∀ rest, s.inputs ≠ .engine :: rest) → ins = s.inputs) := by
  obtain ⟨ins, hstep, hrest⟩ := step_frame hf
  rw [State.frame_of_not_exhausted (s := { s with inputs := ins, framesLeft := s.framesLeft - 1 }) hr ht] at hstep
  exact ⟨ins, hstep, hrest⟩

/-- The accumulators after each voice of the pool, in ascending order (R154). -/
theorem State.mix_steps {s : State} (h : s.pool.toNat ≤ s.voices.length) :
    ∃ acc : Nat → Flt × Flt, acc 0 = (fltZero, fltZero) ∧
      (∀ v < s.pool.toNat, acc (v + 1) = mixVoice s.cfg s.freq s.timer (acc v) (s.voiceAt v)) ∧
      s.mix = acc s.pool.toNat := by
  have hlen := State.poolVoices_length h
  obtain ⟨acc, h0, hsucc, hmix⟩ :=
    Laws.foldl_steps (mixVoice s.cfg s.freq s.timer) (fltZero, fltZero) s.poolVoices Voice.reset
  rw [hlen] at hsucc hmix
  refine ⟨acc, h0, fun v hv => ?_, hmix⟩
  have hv' : v < s.poolVoices.length := hlen ▸ hv
  rw [hsucc v hv, List.getD_eq_getElem _ _ hv', State.poolVoices_getElem hv']

/-- The mix of a pool of one voice. -/
theorem State.mix_of_one {s : State} (hp : s.pool = 1#6) (hv : s.voices ≠ []) :
    s.mix = mixVoice s.cfg s.freq s.timer (fltZero, fltZero) (s.voiceAt 0) := by
  have hpos : 0 < s.voices.length := List.length_pos_of_ne_nil hv
  obtain ⟨acc, h0, hsucc, hmix⟩ := State.mix_steps (s := s) (by rw [hp]; exact hpos)
  rw [hp] at hsucc hmix
  rw [hmix, ← h0]
  exact hsucc 0 (by decide)

end Sys2Proof.Machine

namespace Sys2Proof.Laws

open Sys2Proof.Machine

theorem oscOut_polygon {c : CfgRegs} {freq : List Word} {x : Voice} {t : Count} (h : c.waveSel = .polygon) :
    oscOut c freq x t = polygon (cornerCount c x) (phase c.sampleRate (freqOf freq x.note) t) := by
  simp [oscOut, h]

/-- R154's example: one voice in BYPASS at velocity 0.5, a quarter turn into the circle. -/
theorem renderedFrame_of_quarter_turn {s : State} (hp : s.pool = 1#6) (hv : s.voices ≠ [])
    (henv : (s.voiceAt 0).env = .bypass) (hvel : (s.voiceAt 0).vel = 0x3F000000#32) (hwave : s.cfg.waveSel = .circle)
    (hsr : s.cfg.sampleRate = 4#32) (hfreq : s.freq.getD (s.voiceAt 0).note.toNat 0#32 = 0x3F800000#32)
    (ht : s.timer = 1#64) (hgain : s.cfg.masterGain = 0x3F800000#32) (hfmt : s.cfg.outFmt = .f32) :
    s.renderedFrame = { left := .w32 0x3F000000#32, right := .w32 0x00000000#32 } := by
  have hphase : phase s.cfg.sampleRate (freqOf s.freq (s.voiceAt 0).note) s.timer = fltQuarters 1 := by
    rw [freqOf, hfreq, hsr, ht]
    decide +kernel
  have hosc : oscOut s.cfg s.freq (s.voiceAt 0) s.timer = (fltLit 1, fltZero) := by
    rw [oscOut_circle hwave, hphase]
    decide +kernel
  have hmix : s.mix = (f32 0x3F000000#32, fltZero) := by
    rw [State.mix_of_one hp hv, mixVoice, hosc, envLevel_bypass henv, hvel]
    decide +kernel
  rw [State.renderedFrame, hmix, hgain, hfmt]
  decide +kernel

/-! ### The bound of the mix (R155) -/

theorem mul_unit_lt_overflow {k : Nat} (hk : k ≤ 2 ^ 24) : k * fltUnit < fltOverflow := by
  unfold fltOverflow
  exact Nat.mul_lt_mul_of_pos_right (by omega) fltUnit_pos

theorem Within.mono {j k : Nat} {x : Flt} (h : Within j x) (hjk : j ≤ k) : Within k x := by
  obtain ⟨s, m, rfl, hm⟩ := h
  exact ⟨s, m, rfl, hm.trans (Nat.mul_le_mul_right _ hjk)⟩

theorem Within.bounds {k : Nat} {x : Flt} (h : Within k x) :
    (fltLit k).neg.le x = true ∧ x.le (fltLit k) = true := by
  obtain ⟨s, m, rfl, hm⟩ := h
  rw [flt_le_iff, flt_le_iff, fltLit_eq]
  refine ⟨⟨rfl, rfl, ?_⟩, rfl, rfl, ?_⟩ <;>
  · cases s <;> simp [Flt.place, Flt.neg, signedMag] <;> omega

theorem gainEff_fin (w : Word) : ∃ s m, gainEff w = .fin s m := by
  rcases h : f32 w with _ | s | ⟨s, m⟩
  · exact ⟨_, _, gainEff_of_not_finite (by rw [h]; rfl)⟩
  · exact ⟨_, _, gainEff_of_not_finite (by rw [h]; rfl)⟩
  · exact ⟨s, m, (gainEff_of_finite (by rw [h]; rfl)).trans h⟩

theorem Within.mul_gainEff_not_nan {k : Nat} {x : Flt} (h : Within k x) (w : Word) :
    (x.mul (gainEff w)).isNan = false := by
  obtain ⟨s, m, rfl, -⟩ := h
  obtain ⟨s', m', hg⟩ := gainEff_fin w
  rw [hg]
  exact mul_fin_not_nan

/-- Each voice of the pool adds at most 1.0 in magnitude to each accumulator. -/
theorem mix_within {s : State} (h : s.LevelsInUnit) : Within s.pool.toNat s.mix.1 ∧ Within s.pool.toNat s.mix.2 := by
  have hlen : s.poolVoices.length ≤ s.pool.toNat := List.length_take_le _ _
  have hpool : s.pool.toNat < 64 := s.pool.isLt
  have hzero : Within 0 fltZero := ⟨_, _, rfl, Nat.zero_le _⟩
  obtain ⟨h1, h2⟩ := foldl_mix_within (c := s.cfg) (freq := s.freq) (t := s.timer) s.poolVoices (fltZero, fltZero) 0
    (by omega) ⟨hzero, hzero⟩ fun x hx => h x (List.mem_of_mem_take hx)
  exact ⟨h1.mono (by omega), h2.mono (by omega)⟩

/-! ### The code of a sample (R156) -/

/-- `clamp(y, −1.0, 1.0) × 32767.0` is finite and at most 32767.0 in magnitude. -/
theorem scaledSample_fin (y : Flt) : ∃ s m,
    (clamp y (fltLit 1).neg (fltLit 1)).mul (fltLit 32767) = .fin s m ∧ m ≤ 32767 * fltUnit := by
  obtain ⟨s, m, hc, hm⟩ := clamp_bip y
  obtain ⟨r, hr, hle⟩ := mul_fin_le_right (s := s) (s' := false) hm (sig_mul_unit (n := 32767) (by norm_num))
    (mul_unit_lt_overflow (by norm_num))
  exact ⟨_, r, by rw [hc, fltLit_eq, hr], hle⟩

theorem sampleCode_of_nan {y : Flt} (h : y.isNan = true) : sampleCode y = 0 := if_pos h

theorem sampleCode_of_scaled {y : Flt} {s : Bool} {m : Nat} (h : y.isNan = false)
    (hm : (clamp y (fltLit 1).neg (fltLit 1)).mul (fltLit 32767) = .fin s m) :
    sampleCode y = signedMag s (roundHalfEven m fltUnit) := by
  simp [sampleCode, h, hm, roundToInt]

/-- The rounding of a signed magnitude to a whole number of 1.0s is a nearest one, and the even one of two. -/
theorem signedMag_roundHalfEven_nearest (s : Bool) (m : Nat) :
    2 * |signedMag s (roundHalfEven m fltUnit) * 2 ^ 149 - signedMag s m| ≤ 2 ^ 149 ∧
    (2 * |signedMag s (roundHalfEven m fltUnit) * 2 ^ 149 - signedMag s m| = 2 ^ 149 →
      signedMag s (roundHalfEven m fltUnit) % 2 = 0) := by
  obtain ⟨hlo, hhi, htie⟩ := roundHalfEven_nearest (n := m) fltUnit_pos
  generalize roundHalfEven m fltUnit = q at *
  have habs : |signedMag s q * 2 ^ 149 - signedMag s m| = |(q : Int) * 2 ^ 149 - m| := by
    cases s
    · rfl
    · rw [← abs_neg]
      congr 1
      simp only [signedMag, if_true]
      ring
  have heven : q % 2 = 0 → signedMag s q % 2 = 0 := by
    cases s <;> simp [signedMag] <;> omega
  unfold fltUnit at *
  rw [habs]
  rcases abs_cases ((q : Int) * 2 ^ 149 - m) with ⟨ha, -⟩ | ⟨ha, -⟩ <;> rw [ha] <;>
  · exact ⟨by omega, fun ht => heven (htie (by omega))⟩

theorem sampleCode_range (y : Flt) : -32767 ≤ sampleCode y ∧ sampleCode y ≤ 32767 := by
  cases hn : y.isNan
  · obtain ⟨s, m, hm, hle⟩ := scaledSample_fin y
    have hq : roundHalfEven m fltUnit ≤ 32767 := roundHalfEven_le fltUnit_pos hle
    rw [sampleCode_of_scaled hn hm]
    unfold signedMag
    split_ifs <;> omega
  · rw [sampleCode_of_nan hn]
    decide

/-- The S16 word is the code in two's complement. -/
theorem s16_word_toInt (y : Flt) : (BitVec.ofInt 16 (sampleCode y)).toInt = sampleCode y := by
  obtain ⟨hlo, hhi⟩ := sampleCode_range y
  rw [BitVec.toInt_ofInt, Int.bmod_eq_of_le] <;> omega

/-- The U16 word is the code plus 32768. -/
theorem u16_word_toNat (y : Flt) : ((BitVec.ofInt 16 (sampleCode y + 32768)).toNat : Int) = sampleCode y + 32768 := by
  obtain ⟨hlo, hhi⟩ := sampleCode_range y
  rw [BitVec.toNat_ofInt]
  omega

theorem conv_s16_ne_min (y : Flt) : conv .s16 y ≠ .w16 0x8000#16 := by
  intro h
  have hw := s16_word_toInt y
  rw [Sample.w16.inj h] at hw
  have := (sampleCode_range y).1
  have hmin : (0x8000#16).toInt = -32768 := by decide
  omega

theorem conv_u16_ne_zero (y : Flt) : conv .u16 y ≠ .w16 0x0000#16 := by
  intro h
  have hw := u16_word_toNat y
  rw [Sample.w16.inj h] at hw
  have := (sampleCode_range y).1
  have hzero : (0x0000#16).toNat = 0 := rfl
  omega

end Sys2Proof.Laws
namespace Sys2Proof.RenderClaims

open Sys2Proof.Laws Sys2Proof.Machine

/-! ### The obligations of 44_event_channel_render.md -/

/-- Settles O6: the request's own step is the drain, and `run_owed_frames` counts its frames; for the steps of all agents
`step_frames_conserved` keeps the account. -/
theorem renderIsDrainThenItsFrames : Obligations.RenderIsDrainThenItsFrames := by
  unfold Obligations.RenderIsDrainThenItsFrames
  refine ⟨fun s frames hi h0 => ?_, fun s s' h => ⟨step_frames_conserved h, step_frame_delivers_one h⟩⟩
  have hdrain : step s = .next (({ s with inputs := [] } : State).drain.owing frames.toNat) := by
    rw [step_render hi h0, State.present_of_decode_ok rfl, exec_render, ← State.drain_owing]
    rfl
  obtain ⟨hin, hleft, -⟩ := sameSink_drain { s with inputs := [] }
  rw [Nat.add_comm, run_succ hdrain, run_owed_frames _ _ hin, State.owing_of_eq (hleft.trans h0)]

/-- Settles O7: `State.drain_cons`, with what the entry at the head does in its two cases. -/
theorem drainAppliesEventsInOrder : Obligations.DrainAppliesEventsInOrder := by
  unfold Obligations.DrainAppliesEventsInOrder
  refine ⟨fun s _ hf => State.drain_of_empty hf, fun s e es hr hf => ⟨fun i hd => ?_, fun why hd => ?_⟩⟩
  · exact ⟨_, State.exec_event (s := { s with fifo := [] }) hd, State.drain_cons hr hf rfl⟩
  · exact State.drain_cons hr hf (State.applyEvent_error (s := { s with fifo := [] }) hd)

/-- Settles O8: a request is the drain with its frames owed, and a drain has the frame of `State.drain_frame`. -/
theorem renderRequestDrainsTheFifo : Obligations.RenderRequestDrainsTheFifo := by
  unfold Obligations.RenderRequestDrainsTheFifo
  refine fun s frames => ⟨fun hr => ?_, fun hr => ?_⟩
  · have h := State.drain_frame (s := { s with framesLeft := frames.toNat }) hr
    exact ⟨_, exec_render s frames, h.fifo, h.eq, h.dropCount, h.busInfo, h.err⟩
  · exact congrArg Host.Outcome.next (State.drain_of_not_running (s := { s with framesLeft := frames.toNat }) hr)

/-- Settles O28, from the bound of each accumulator and a gain that is finite. -/
theorem mixIsBoundedByThePool : Obligations.MixIsBoundedByThePool := by
  unfold Obligations.MixIsBoundedByThePool
  intro s h
  obtain ⟨hleft, hright⟩ := mix_within h
  exact ⟨hleft.bounds.1, hleft.bounds.2, hright.bounds.1, hright.bounds.2, hleft.mul_gainEff_not_nan _,
    hright.mul_gainEff_not_nan _⟩

/-- Settles O29: the code of a sample that is no NaN is the rounding of a finite product, and the words follow from its range;
the rows of the table are computed. -/
theorem sampleCodeRange : Obligations.SampleCodeRange := by
  unfold Obligations.SampleCodeRange
  refine ⟨fun _ => rfl, fun _ => sampleCode_of_nan, fun y hn => ?_,
    fun y => ⟨_, _, rfl, rfl, s16_word_toInt y, u16_word_toNat y⟩,
    fun y => ⟨(sampleCode_range y).1, (sampleCode_range y).2, conv_s16_ne_min y, conv_u16_ne_zero y⟩, ?_, ?_⟩
  · obtain ⟨s, m, hm, -⟩ := scaledSample_fin y
    rw [sampleCode_of_scaled hn hm]
    exact ⟨s, m, hm, signedMag_roundHalfEven_nearest s m⟩
  · rintro y (rfl | rfl | rfl) <;> decide +kernel
  · decide +kernel

/-- Settles O48: the step is `step_frame_of_not_exhausted`, the frame is written out by `State.mix_steps`, and the example is
`renderedFrame_of_quarter_turn`. -/
theorem frameStepAdvancesTheCounters : Obligations.FrameStepAdvancesTheCounters := by
  unfold Obligations.FrameStepAdvancesTheCounters
  refine ⟨fun s hf hr ht => ?_, fun s h => ?_, fun s hf hr hp hv henv hvel hwave hsr hfreq ht hgain hfmt => ?_⟩
  · have hlast : s.timer + 1#64 ≠ Config.sentinel := by
      unfold Config.sentinel
      bv_omega
    obtain ⟨ins, hstep, hpos, hengine, hother⟩ := step_frame_of_not_exhausted hf hr hlast
    have htimer : (s.timer + 1#64).toNat = s.timer.toNat + 1 := by bv_omega
    exact ⟨_, hstep, rfl, htimer, Nat.sub_add_cancel hpos,
      fun v hv hl => (State.voiceAt_mapPool s _ v).trans (if_pos ⟨hv, hl⟩),
      fun v hv => (State.voiceAt_mapPool s _ v).trans (if_neg hv), hengine, hother, rfl⟩
  · obtain ⟨acc, h0, hsucc, hmix⟩ := State.mix_steps h
    refine ⟨fun v => oscOut s.cfg s.freq (s.voiceAt v) s.timer, acc,
      fun v _ => ⟨oscOut_circle, oscOut_polygon⟩, h0, hsucc, ?_, ?_⟩ <;>
    · rw [← hmix]
      rfl
  · obtain ⟨ins, hstep, -⟩ := step_frame_of_not_exhausted hf hr (by rw [ht]; decide)
    rw [renderedFrame_of_quarter_turn hp hv henv hvel hwave hsr hfreq ht hgain hfmt, ht] at hstep
    exact ⟨_, hstep, rfl, rfl⟩

/-- Settles O45: the two cases of a push. -/
theorem pushAppendsOrDropsNewest : Obligations.PushAppendsOrDropsNewest := by
  unfold Obligations.PushAppendsOrDropsNewest
  intro s wdata
  rw [exec_busWrite_evCmd]
  exact ⟨fun h => congrArg Host.Outcome.next (State.push_of_room h _),
    fun h => congrArg Host.Outcome.next (State.push_of_full h _)⟩

/-- Settles O50: a drain does nothing, and the frame step of `step_frame` emits silence. -/
theorem silenceWhileNotRunning : Obligations.SilenceWhileNotRunning := by
  unfold Obligations.SilenceWhileNotRunning
  refine fun s hr => ⟨State.drain_of_not_running hr, fun hf => ?_⟩
  obtain ⟨ins, hstep, hpos, hengine, hother⟩ := step_frame hf
  rw [State.frame_not_running (s := { s with inputs := ins, framesLeft := s.framesLeft - 1 }) hr] at hstep
  exact ⟨_, hstep, rfl, Nat.sub_add_cancel hpos, hengine, hother, rfl⟩

end Sys2Proof.RenderClaims

/-! SUPPORT. The Host's bus (45_host_bus.md): what a legal write does to the register it names (R171, R173–R180), and the
words that are put together for a read (R25, R44–R46, R170). -/

namespace Sys2Proof.Machine

/-! ### A legal write and the register it names (R171) -/

/-- A legal write does what a write to the register at its offset does, with the low 32 bits of the data. -/
theorem exec_busWrite_legal (s : State) {off : BitVec 12} {r : Reg} (h : off.toNat % 4 = 0) (hr : regAt off = r)
    (wdata : BitVec 64) : exec (.busWrite .b4 off wdata) s = .next (s.writeReg r (wdata.setWidth 32)) := by
  rw [exec_busWrite, State.afterWrite, if_pos (busLegal_b4 h), State.writeWord, hr]

theorem regAt_low {off : BitVec 12} (h : off.toNat < 0x400) : regAt off = lowRegAt (off.toNat / 4) := if_pos h

/-- The registers a write leaves alone (R180): the read-only ones, the voice windows and the reserved offsets. -/
def Reg.ignoresWrites : Reg → Bool
  | .ctrl | .err | .evData | .evCmd | .cfg _ | .freq _ => false
  | .id | .status | .dropCount | .badCount | .timerLo | .timerHi | .cursor | .pool | .badCmd | .badReason | .busInfo
  | .window _ _ | .reserved => true

theorem State.writeReg_of_ignoresWrites {r : Reg} (h : r.ignoresWrites = true) (s : State) (val : Word) :
    s.writeReg r val = s := by
  cases r with
  | ctrl | err | evData | evCmd | cfg | freq => cases h
  | _ => rfl

/-- The read-only registers below 0x040 and the reserved offset 0x03C (R22, R46). -/
theorem lowRegAt_ignoresWrites :
    ∀ n ∈ [0x000, 0x008, 0x010, 0x014, 0x018, 0x01C, 0x020, 0x024, 0x030, 0x034, 0x038, 0x03C],
    n < 0x400 ∧ (lowRegAt (n / 4)).ignoresWrites = true := by
  decide

theorem regAt_ignoresWrites_above_cfg {off : BitVec 12} (h : 0x070 ≤ off.toNat) (h' : off.toNat < 0x800) :
    (regAt off).ignoresWrites = true := by
  rcases lt_or_ge off.toNat 0x400 with hlow | hwin
  · rw [regAt_reserved_low h hlow]
    rfl
  · rw [regAt_window_of_range hwin h']
    rfl

/-! ### CTRL (R173) -/

theorem exec_busWrite_ctrl (s : State) (wdata : BitVec 64) :
    exec (.busWrite .b4 0x004#12 wdata) s = .next (s.ctrlWrite (wdata.setWidth 32)) :=
  exec_busWrite_legal s (by decide) rfl wdata

theorem State.ctrlWrite_start {s : State} {val : Word} (h1 : val.getLsbD 1 = false) (h0 : val.getLsbD 0 = true)
    (hr : s.runState = .config) : s.ctrlWrite val = s.start (poolFor s.cfg.voices s.params.maxVoices) := by
  simp [State.ctrlWrite, -BitVec.getLsbD_eq_getElem, h1, h0, hr]

theorem State.ctrlWrite_ignored {s : State} {val : Word} (h1 : val.getLsbD 1 = false)
    (h : val.getLsbD 0 = false ∨ s.runState ≠ .config) : s.ctrlWrite val = s := by
  rcases h with h | h <;> simp [State.ctrlWrite, -BitVec.getLsbD_eq_getElem, h1, h]

/-- POOL holds the pool size START latches: it is at most 32 (R6, R31). -/
theorem toNat_ofNat_poolFor {p : Params} (h : p.Legal) (voices : Word) :
    (BitVec.ofNat 6 (poolFor voices p.maxVoices)).toNat = poolFor voices p.maxVoices := by
  obtain ⟨-, hmax, -⟩ := id h
  obtain ⟨-, hle⟩ := poolFor_range h voices
  rw [BitVec.toNat_ofNat, Nat.mod_eq_of_lt (by omega)]

/-! ### The configuration registers and FREQ (R176, R177) -/

theorem exec_busWrite_cfg {s : State} {off : BitVec 12} {r : CfgReg} (hrun : s.runState ≠ .running)
    (h : off.toNat % 4 = 0) (hr : regAt off = .cfg r) (wdata : BitVec 64) :
    exec (.busWrite .b4 off wdata) s = .next { s with cfg := s.cfg.write r (wdata.setWidth 32) } := by
  rw [exec_busWrite_legal s h hr]
  exact congrArg Host.Outcome.next (if_neg hrun)

theorem CfgRegs.write_waveSel (c : CfgRegs) (wdata : BitVec 64) :
    c.write .waveSel (wdata.setWidth 32) = { c with waveSel := if wdata.getLsbD 0 then .circle else .polygon } := by
  simp [CfgRegs.write]

/-- OUT_FMT takes bits [1:0] (R45). -/
theorem outFmt_field (wdata : BitVec 64) : ((wdata.setWidth 32).extractLsb' 0 2).toNat = wdata.toNat % 4 := by
  simp only [BitVec.extractLsb'_toNat, BitVec.toNat_setWidth, Nat.shiftRight_zero]
  omega

/-- The four values of the field: the last one stores nothing (R45). -/
theorem CfgRegs.write_outFmt (c : CfgRegs) (wdata : BitVec 64) :
    (wdata.toNat % 4 = 0 → c.write .outFmt (wdata.setWidth 32) = { c with outFmt := .f32 }) ∧
    (wdata.toNat % 4 = 1 → c.write .outFmt (wdata.setWidth 32) = { c with outFmt := .s16 }) ∧
    (wdata.toNat % 4 = 2 → c.write .outFmt (wdata.setWidth 32) = { c with outFmt := .u16 }) ∧
    (wdata.toNat % 4 = 3 → c.write .outFmt (wdata.setWidth 32) = c) := by
  refine ⟨fun h => ?_, fun h => ?_, fun h => ?_, fun h => ?_⟩ <;> simp only [CfgRegs.write, outFmt_field, h]

theorem exec_busWrite_freq {s : State} {n : Nat} (hrun : s.runState ≠ .running) (hn : n < 128) (wdata : BitVec 64) :
    exec (.busWrite .b4 (BitVec.ofNat 12 (0x800 + 4 * n)) wdata) s =
      .next { s with freq := s.freq.set n (wdata.setWidth 32) } := by
  rw [exec_busWrite_legal s (by rw [BitVec.toNat_ofNat]; omega) (regAt_freq hn)]
  exact congrArg Host.Outcome.next (if_neg hrun)

/-! ### The words of the registers (R23–R46, R170) -/

/-- A reserved offset names no register (R46). -/
theorem regAt_reserved {off : BitVec 12}
    (h : off.toNat = 0x03C ∨ (0x070 ≤ off.toNat ∧ off.toNat ≤ 0x3FC) ∨ 0xA00 ≤ off.toNat) : regAt off = .reserved := by
  rcases h with hlone | ⟨hlo, hhi⟩ | hhigh
  · rw [regAt_low (by omega), hlone]
    rfl
  · exact regAt_reserved_low hlo (by omega)
  · exact regAt_reserved_high hhigh

/-- The flags of STATUS as a word (R25). -/
def statusFlags (run halted empty full : Bool) : Word :=
  flagBit run 0 ||| flagBit halted 1 ||| flagBit empty 2 ||| flagBit full 3

theorem statusFlags_fields : ∀ run halted empty full,
    (statusFlags run halted empty full).getLsbD 0 = run ∧ (statusFlags run halted empty full).getLsbD 1 = halted ∧
    (statusFlags run halted empty full).getLsbD 2 = empty ∧ (statusFlags run halted empty full).getLsbD 3 = full ∧
    (statusFlags run halted empty full).extractLsb' 4 12 = 0#12 ∧
    (statusFlags run halted empty full).extractLsb' 16 16 = 0#16 := by
  decide

/-- STATUS field by field (R25): the count stands above the flags. -/
theorem statusWord_fields (run : RunState) (count depth : Nat) :
    (statusWord run count depth).getLsbD 0 = decide (run = .running) ∧
    (statusWord run count depth).getLsbD 1 = decide (run = .halted) ∧
    (statusWord run count depth).getLsbD 2 = decide (count = 0) ∧
    (statusWord run count depth).getLsbD 3 = decide (count = depth) ∧
    (statusWord run count depth).extractLsb' 4 12 = 0#12 ∧
    (statusWord run count depth).extractLsb' 16 16 = BitVec.ofNat 16 count := by
  have hword : statusWord run count depth = statusFlags (decide (run = .running)) (decide (run = .halted))
      (decide (count = 0)) (decide (count = depth)) ||| (BitVec.ofNat 16 count).setWidth 32 <<< 16 := rfl
  have hlow : ((BitVec.ofNat 16 count).setWidth 32 <<< 16).extractLsb' 4 12 = 0#12 := by
    ext i hi
    simp [show 4 + i < 16 by omega]
  have hhigh : ((BitVec.ofNat 16 count).setWidth 32 <<< 16).extractLsb' 16 16 = BitVec.ofNat 16 count := by
    ext i hi
    simp [show 16 + i < 32 by omega, hi]
  obtain ⟨h0, h1, h2, h3, hreserved, hcount⟩ :=
    statusFlags_fields (decide (run = .running)) (decide (run = .halted)) (decide (count = 0)) (decide (count = depth))
  rw [hword, BitVec.extractLsb'_or, BitVec.extractLsb'_or, hlow, hhigh, hreserved, hcount]
  simp [-BitVec.getLsbD_eq_getElem, h0, h1, h2, h3]

theorem CfgRegs.read_waveSel_iff (c : CfgRegs) :
    (c.read .waveSel = 0#32 ↔ c.waveSel = .polygon) ∧ (c.read .waveSel = 1#32 ↔ c.waveSel = .circle) := by
  cases h : c.waveSel <;> simp [CfgRegs.read, h]

theorem CfgRegs.read_outFmt_iff (c : CfgRegs) :
    (c.read .outFmt = 0#32 ↔ c.outFmt = .f32) ∧ (c.read .outFmt = 1#32 ↔ c.outFmt = .s16) ∧
      (c.read .outFmt = 2#32 ↔ c.outFmt = .u16) := by
  cases h : c.outFmt <;> simp [CfgRegs.read, h]

end Sys2Proof.Machine

namespace Sys2Proof.BusClaims

open Sys2Proof.Machine

/-! ### The obligations of 45_host_bus.md -/

/-- Settles O34. STATUS is `statusWord_fields`, the reserved offsets are `regAt_reserved`; of the other registers those
narrower than a word are widened, and the rest read as they stand. -/
theorem registerMapReads : Obligations.RegisterMapReads := by
  unfold Obligations.RegisterMapReads
  intro s
  obtain ⟨hrun, hhalted, hempty, hfull, hreserved, hcount⟩ :=
    statusWord_fields s.runState s.fifo.length s.params.evqDepth
  have hnil : decide (s.fifo.length = 0) = decide (s.fifo = []) := decide_eq_decide.mpr List.length_eq_zero_iff
  obtain ⟨hpolygon, hcircle⟩ := s.cfg.read_waveSel_iff
  obtain ⟨hf32, hs16, hu16⟩ := s.cfg.read_outFmt_iff
  exact ⟨rfl, rfl, hrun, hhalted, hempty.trans hnil, hfull, hreserved, hcount, rfl, rfl, rfl, count_words s.timer,
    BitVec.toNat_setWidth_of_le (by decide), BitVec.toNat_setWidth_of_le (by decide), rfl, rfl, rfl,
    BitVec.toNat_setWidth_of_le (by decide), rfl, rfl, rfl, rfl, rfl, rfl, rfl, rfl, rfl, rfl, rfl, hpolygon, hcircle,
    hf32, hs16, hu16, fun n hn => by rw [State.readWord, regAt_freq hn, State.readReg],
    fun off hoff _ => by rw [State.readWord, regAt_reserved hoff, State.readReg]⟩

/-- Settles O46: what stands at each of the offsets ignores a write. -/
theorem readOnlyWritesAreIgnored : Obligations.ReadOnlyWritesAreIgnored := by
  unfold Obligations.ReadOnlyWritesAreIgnored
  intro s off wdata h4 hoff
  have hreg : (regAt off).ignoresWrites = true := by
    rcases hoff with hlist | ⟨hlo, hhi⟩ | hhigh
    · obtain ⟨hlow, hign⟩ := lowRegAt_ignoresWrites _ hlist
      rw [regAt_low hlow, hign]
    · exact regAt_ignoresWrites_above_cfg hlo hhi
    · rw [regAt_reserved_high hhigh]
      rfl
  rw [exec_busWrite_legal s h4 rfl, State.writeReg_of_ignoresWrites hreg]

/-- Settles O36: an illegal access is a record of the BUS error, with BUS_INFO as `busInfoWord_toNat` gives it. -/
theorem illegalAccessIsOnlyRecorded : Obligations.IllegalAccessIsOnlyRecorded := by
  unfold Obligations.IllegalAccessIsOnlyRecorded
  intro s size off wdata h
  have hl : ¬busLegal size off = true := mt busLegal_iff.mp h
  exact ⟨s.errs.record (.bus off false size), s.errs.record (.bus off true size),
    congrArg Host.Outcome.next (if_neg hl), congrArg Host.Outcome.next (if_neg hl), rfl, rfl,
    busInfoWord_toNat off false size, busInfoWord_toNat off true size⟩

/-- Settles O37: the two cases of a CTRL write without SRST. -/
theorem startLatchesThePool : Obligations.StartLatchesThePool := by
  unfold Obligations.StartLatchesThePool
  intro s wdata hlegal h1
  have hv : ∀ i < 32, (wdata.setWidth 32).getLsbD i = wdata.getLsbD i := fun i hi => by simp [hi]
  rw [← hv 1 (by decide)] at h1
  rw [exec_busWrite_ctrl, ← hv 0 (by decide)]
  refine ⟨fun h0 hr => ⟨_, congrArg Host.Outcome.next (State.ctrlWrite_start h1 h0 hr), rfl, ?_, rfl⟩,
    fun h => congrArg Host.Outcome.next (State.ctrlWrite_ignored h1 h)⟩
  exact toNat_ofNat_poolFor hlegal s.cfg.voices

/-- Settles O38: both resets are `State.softReset`. -/
theorem softResetIsReset : Obligations.SoftResetIsReset := by
  unfold Obligations.SoftResetIsReset
  intro s wdata h
  exact ⟨s.softReset, congrArg Host.Outcome.next (State.afterWrite_srst h), fun rest => rfl, rfl, rfl, rfl, rfl, rfl, rfl,
    rfl, rfl, rfl, rfl, rfl, rfl, rfl, rfl, rfl, List.length_replicate,
    fun x hx => State.mem_initial_voices (p := s.params) hx⟩

/-- Settles O40: bit i of `ERR & ~val`. -/
theorem errWriteClearsFlags : Obligations.ErrWriteClearsFlags := by
  unfold Obligations.ErrWriteClearsFlags
  intro s wdata
  refine ⟨s.clearErr (wdata.setWidth 32), exec_busWrite_legal s (by decide) rfl wdata, fun i hi => ?_, rfl⟩
  simp [hi]

/-- Settles O41: each register stores by `exec_busWrite_cfg`, and the two narrow ones take their field of the data. -/
theorem unlockedConfigWriteStores : Obligations.UnlockedConfigWriteStores := by
  unfold Obligations.UnlockedConfigWriteStores
  intro s wdata hrun
  have store : ∀ {off r c}, off.toNat % 4 = 0 → regAt off = .cfg r → s.cfg.write r (wdata.setWidth 32) = c →
      exec (.busWrite .b4 off wdata) s = .next { s with cfg := c } :=
    fun h4 hr hc => hc ▸ exec_busWrite_cfg hrun h4 hr wdata
  obtain ⟨h0, h1, h2, h3⟩ := s.cfg.write_outFmt wdata
  exact ⟨store rfl rfl rfl, store rfl rfl rfl, store rfl rfl rfl, store rfl rfl rfl, store rfl rfl rfl,
    store rfl rfl rfl, store rfl rfl rfl, store rfl rfl rfl, store rfl rfl rfl, store rfl rfl rfl,
    store rfl rfl (s.cfg.write_waveSel wdata), fun h => store rfl rfl (h0 h), fun h => store rfl rfl (h1 h),
    fun h => store rfl rfl (h2 h), fun h => store rfl rfl (h3 h)⟩

/-- Settles O42: the write is a `List.set` inside the table of 128 entries. -/
theorem unlockedFreqWriteStores : Obligations.UnlockedFreqWriteStores := by
  unfold Obligations.UnlockedFreqWriteStores
  intro s n wdata hn hrun hlen
  refine ⟨_, exec_busWrite_freq hrun hn wdata, ?_, fun k hk => ?_, rfl⟩
  · simp [hlen, hn]
  · simp [List.getElem?_set_ne (Ne.symm hk)]

/-- Settles O44: both the write and the read reach EV_DATA through the register map. -/
theorem evDataWriteStores : Obligations.EvDataWriteStores := by
  unfold Obligations.EvDataWriteStores
  exact fun s wdata => ⟨exec_busWrite_legal s (by decide) rfl wdata, rfl⟩

end Sys2Proof.BusClaims

/-! SUPPORT. The exceptions (60_exceptions.md): the fault mark of an exhausted TIMER (R196), the record of a malformed event
(R193) and of a locked write (R194). -/

namespace Sys2Proof.Machine

/-! ### The fault mark (R55, R196) -/

theorem SameRun.markIffHalted {s t : State} (h : SameRun s t) (hm : s.MarkIffHalted) : t.MarkIffHalted := by
  rw [State.MarkIffHalted, h.faultMark, h.runState]
  exact hm

/-- A frame halts the block and sets the mark together (R104), and a frame that does not halt touches neither. -/
theorem State.MarkIffHalted.frame {s : State} (hm : s.MarkIffHalted) : s.frame.MarkIffHalted := by
  rcases s.frame_cases with h | ⟨hrun, hrun', hmark, -⟩ | ⟨-, -, hhalt, hmark, -⟩
  · exact h.markIffHalted hm
  · rw [State.MarkIffHalted, hmark, hrun', ← hrun]
    exact hm
  · exact iff_of_true hmark hhalt

/-- START acts in CONFIG and leads to RUNNING (R173): the mark stands in neither. -/
theorem State.MarkIffHalted.start {s : State} (hm : s.MarkIffHalted) (hc : s.runState = .config) (n : Nat) :
    (s.start n).MarkIffHalted := by
  have hmark : s.faultMark ≠ true := mt hm.mp (by simp [hc])
  exact iff_of_false hmark (by simp)

/-- A frame never clears the mark. -/
theorem State.Faulted.frame {s : State} (hf : s.Faulted) : s.frame.Faulted := by
  rcases s.frame_cases with h | ⟨-, -, hmark, -⟩ | ⟨-, -, -, hmark, -⟩
  · exact h.faultMark.trans hf
  · exact hmark.trans hf
  · exact hmark

/-! ### A locked write (R176, R177, R194) -/

/-- The write of a configuration register or of FREQ in a running block is a record of CFG_LOCKED. -/
theorem exec_busWrite_locked {s : State} {off : BitVec 12} (hrun : s.runState = .running) (h4 : off.toNat % 4 = 0)
    (hreg : (∃ r, regAt off = .cfg r) ∨ ∃ n, regAt off = .freq n) (wdata : BitVec 64) :
    exec (.busWrite .b4 off wdata) s = .next (s.raise .cfgLocked) := by
  rcases hreg with ⟨r, hr⟩ | ⟨n, hr⟩ <;>
  · rw [exec_busWrite_legal s h4 hr]
    exact congrArg Host.Outcome.next (if_pos hrun)

end Sys2Proof.Machine

namespace Sys2Proof.ExceptionClaims

open Sys2Proof.Machine

/-! ### The obligations of 60_exceptions.md -/

/-- Settles O59, by what a step does to the run: only a frame that halts sets the mark, and nothing but a reset clears it. -/
theorem faultMarkMeansHalted : Obligations.FaultMarkMeansHalted := by
  unfold Obligations.FaultMarkMeansHalted
  intro s s' hm hstep
  rcases step_run_cases hstep with
    ⟨hr, ins, rfl⟩ | ⟨-, -, ins, n, rfl⟩ | ⟨-, hc, -, rest, -, -, -, rfl⟩ | ⟨-, h⟩
  · exact ⟨iff_of_false (by simp) (by simp), fun _ hr' => absurd (hr.symm.trans hr') (by simp)⟩
  · exact ⟨State.MarkIffHalted.frame (s := { s with inputs := ins, framesLeft := n }) hm,
      fun hf _ => State.Faulted.frame (s := { s with inputs := ins, framesLeft := n }) hf⟩
  · exact ⟨State.MarkIffHalted.start (s := { s with inputs := rest }) hm hc _, fun hf _ => hf⟩
  · exact ⟨h.markIffHalted hm, fun hf _ => h.faultMark.trans hf⟩

/-- Settles O14: the event is answered by a record (`State.applyEvent_error`), written out by `State.raise_evBad`. -/
theorem malformedEventIsOnlyRecorded : Obligations.MalformedEventIsOnlyRecorded := by
  unfold Obligations.MalformedEventIsOnlyRecorded
  intro s e why h
  rw [State.applyEvent_error h, State.raise_evBad]
  exact ⟨rfl, rfl⟩

/-- Settles O43: at each of the offsets stands a configuration register or an entry of FREQ. -/
theorem lockedWriteIsOnlyFlagged : Obligations.LockedWriteIsOnlyFlagged := by
  unfold Obligations.LockedWriteIsOnlyFlagged
  intro s off wdata hrun h4 hoff
  refine exec_busWrite_locked hrun h4 ?_ wdata
  rcases hoff with ⟨hlo, hhi⟩ | ⟨hlo, hhi⟩
  · exact .inl (regAt_cfg hlo (by omega))
  · exact .inr ⟨_, regAt_freq_of_range hlo (by omega)⟩

end Sys2Proof.ExceptionClaims
